-- ==== Sys2Proof/Word.lean ====
section
/-! DEFINITION. The DAU's words: a 64-bit machine word (00_scope.md R7), a byte of text (20_memory.md R44), a
32-bit command word (30_encoding.md R60). -/

namespace Sys2Proof

/-- A machine word, `W = 64` bits, unsigned (R7). -/
abbrev Word := BitVec 64

/-- One character of text (R44). -/
abbrev Byte := BitVec 8

/-- One command word, 32 bits (R60). -/
abbrev CmdWord := BitVec 32

end Sys2Proof
end

