-- ==== Sys2Proof/Config.lean ====
section
/-! DEFINITION. The build parameters N, K, DC0 and the constants derived from them (00_scope.md R5, R6, R8). -/

namespace Sys2Proof

/-- Decimal digits per limb, `LD` (R6). -/
def LD : Nat := 18

/-- The limb modulus: a limb is in `[0, BASE)` (R6). -/
def BASE : Nat := 1000000000000000000

/-- The half-limb modulus (R6). -/
def HB : Nat := 1000000000

/-- The parameters the spec leaves OPEN (R5, R96): the number of limbs `N`, the scale `K` in limbs, and the digit
count of zero `DC0` (`true` is 1). -/
structure Config where
  N : Nat
  K : Nat
  dc0 : Bool
deriving DecidableEq, Repr

namespace Config

/-- The constraints of R5, and the bound that CONFIG's encoding sets (R28: "A configuration with N > 255 is not
supported by this encoding"). DEDUCED, safe: see notes/assumptions/3.md. -/
def wf (c : Config) : Bool := decide (1 ≤ c.N ∧ c.K < c.N ∧ c.N ≤ 255)

/-- Digit capacity of a Natural, `ND = N·18` (R6). -/
def ND (c : Config) : Nat := c.N * LD

/-- Fractional-digit capacity of a Decimal, `F = K·18` (R6). -/
def F (c : Config) : Nat := c.K * LD

/-- Integer-digit capacity of a Decimal, `I = (N − K)·18` (R6). -/
def I (c : Config) : Nat := (c.N - c.K) * LD

/-- One more than the largest Natural, `CAP = BASE^N` (R6). -/
def CAP (c : Config) : Nat := BASE ^ c.N

/-- The Decimal scale factor, `SC = BASE^K` (R6). -/
def SC (c : Config) : Nat := BASE ^ c.K

/-- The capacity of the text buffer, `TMAX = ND + 2` bytes (R8). -/
def TMAX (c : Config) : Nat := c.ND + 2

/-- The digit count of zero as a number, 0 or 1 (R96). -/
def DC0 (c : Config) : Nat := if c.dc0 then 1 else 0

/-- The reference configuration of R5 with the spec's default `DC0 = 0` (R96). The spec leaves all three open:
DESIGN CHOICE, unsafe for a claim about a run from reset; see notes/assumptions/2.md. -/
def reference : Config := { N := 4, K := 1, dc0 := false }

end Config

end Sys2Proof
end

