-- ==== Sys2Proof/Syntax.lean ====
section
/-! DEFINITION. The command set: one constructor per row of spec/opcode_table.json, operands in the order of
30_encoding.md R65 (destinations first). -/

namespace Sys2Proof

/-- A value register number, 0..7 (R61). -/
abbrev VReg := BitVec 3

/-- A scalar register number, 0..7 (R61). -/
abbrev SReg := BitVec 3

/-- The immediate field, unsigned 0..4095 (R63). -/
abbrev Imm := BitVec 12

/-- The 55 commands of R65. `v…` operands name the value file, `s…` operands the scalar file (R61). -/
inductive Instr where
  | nop
  | sli (sd : SReg) (imm : Imm)
  | vmov (vd va : VReg)
  | vgetl (sd : SReg) (va : VReg) (idx : Imm)
  | vsetl (vd : VReg) (idx : Imm) (sb : SReg)
  | vgets (sd : SReg) (va : VReg)
  | rebal (sd sx sa sb : SReg)
  | splith (sd sx sa : SReg)
  | mulw (sd sx sa sb : SReg)
  | digcnt (sd sa : SReg)
  | pow10 (sd sa : SReg)
  | shlw (sd sx sa sb : SReg)
  | shrw (sd sx sa sb : SReg)
  | div2by1 (sd sx sa sb sc : SReg)
  | nparse (vd : VReg)
  | nformat (va : VReg)
  | nadd (vd va vb : VReg)
  | nsub (vd va vb : VReg)
  | ncompl (vd va : VReg)
  | nshll (vd vx va : VReg) (sb : SReg)
  | nshrl (vd vx va : VReg) (sb : SReg)
  | nshld (vd vx va : VReg) (sb : SReg)
  | nshrd (vd vx va : VReg) (sb : SReg)
  | nmull (vd : VReg) (sx : SReg) (va : VReg) (sb : SReg)
  | nmul (vd vx va vb : VReg)
  | ndivl (vd : VReg) (sx : SReg) (va : VReg) (sb : SReg)
  | ndiv (vd vx va vb : VReg)
  | neq (sd : SReg) (va vb : VReg)
  | ngt (sd : SReg) (va vb : VReg)
  | nlt (sd : SReg) (va vb : VReg)
  | nge (sd : SReg) (va vb : VReg)
  | nle (sd : SReg) (va vb : VReg)
  | iadd (vd va vb : VReg)
  | isub (vd va vb : VReg)
  | ineg (vd va : VReg)
  | imul (vd vx va vb : VReg)
  | idiv (vd vx va vb : VReg)
  | ieq (sd : SReg) (va vb : VReg)
  | igt (sd : SReg) (va vb : VReg)
  | ilt (sd : SReg) (va vb : VReg)
  | ige (sd : SReg) (va vb : VReg)
  | ile (sd : SReg) (va vb : VReg)
  | dparse (vd : VReg)
  | dformat (va : VReg)
  | dadd (vd va vb : VReg)
  | dsub (vd va vb : VReg)
  | dmul (vd va vb : VReg)
  | ddiv (vd va vb : VReg)
  | diszero (sd : SReg) (va : VReg)
  | dconst (vd : VReg) (idx : Imm)
  | deq (sd : SReg) (va vb : VReg)
  | dgt (sd : SReg) (va vb : VReg)
  | dlt (sd : SReg) (va vb : VReg)
  | dge (sd : SReg) (va vb : VReg)
  | dle (sd : SReg) (va vb : VReg)
deriving DecidableEq, Repr

end Sys2Proof
end

