-- ==== Sys2Proof/WellFormed.lean ====
section
/-! DEFINITION. Which instructions are commands: two destinations in one register file name two different registers
(30_encoding.md R68). Every other operand is in range by its type (R60, R61, R63). -/

namespace Sys2Proof

/-- R68: "A command with two destinations in the same register file (both `v` or both `s`) must name two different
registers". NMULL and NDIVL have one destination in each file, so `rd = rx` as numbers is legal there. -/
def Instr.wf : Instr → Bool
  | .rebal sd sx _ _ => sd != sx
  | .splith sd sx _ => sd != sx
  | .mulw sd sx _ _ => sd != sx
  | .shlw sd sx _ _ => sd != sx
  | .shrw sd sx _ _ => sd != sx
  | .div2by1 sd sx _ _ _ => sd != sx
  | .nshll vd vx _ _ => vd != vx
  | .nshrl vd vx _ _ => vd != vx
  | .nshld vd vx _ _ => vd != vx
  | .nshrd vd vx _ _ => vd != vx
  | .nmul vd vx _ _ => vd != vx
  | .ndiv vd vx _ _ => vd != vx
  | .imul vd vx _ _ => vd != vx
  | .idiv vd vx _ _ => vd != vx
  | .nop | .sli _ _ | .vmov _ _ | .vgetl _ _ _ | .vsetl _ _ _ | .vgets _ _ | .digcnt _ _ | .pow10 _ _ => true
  | .nparse _ | .nformat _ | .nadd _ _ _ | .nsub _ _ _ | .ncompl _ _ | .nmull _ _ _ _ | .ndivl _ _ _ _ => true
  | .neq _ _ _ | .ngt _ _ _ | .nlt _ _ _ | .nge _ _ _ | .nle _ _ _ => true
  | .iadd _ _ _ | .isub _ _ _ | .ineg _ _ | .ieq _ _ _ | .igt _ _ _ | .ilt _ _ _ | .ige _ _ _ | .ile _ _ _ => true
  | .dparse _ | .dformat _ | .dadd _ _ _ | .dsub _ _ _ | .dmul _ _ _ | .ddiv _ _ _ | .diszero _ _ | .dconst _ _ => true
  | .deq _ _ _ | .dgt _ _ _ | .dlt _ _ _ | .dge _ _ _ | .dle _ _ _ => true

end Sys2Proof
end

