-- ==== Sys2Proof/Decode.lean ====
section
/-! DEFINITION. Decoding a command word (30_encoding.md R60 to R70), total on any 32 bits, and the encoder written
from the same tables. -/

namespace Sys2Proof

/-- The six fields of a command word (R60). -/
structure Fields where
  op : BitVec 8
  rd : BitVec 3
  rx : BitVec 3
  ra : BitVec 3
  rb : BitVec 3
  imm : BitVec 12
deriving DecidableEq, Repr

/-- The bit positions of R60: op 31:24, rd 23:21, rx 20:18, ra 17:15, rb 14:12, imm 11:0. -/
def Fields.ofWord (w : CmdWord) : Fields :=
  { op := w.extractLsb' 24 8, rd := w.extractLsb' 21 3, rx := w.extractLsb' 18 3,
    ra := w.extractLsb' 15 3, rb := w.extractLsb' 12 3, imm := w.extractLsb' 0 12 }

/-- The word that holds the six fields (R60). -/
def Fields.toWord (f : Fields) : CmdWord := f.op ++ f.rd ++ f.rx ++ f.ra ++ f.rb ++ f.imm

/-- `rc = imm[2:0]`, the third source register number of format FDXABC (R60, R63 (d)). -/
def Fields.rc (f : Fields) : BitVec 3 := f.imm.extractLsb' 0 3

/-- The eleven formats (R62). -/
inductive Format where
  | f0 | fd | fa | fdi | fda | fdai | fdbi | fdxa | fdab | fdxab | fdxabc
deriving DecidableEq, Repr

/-- The bits a decoder compares: the opcode and every unused field (R62). -/
def Format.mask : Format → CmdWord
  | .f0 => 0xFFFFFFFF#32
  | .fd => 0xFF1FFFFF#32
  | .fa => 0xFFFC7FFF#32
  | .fdi => 0xFF1FF000#32
  | .fda => 0xFF1C7FFF#32
  | .fdai => 0xFF1C7000#32
  | .fdbi => 0xFF1F8000#32
  | .fdxa => 0xFF007FFF#32
  | .fdab => 0xFF1C0FFF#32
  | .fdxab => 0xFF000FFF#32
  | .fdxabc => 0xFF000FF8#32

/-- The opcode map of R65: the format of an opcode and the command its fields name; `none` for the unassigned
opcodes (R67). -/
def opcodeRow (f : Fields) : Option (Format × Instr) :=
  match f.op.toNat with
  | 0x00 => some (.f0, .nop)
  | 0x01 => some (.fdi, .sli f.rd f.imm)
  | 0x02 => some (.fda, .vmov f.rd f.ra)
  | 0x03 => some (.fdai, .vgetl f.rd f.ra f.imm)
  | 0x04 => some (.fdbi, .vsetl f.rd f.imm f.rb)
  | 0x05 => some (.fda, .vgets f.rd f.ra)
  | 0x10 => some (.fdxab, .rebal f.rd f.rx f.ra f.rb)
  | 0x11 => some (.fdxa, .splith f.rd f.rx f.ra)
  | 0x12 => some (.fdxab, .mulw f.rd f.rx f.ra f.rb)
  | 0x13 => some (.fda, .digcnt f.rd f.ra)
  | 0x14 => some (.fda, .pow10 f.rd f.ra)
  | 0x15 => some (.fdxab, .shlw f.rd f.rx f.ra f.rb)
  | 0x16 => some (.fdxab, .shrw f.rd f.rx f.ra f.rb)
  | 0x17 => some (.fdxabc, .div2by1 f.rd f.rx f.ra f.rb f.rc)
  | 0x20 => some (.fd, .nparse f.rd)
  | 0x21 => some (.fa, .nformat f.ra)
  | 0x22 => some (.fdab, .nadd f.rd f.ra f.rb)
  | 0x23 => some (.fdab, .nsub f.rd f.ra f.rb)
  | 0x24 => some (.fda, .ncompl f.rd f.ra)
  | 0x25 => some (.fdxab, .nshll f.rd f.rx f.ra f.rb)
  | 0x26 => some (.fdxab, .nshrl f.rd f.rx f.ra f.rb)
  | 0x27 => some (.fdxab, .nshld f.rd f.rx f.ra f.rb)
  | 0x28 => some (.fdxab, .nshrd f.rd f.rx f.ra f.rb)
  | 0x29 => some (.fdxab, .nmull f.rd f.rx f.ra f.rb)
  | 0x2A => some (.fdxab, .nmul f.rd f.rx f.ra f.rb)
  | 0x2B => some (.fdxab, .ndivl f.rd f.rx f.ra f.rb)
  | 0x2C => some (.fdxab, .ndiv f.rd f.rx f.ra f.rb)
  | 0x30 => some (.fdab, .neq f.rd f.ra f.rb)
  | 0x31 => some (.fdab, .ngt f.rd f.ra f.rb)
  | 0x32 => some (.fdab, .nlt f.rd f.ra f.rb)
  | 0x33 => some (.fdab, .nge f.rd f.ra f.rb)
  | 0x34 => some (.fdab, .nle f.rd f.ra f.rb)
  | 0x40 => some (.fdab, .iadd f.rd f.ra f.rb)
  | 0x41 => some (.fdab, .isub f.rd f.ra f.rb)
  | 0x42 => some (.fda, .ineg f.rd f.ra)
  | 0x43 => some (.fdxab, .imul f.rd f.rx f.ra f.rb)
  | 0x44 => some (.fdxab, .idiv f.rd f.rx f.ra f.rb)
  | 0x48 => some (.fdab, .ieq f.rd f.ra f.rb)
  | 0x49 => some (.fdab, .igt f.rd f.ra f.rb)
  | 0x4A => some (.fdab, .ilt f.rd f.ra f.rb)
  | 0x4B => some (.fdab, .ige f.rd f.ra f.rb)
  | 0x4C => some (.fdab, .ile f.rd f.ra f.rb)
  | 0x50 => some (.fd, .dparse f.rd)
  | 0x51 => some (.fa, .dformat f.ra)
  | 0x52 => some (.fdab, .dadd f.rd f.ra f.rb)
  | 0x53 => some (.fdab, .dsub f.rd f.ra f.rb)
  | 0x54 => some (.fdab, .dmul f.rd f.ra f.rb)
  | 0x55 => some (.fdab, .ddiv f.rd f.ra f.rb)
  | 0x56 => some (.fda, .diszero f.rd f.ra)
  | 0x57 => some (.fdi, .dconst f.rd f.imm)
  | 0x58 => some (.fdab, .deq f.rd f.ra f.rb)
  | 0x59 => some (.fdab, .dgt f.rd f.ra f.rb)
  | 0x5A => some (.fdab, .dlt f.rd f.ra f.rb)
  | 0x5B => some (.fdab, .dge f.rd f.ra f.rb)
  | 0x5C => some (.fdab, .dle f.rd f.ra f.rb)
  | _ => none

/-- Why a word is an illegal command; each is fault ILLEGAL_COMMAND (R69). -/
inductive DecodeError where
  /-- The opcode is not in R65 (R67). -/
  | unassignedOpcode
  /-- A field the format does not use is not zero (R66). -/
  | unusedFieldNotZero
  /-- Two destinations in one file name one register (R68). -/
  | sameDestination
deriving DecidableEq, Repr

/-- A word matches a format when the opcode is as given and every unused field is zero:
`(word AND mask) = (op << 24)` (R62). -/
def matchesFormat (w : CmdWord) (fmt : Format) : Bool :=
  (w &&& fmt.mask) == ((Fields.ofWord w).op ++ 0#24)

/-- The decoding order of R69: opcode, unused fields, rule R68. -/
def decode (w : CmdWord) : Except DecodeError Instr :=
  match opcodeRow (Fields.ofWord w) with
  | none => .error .unassignedOpcode
  | some (fmt, i) =>
    if matchesFormat w fmt then
      if i.wf then .ok i else .error .sameDestination
    else .error .unusedFieldNotZero

/-- The fields of a command's word, every unused field zero (R65, R66). -/
def Instr.fields : Instr → Fields
  | .nop => ⟨0x00, 0, 0, 0, 0, 0⟩
  | .sli sd imm => ⟨0x01, sd, 0, 0, 0, imm⟩
  | .vmov vd va => ⟨0x02, vd, 0, va, 0, 0⟩
  | .vgetl sd va idx => ⟨0x03, sd, 0, va, 0, idx⟩
  | .vsetl vd idx sb => ⟨0x04, vd, 0, 0, sb, idx⟩
  | .vgets sd va => ⟨0x05, sd, 0, va, 0, 0⟩
  | .rebal sd sx sa sb => ⟨0x10, sd, sx, sa, sb, 0⟩
  | .splith sd sx sa => ⟨0x11, sd, sx, sa, 0, 0⟩
  | .mulw sd sx sa sb => ⟨0x12, sd, sx, sa, sb, 0⟩
  | .digcnt sd sa => ⟨0x13, sd, 0, sa, 0, 0⟩
  | .pow10 sd sa => ⟨0x14, sd, 0, sa, 0, 0⟩
  | .shlw sd sx sa sb => ⟨0x15, sd, sx, sa, sb, 0⟩
  | .shrw sd sx sa sb => ⟨0x16, sd, sx, sa, sb, 0⟩
  | .div2by1 sd sx sa sb sc => ⟨0x17, sd, sx, sa, sb, 0#9 ++ sc⟩
  | .nparse vd => ⟨0x20, vd, 0, 0, 0, 0⟩
  | .nformat va => ⟨0x21, 0, 0, va, 0, 0⟩
  | .nadd vd va vb => ⟨0x22, vd, 0, va, vb, 0⟩
  | .nsub vd va vb => ⟨0x23, vd, 0, va, vb, 0⟩
  | .ncompl vd va => ⟨0x24, vd, 0, va, 0, 0⟩
  | .nshll vd vx va sb => ⟨0x25, vd, vx, va, sb, 0⟩
  | .nshrl vd vx va sb => ⟨0x26, vd, vx, va, sb, 0⟩
  | .nshld vd vx va sb => ⟨0x27, vd, vx, va, sb, 0⟩
  | .nshrd vd vx va sb => ⟨0x28, vd, vx, va, sb, 0⟩
  | .nmull vd sx va sb => ⟨0x29, vd, sx, va, sb, 0⟩
  | .nmul vd vx va vb => ⟨0x2A, vd, vx, va, vb, 0⟩
  | .ndivl vd sx va sb => ⟨0x2B, vd, sx, va, sb, 0⟩
  | .ndiv vd vx va vb => ⟨0x2C, vd, vx, va, vb, 0⟩
  | .neq sd va vb => ⟨0x30, sd, 0, va, vb, 0⟩
  | .ngt sd va vb => ⟨0x31, sd, 0, va, vb, 0⟩
  | .nlt sd va vb => ⟨0x32, sd, 0, va, vb, 0⟩
  | .nge sd va vb => ⟨0x33, sd, 0, va, vb, 0⟩
  | .nle sd va vb => ⟨0x34, sd, 0, va, vb, 0⟩
  | .iadd vd va vb => ⟨0x40, vd, 0, va, vb, 0⟩
  | .isub vd va vb => ⟨0x41, vd, 0, va, vb, 0⟩
  | .ineg vd va => ⟨0x42, vd, 0, va, 0, 0⟩
  | .imul vd vx va vb => ⟨0x43, vd, vx, va, vb, 0⟩
  | .idiv vd vx va vb => ⟨0x44, vd, vx, va, vb, 0⟩
  | .ieq sd va vb => ⟨0x48, sd, 0, va, vb, 0⟩
  | .igt sd va vb => ⟨0x49, sd, 0, va, vb, 0⟩
  | .ilt sd va vb => ⟨0x4A, sd, 0, va, vb, 0⟩
  | .ige sd va vb => ⟨0x4B, sd, 0, va, vb, 0⟩
  | .ile sd va vb => ⟨0x4C, sd, 0, va, vb, 0⟩
  | .dparse vd => ⟨0x50, vd, 0, 0, 0, 0⟩
  | .dformat va => ⟨0x51, 0, 0, va, 0, 0⟩
  | .dadd vd va vb => ⟨0x52, vd, 0, va, vb, 0⟩
  | .dsub vd va vb => ⟨0x53, vd, 0, va, vb, 0⟩
  | .dmul vd va vb => ⟨0x54, vd, 0, va, vb, 0⟩
  | .ddiv vd va vb => ⟨0x55, vd, 0, va, vb, 0⟩
  | .diszero sd va => ⟨0x56, sd, 0, va, 0, 0⟩
  | .dconst vd idx => ⟨0x57, vd, 0, 0, 0, idx⟩
  | .deq sd va vb => ⟨0x58, sd, 0, va, vb, 0⟩
  | .dgt sd va vb => ⟨0x59, sd, 0, va, vb, 0⟩
  | .dlt sd va vb => ⟨0x5A, sd, 0, va, vb, 0⟩
  | .dge sd va vb => ⟨0x5B, sd, 0, va, vb, 0⟩
  | .dle sd va vb => ⟨0x5C, sd, 0, va, vb, 0⟩

/-- The format of a command (R65). -/
def Instr.format : Instr → Format
  | .nop => .f0
  | .nparse _ | .dparse _ => .fd
  | .nformat _ | .dformat _ => .fa
  | .sli _ _ | .dconst _ _ => .fdi
  | .vmov _ _ | .vgets _ _ | .digcnt _ _ | .pow10 _ _ | .ncompl _ _ | .ineg _ _ => .fda
  | .diszero _ _ => .fda
  | .vgetl _ _ _ => .fdai
  | .vsetl _ _ _ => .fdbi
  | .splith _ _ _ => .fdxa
  | .nadd _ _ _ | .nsub _ _ _ | .neq _ _ _ | .ngt _ _ _ | .nlt _ _ _ | .nge _ _ _ => .fdab
  | .nle _ _ _ | .iadd _ _ _ | .isub _ _ _ | .ieq _ _ _ | .igt _ _ _ | .ilt _ _ _ => .fdab
  | .ige _ _ _ | .ile _ _ _ | .dadd _ _ _ | .dsub _ _ _ | .dmul _ _ _ | .ddiv _ _ _ => .fdab
  | .deq _ _ _ | .dgt _ _ _ | .dlt _ _ _ | .dge _ _ _ | .dle _ _ _ => .fdab
  | .rebal _ _ _ _ | .mulw _ _ _ _ | .shlw _ _ _ _ | .shrw _ _ _ _ | .nshll _ _ _ _ | .nshrl _ _ _ _ => .fdxab
  | .nshld _ _ _ _ | .nshrd _ _ _ _ | .nmull _ _ _ _ | .nmul _ _ _ _ | .ndivl _ _ _ _ | .ndiv _ _ _ _ => .fdxab
  | .imul _ _ _ _ | .idiv _ _ _ _ => .fdxab
  | .div2by1 _ _ _ _ _ => .fdxabc

/-- The one word of a command (R60). -/
def encode (i : Instr) : CmdWord := i.fields.toWord

/-- The command word whose low `nbits` bits are those of `w`, every bit above them zero. A command has one length,
32 bits (R60, R70), and is presented whole on HostIssue, so there is no byte order to apply (20_memory.md R45;
notes/assumptions/15.md). -/
def commandWord (nbits w : Nat) : CmdWord := BitVec.ofNat 32 (w % 2 ^ nbits)

/-- What the decoder reads from an instruction whose bits are `w`, numbered as spec/opcode_table.json numbers them. -/
def decodeTableWord (nbits w : Nat) : Option Instr :=
  match decode (commandWord nbits w) with
  | .ok i => some i
  | .error _ => none

end Sys2Proof
end

