-- ==== Sys2Proof/Machine/State.lean ====
section
/-! DEFINITION. The architectural state of one DAU (10_state.md R20 to R39) with the host's stream of port operations
(20_memory.md R46), the reasons a step can stop, and reset (70_reset_and_hazards.md R260). -/

namespace Sys2Proof.Machine

open Sys2Proof

/-- One Integer value: a sign flag (`true` is 1, negative) and a magnitude of `N` limbs, limb 0 the most significant
and first in the list (R20, R21). That the list has `N` limbs, each below BASE, is the limb invariant R22, stated as
`Value.wf` in Sys2Proof/Safety.lean. DESIGN CHOICE, safe: see notes/assumptions/8.md. -/
structure Value where
  sign : Bool
  mag : List Word
deriving DecidableEq, Repr

/-- Eight registers of one kind, numbered 0..7 (R8). -/
structure RegFile (α : Type) where
  r0 : α
  r1 : α
  r2 : α
  r3 : α
  r4 : α
  r5 : α
  r6 : α
  r7 : α
deriving DecidableEq, Repr

/-- The same value in every register. -/
def RegFile.const {α : Type} (x : α) : RegFile α := ⟨x, x, x, x, x, x, x, x⟩

/-- The cause of a latched fault: "a model's cause type has exactly codes 0 to 8" (60_exceptions.md R231). -/
inductive Cause where
  | none
  | illegalCommand
  | capacityOverflow
  | divisionByZero
  | subUnderflow
  | badShiftArg
  | limbRange
  | badIndex
  | wordOverflow
deriving DecidableEq, Repr

/-- The outcome of the most recent HostIssue (R27, R233). -/
inductive CompletionCode where
  | ok
  | invalidFormat
  | fault
  | refused
deriving DecidableEq, Repr

/-- STATUS by its fields (R27); its 64-bit word is `Status.toWord` in Machine/Ops.lean. DESIGN CHOICE, safe: see
notes/assumptions/7.md. -/
structure Status where
  /-- `F`, the fault latch. -/
  frozen : Bool
  /-- `CAUSE`. -/
  cause : Cause
  /-- `CC`. -/
  cc : CompletionCode
  /-- `FCMD`, the command word that raised the latched fault. -/
  fcmd : CmdWord
deriving DecidableEq, Repr

/-- A port operation of the host (R46). -/
inductive HostOp where
  | issue (cmd : CmdWord)
  | readS (i : SReg)
  | writeS (i : SReg) (w : Word)
  | readT
  | writeT (str : List Byte)
  | readStatus
  | readConfig
  | reset
deriving DecidableEq, Repr

/-- What a port operation returns to the host (R46): nothing, a 64-bit word, or the string `T[0..TLEN−1]`. -/
inductive Reply where
  | nothing
  | word (w : Word)
  | text (str : List Byte)
deriving DecidableEq, Repr

/-- The machine. `cfg` to `status` are the spec's (R20); `inbox` and `reply` are the MODEL's own: the host's stream
of port operations and what the last one returned (DESIGN CHOICE, safe: notes/assumptions/1.md). `cfg` holds the
build parameters, which no step changes (R28, R39; notes/assumptions/2.md). -/
structure State where
  cfg : Config
  /-- `V[0..7]` (R21). -/
  v : RegFile Value
  /-- `S[0..7]` (R25). -/
  s : RegFile Word
  /-- `T[0..TLEN−1]`; `TLEN` is its length (R26; notes/assumptions/4.md). -/
  text : List Byte
  /-- STATUS (R27). -/
  status : Status
  /-- Port operations presented and not yet performed, first one first. -/
  inbox : List HostOp
  /-- What the most recent port operation returned. -/
  reply : Reply
deriving DecidableEq, Repr

/-- Why the MODEL stops. No command stops the model: every fatal fault of the DAU is a next state (R236). -/
inductive Fault where
  /-- Raised by `step` when the stream holds a HostWriteT of more than TMAX bytes, which "cannot be presented" (R46).
  Safe: the model stops where no hardware run exists. See notes/assumptions/9.md. -/
  | textCannotBePresented
deriving DecidableEq, Repr

/-- Why the MODEL gives no meaning. -/
inductive Refusal where
  /-- Raised by an arm of `exec` for an instruction that has no meaning yet. Safe. No arm raises it. -/
  | notModelled (mnemonic : String)
deriving DecidableEq, Repr

/-- Positive zero: flag 0 and `N` zero limbs (R36). -/
def Value.zero (c : Config) : Value := { sign := false, mag := List.replicate c.N 0#64 }

/-- STATUS after reset is 0 (R35). -/
def Status.clear : Status := { frozen := false, cause := .none, cc := .ok, fcmd := 0#32 }

/-- The reset state of a build with parameters `c` (R260, R35 to R38), with nothing presented by the host. -/
def State.resetWith (c : Config) : State :=
  { cfg := c, v := .const (Value.zero c), s := .const 0#64, text := [], status := .clear, inbox := [],
    reply := .nothing }

/-- The machine right after reset (R260). Its build parameters are the spec's reference configuration: DESIGN CHOICE,
see notes/assumptions/2.md. -/
def State.reset : State := State.resetWith Config.reference

end Sys2Proof.Machine
end

