-- ==== Sys2Proof/Machine/Numbers.lean ====
section
/-! DEFINITION. The numbers a register holds: `val`, `nat`, `sval` (00_scope.md R10, R11) and `ncmp`
(42_natural_codec_compare.md R113). Numbers are mathematical integers (R9). -/

namespace Sys2Proof.Machine

open Sys2Proof

/-- `val(m) = sum over i of m[i]·BASE^(N−1−i)` (R10, R42). -/
def val : List Word → Nat
  | [] => 0
  | l :: ls => l.toNat * BASE ^ ls.length + val ls

/-- `nat(v)`: the `n` limbs of `v`, most significant first (R10); for `v < BASE^n` the unique limb sequence of value
`v`. -/
def nat : Nat → Nat → List Word
  | 0, _ => []
  | n + 1, v => BitVec.ofNat 64 (v / BASE ^ n % BASE) :: nat n v

/-- `sval(s, m)`: `−val(m)` when the flag is 1 and the magnitude is not zero, else `val(m)` (R11). -/
def sval (x : Value) : Int := if x.sign = true ∧ val x.mag ≠ 0 then -(val x.mag : Int) else (val x.mag : Int)

/-- Magnitude comparison: "lexicographic limb-by-limb comparison starting from the most significant limb; first
differing limb decides the result" (R113). Magnitudes have the same number of limbs (R22); what it answers where one
list ends before the other is reached in no run (notes/assumptions/11.md). -/
def ncmp : List Word → List Word → Ordering
  | a :: as, b :: bs => if a.toNat < b.toNat then .lt else if b.toNat < a.toNat then .gt else ncmp as bs
  | _, _ => .eq

end Sys2Proof.Machine
end

