-- ==== Sys2Proof/Machine/Ops.lean ====
section
/-! DEFINITION. The named operations on the state: register and text access, STATUS and CONFIG as words, and the one
shared way a command ends (60_exceptions.md R230 to R239). -/

namespace Sys2Proof.Machine

open Sys2Proof

/-- Register `i` of a file (00_scope.md R12). -/
def RegFile.get {α : Type} (f : RegFile α) (i : BitVec 3) : α :=
  match i.toNat with
  | 0 => f.r0
  | 1 => f.r1
  | 2 => f.r2
  | 3 => f.r3
  | 4 => f.r4
  | 5 => f.r5
  | 6 => f.r6
  | _ => f.r7

/-- The file with register `i` replaced. No register is hardwired and none has an alias (R21, R25). -/
def RegFile.set {α : Type} (f : RegFile α) (i : BitVec 3) (x : α) : RegFile α :=
  match i.toNat with
  | 0 => { f with r0 := x }
  | 1 => { f with r1 := x }
  | 2 => { f with r2 := x }
  | 3 => { f with r3 := x }
  | 4 => { f with r4 := x }
  | 5 => { f with r5 := x }
  | 6 => { f with r6 := x }
  | _ => { f with r7 := x }

/-- Read of value register `i` (R12). -/
def State.getV (s : State) (i : VReg) : Value := s.v.get i

/-- Write of value register `i` (R12). -/
def State.setV (s : State) (i : VReg) (x : Value) : State := { s with v := s.v.set i x }

/-- Read of scalar register `i` (R12). -/
def State.getS (s : State) (i : SReg) : Word := s.s.get i

/-- Write of scalar register `i` (R12). -/
def State.setS (s : State) (i : SReg) (w : Word) : State := { s with s := s.s.set i w }

/-- `S[i] <- n` for a number `n` below `2^64` (R12). -/
def State.putS (s : State) (i : SReg) (n : Nat) : State := s.setS i (BitVec.ofNat 64 n)

/-- `T <- str`: TLEN becomes its length (R12, R26). -/
def State.setText (s : State) (str : List Byte) : State := { s with text := str }

/-- `TLEN` (R26). -/
def State.tlen (s : State) : Nat := s.text.length

/-- The cause codes of R231, in STATUS bits 4:1. -/
def Cause.code : Cause → BitVec 4
  | .none => 0
  | .illegalCommand => 1
  | .capacityOverflow => 2
  | .divisionByZero => 3
  | .subUnderflow => 4
  | .badShiftArg => 5
  | .limbRange => 6
  | .badIndex => 7
  | .wordOverflow => 8

/-- The completion codes of R233, in STATUS bits 6:5. -/
def CompletionCode.code : CompletionCode → BitVec 2
  | .ok => 0
  | .invalidFormat => 1
  | .fault => 2
  | .refused => 3

/-- STATUS as the 64-bit word the host reads: FCMD 63:32, zeros 31:7, CC 6:5, CAUSE 4:1, F 0 (R27). -/
def Status.toWord (st : Status) : Word :=
  st.fcmd ++ 0#25 ++ st.cc.code ++ st.cause.code ++ BitVec.ofBool st.frozen

/-- CONFIG: N in 7:0, K in 15:8, DC0 in 23:16, zeros above (R28). -/
def configWord (c : Config) : Word :=
  0#40 ++ BitVec.ofNat 8 c.DC0 ++ BitVec.ofNat 8 c.K ++ BitVec.ofNat 8 c.N

/-- `STATUS.F` presented as the level output `fault` (R242). -/
def faultOutput (s : State) : Bool := s.status.frozen

/-- `STATUS.CC <- cc`, nothing else (R234, R235, R238). -/
def State.setCC (s : State) (cc : CompletionCode) : State := { s with status := { s.status with cc := cc } }

/-- `fault(cause)`, the trap entry (R236): F, CAUSE, FCMD and CC are written all at once and nothing else changes. -/
def State.latchFault (s : State) (cmd : CmdWord) (c : Cause) : State :=
  { s with status := { frozen := true, cause := c, cc := .fault, fcmd := cmd } }

/-- Reset, the only way out of the frozen state (70_reset_and_hazards.md R260 to R262): every register at its reset
value. The build parameters are fixed (R39), and what the host has presented after HostReset stays presented
(notes/assumptions/1.md). -/
def State.hostReset (s : State) : State := { State.resetWith s.cfg with inbox := s.inbox }

/-- The three ways an executing command ends (00_scope.md R13): done, with the state its destinations make; the
recoverable completion INVALID_FORMAT; a fault. A command that does not end `done` has written no destination. -/
inductive Completion where
  | done (s : State)
  | invalidFormat
  | fault (c : Cause)
deriving DecidableEq, Repr

/-- How the outcome of command `cmd`, started in `s`, is recorded (R234, R235, R236). -/
def Completion.finish (s : State) (cmd : CmdWord) : Completion → State
  | .done s' => s'.setCC .ok
  | .invalidFormat => s.setCC .invalidFormat
  | .fault c => s.latchFault cmd c

/-- The common behaviour of every command (40_host_and_move.md R80), in the order of R239: a frozen unit refuses it
(R238); two destinations naming one register make it illegal (R68); otherwise it runs and ends as its rule says. The
command word is `encode i`, the one word that decodes to `i` (notes/assumptions/5.md, 6.md). -/
def runCommand (i : Instr) (s : State) (c : Completion) : Host.Outcome State Fault Refusal :=
  .next (if s.status.frozen then s.setCC .refused
    else if i.wf then c.finish s (encode i)
    else s.latchFault (encode i) .illegalCommand)

end Sys2Proof.Machine
end

