-- ==== Sys2Proof/Machine/Operands.lean ====
section
/-! DEFINITION. The operand forms: magnitudes and words, limb operands, immediates, and the read-only tables POW10 and
CONST (10_state.md R32, R33). -/

namespace Sys2Proof.Machine

open Sys2Proof

/-- The magnitude a Natural command reads: the sign flag is ignored (42_natural_codec_compare.md R110 (a)). -/
def State.mag (s : State) (i : VReg) : List Word := (s.getV i).mag

/-- The number a value register's magnitude holds, `val(V[i].m)`. -/
def State.magVal (s : State) (i : VReg) : Nat := val (s.mag i)

/-- The number a scalar register holds; a *word* operand is any value (41_limb_primitives.md R90 (a)). -/
def State.word (s : State) (i : SReg) : Nat := (s.getS i).toNat

/-- What a Natural command writes: flag 0 and the limbs of a number (R110 (b)). -/
def natural (c : Config) (v : Nat) : Value := { sign := false, mag := nat c.N v }

/-- `V[rd] <- (0, nat(v))`. -/
def State.putV (s : State) (i : VReg) (v : Nat) : State := s.setV i (natural s.cfg v)

/-- `POW10[k] = 10^k` (10_state.md R32); the table has the entries 0..18 only, and its readers test the index. -/
def pow10Rom (k : Nat) : Nat := 10 ^ k

/-- Whether `CONST[idx]` exists (10_state.md R33, 48_decimal_codec_linear.md R210). -/
def constExists (c : Config) (idx : Nat) : Bool := decide (idx ≤ 3) && (idx != 3 || c.K != 0)

/-- `CONST[idx]`: Decimal zero, one, two and one-half, flag 0 (R33). -/
def constRom (c : Config) (idx : Nat) : Value :=
  match idx with
  | 0 => natural c 0
  | 1 => natural c c.SC
  | 2 => natural c (2 * c.SC)
  | _ => natural c (5 * 10 ^ 17 * BASE ^ (c.K - 1))

end Sys2Proof.Machine
end

