-- ==== Sys2Proof/Machine/Flags.lean ====
section
/-! DEFINITION. There is no flags register (10_state.md R29). The flag-like results are the sign flag of a value
register and the truth words of comparisons: their rules, and the signed comparison (47_integer.md R170, R177). -/

namespace Sys2Proof.Machine

open Sys2Proof

/-- `bool(c)`: the word 1 when the condition holds, else the word 0 (00_scope.md R12, R110 (d)). -/
def truth (b : Bool) : Word := if b then 1#64 else 0#64

/-- The effective sign: `neg(s, m) = (s = 1 and val(m) != 0)` (47_integer.md R170 (c)). -/
def neg (x : Value) : Bool := x.sign && val x.mag != 0

/-- The signed comparison of two Integers (R177). -/
def icmp (x y : Value) : Ordering :=
  match neg x, neg y with
  | false, false => ncmp x.mag y.mag
  | true, true => ncmp y.mag x.mag
  | true, false => .lt
  | false, true => .gt

/-- The flag of a product: the XOR of the operand flags (R175, 49_decimal_mul_div.md R215). -/
def productSign (x y : Value) : Bool := x.sign ^^ y.sign

/-- The flag of a quotient: 0 for a zero dividend, else the XOR of the operand flags (R176, R217). -/
def quotientSign (x y : Value) : Bool := if val x.mag = 0 then false else x.sign ^^ y.sign

end Sys2Proof.Machine
end

