-- ==== Sys2Proof/Machine/Arithmetic.lean ====
section
/-! DEFINITION. The arithmetic of the Natural, Integer and Decimal layers as functions on values, by the result
contracts of the rules (00_scope.md R15 (a)). A fault is the cause the rule names. Each layer is built on the one
before (R2). -/

namespace Sys2Proof.Machine

open Sys2Proof

/-- A result or a fault cause, as a command's completion: the destinations are written only on a result (R236). -/
def Completion.writing {α : Type} (r : Except Cause α) (write : α → State) : Completion :=
  match r with
  | .ok x => .done (write x)
  | .error c => .fault c

/-- Natural `add` (43_natural_add_sub.md R125). -/
def addMag (c : Config) (a b : List Word) : Except Cause (List Word) :=
  if c.CAP ≤ val a + val b then .error .capacityOverflow else .ok (nat c.N (val a + val b))

/-- Natural `subtract` (R128). -/
def subMag (c : Config) (a b : List Word) : Except Cause (List Word) :=
  if val a < val b then .error .subUnderflow else .ok (nat c.N (val a - val b))

/-- The nines' complement, limb by limb: no borrow and no carry (R127). -/
def complementMag (a : List Word) : List Word := a.map (fun l => BitVec.ofNat 64 (BASE - 1 - l.toNat))

/-- Natural `multiply`: the low and the high `N` limbs of the `2N`-limb product (45_natural_multiply.md R147). -/
def mulMag (c : Config) (a b : List Word) : List Word × List Word :=
  (nat c.N (val a * val b % c.CAP), nat c.N (val a * val b / c.CAP))

/-- Natural `divide`: quotient and remainder (46_natural_divide.md R157). -/
def divMag (c : Config) (a b : List Word) : Except Cause (List Word × List Word) :=
  if val b = 0 then .error .divisionByZero else .ok (nat c.N (val a / val b), nat c.N (val a % val b))

/-- Integer `negate`: the flag is toggled, zero not special-cased (47_integer.md R173). -/
def negate (x : Value) : Value := { x with sign := !x.sign }

/-- Integer `add` (R171, R172): the dispatch is on the stored flags; a magnitude tie takes the first operand's flag. -/
def addInt (c : Config) (x y : Value) : Except Cause Value :=
  if x.sign = y.sign then (addMag c x.mag y.mag).map (fun m => { sign := x.sign, mag := m })
  else if ncmp x.mag y.mag = .lt then (subMag c y.mag x.mag).map (fun m => { sign := y.sign, mag := m })
  else (subMag c x.mag y.mag).map (fun m => { sign := x.sign, mag := m })

/-- Integer `subtract`: `add(a, negate(b))` (R174). -/
def subInt (c : Config) (x y : Value) : Except Cause Value := addInt c x (negate y)

/-- Integer `multiply`: the product and the overflow Natural with flag 0 (R175). -/
def mulInt (c : Config) (x y : Value) : Value × Value :=
  let p := mulMag c x.mag y.mag
  ({ sign := productSign x y, mag := p.1 }, { sign := false, mag := p.2 })

/-- Integer `divide`: the quotient, and the remainder as a magnitude with flag 0 (R176). -/
def divInt (c : Config) (x y : Value) : Except Cause (Value × Value) :=
  (divMag c x.mag y.mag).map
    (fun p => ({ sign := quotientSign x y, mag := p.1 }, { sign := false, mag := p.2 }))

/-- Decimal `multiply`: the raw product truncated by F digits; only the truncated product is tested for overflow
(49_decimal_mul_div.md R215). -/
def mulDec (c : Config) (x y : Value) : Except Cause Value :=
  let q := val x.mag * val y.mag / c.SC
  if c.CAP ≤ q then .error .capacityOverflow
  else .ok { sign := productSign x y, mag := nat c.N q }

/-- The quotient of `d` by `b`, rounded half up on the exact remainder: `Q + 1` when `2·R >= B` (R217). -/
def roundedQuotient (d b : Nat) : Nat := if b ≤ 2 * (d % b) then d / b + 1 else d / b

/-- Decimal `divide` (R217): DIVISION_BY_ZERO is tested before CAPACITY_OVERFLOW. -/
def divDec (c : Config) (x y : Value) : Except Cause Value :=
  if val y.mag = 0 then .error .divisionByZero
  else if c.CAP ≤ roundedQuotient (val x.mag * c.SC) (val y.mag) then .error .capacityOverflow
  else .ok { sign := quotientSign x y, mag := nat c.N (roundedQuotient (val x.mag * c.SC) (val y.mag)) }

end Sys2Proof.Machine
end

