-- ==== Sys2Proof/Machine/Text.lean ====
section
/-! DEFINITION. The digit-string codec: characters (20_memory.md R44), Natural digits (42_natural_codec_compare.md
R111, R112), the Decimal grammar and its text (48_decimal_codec_linear.md R191 to R193). -/

namespace Sys2Proof.Machine

open Sys2Proof

/-- `'-'` (R44). -/
def minusChar : Byte := 0x2D#8

/-- `'.'` (R44). -/
def pointChar : Byte := 0x2E#8

/-- `'0'` (R44). -/
def zeroChar : Byte := 0x30#8

/-- The digit characters are the bytes 0x30 to 0x39; every other byte is a non-digit (R44; the spec marks the codes
as general knowledge: notes/assumptions/13.md). -/
def isDigit (b : Byte) : Bool := decide (0x30 ≤ b.toNat ∧ b.toNat ≤ 0x39)

/-- The number of a digit character. -/
def digitValue (b : Byte) : Nat := b.toNat - 0x30

/-- The character of a digit 0..9. -/
def digitChar (d : Nat) : Byte := BitVec.ofNat 8 (0x30 + d)

/-- The number a digit string spells, most significant digit first (R43). -/
def digitsValue : List Byte → Nat
  | [] => 0
  | b :: bs => digitValue b * 10 ^ bs.length + digitsValue bs

/-- `n` chunks of 18 characters, "producing one limb per chunk" (R111): chunk `i` becomes limb `i` (R43). -/
def parseLimbs : Nat → List Byte → List Word
  | 0, _ => []
  | n + 1, t => BitVec.ofNat 64 (digitsValue (t.take LD)) :: parseLimbs n (t.drop LD)

/-- Natural parse: `none` when the length is not ND or a character is not a digit (R111). -/
def parseNatural (c : Config) (t : List Byte) : Option (List Word) :=
  if t.length = c.ND ∧ t.all isDigit = true then some (parseLimbs c.N t) else none

/-- The `n` decimal digit characters of a number, most significant first. -/
def digitString : Nat → Nat → List Byte
  | 0, _ => []
  | n + 1, v => digitChar (v / 10 ^ n % 10) :: digitString n v

/-- `digits(m)`: each limb "rendered as a zero-padded 18-digit chunk …, concatenated in limb order" (R112, R10). -/
def digits (m : List Word) : List Byte := m.flatMap (fun l => digitString LD l.toNat)

/-- The walk of R191 over the text: `(neg, ip, fp)` for a valid Decimal string, else `none`. -/
def parseDecimal (c : Config) (t : List Byte) : Option (Bool × List Byte × List Byte) :=
  let isNeg := t.head? == some minusChar
  let body := if isNeg then t.tail else t
  let ip := body.takeWhile isDigit
  if ip.length < 1 ∨ c.I < ip.length then none
  else
    match body.dropWhile isDigit with
    | [] => some (isNeg, ip, [])
    | ch :: rest =>
      if ch = pointChar then
        let fp := rest.takeWhile isDigit
        if c.F < fp.length then none
        else if rest.dropWhile isDigit = [] then some (isNeg, ip, fp)
        else none
      else none

/-- The padded fixed-length digit string that DPARSE hands to Natural parse (R192). -/
def padDecimal (c : Config) (ip fp : List Byte) : List Byte :=
  List.replicate (c.I - ip.length) zeroChar ++ ip ++ fp ++ List.replicate (c.F - fp.length) zeroChar

/-- A digit string without its leading `'0'` characters (R193). -/
def stripLeading (t : List Byte) : List Byte := t.dropWhile (· == zeroChar)

/-- A digit string without its trailing `'0'` characters (R193). -/
def stripTrailing (t : List Byte) : List Byte := (t.reverse.dropWhile (· == zeroChar)).reverse

/-- The text of a Decimal (R193). -/
def formatDecimal (c : Config) (x : Value) : List Byte :=
  if val x.mag = 0 then [zeroChar]
  else
    let d := digits x.mag
    let ip := stripLeading (d.take c.I)
    let fp := stripTrailing (d.drop c.I)
    (if x.sign then [minusChar] else []) ++ (if ip = [] then [zeroChar] else ip) ++
      (if fp = [] then [] else pointChar :: fp)

end Sys2Proof.Machine
end

