-- ==== Sys2Proof/Machine/Decimal.lean ====
section
/-! DEFINITION. The Decimal layer: DPARSE, DFORMAT, DADD, DSUB, DISZERO, DCONST, DEQ, DGT, DLT, DGE, DLE
(48_decimal_codec_linear.md R190 to R210), DMUL, DDIV (49_decimal_mul_div.md R215 to R221). -/

namespace Sys2Proof.Machine

open Sys2Proof

/-- DPARSE: INVALID_FORMAT unless the whole text matches the grammar; the flag is set exactly when the text starts
with `'-'` (R191, R192). -/
def execDparse (vd : VReg) (s : State) : Host.Outcome State Fault Refusal :=
  runCommand (.dparse vd) s
    (match parseDecimal s.cfg s.text with
     | none => .invalidFormat
     | some (isNeg, ip, fp) =>
       .done (s.setV vd { sign := isNeg, mag := parseLimbs s.cfg.N (padDecimal s.cfg ip fp) }))

/-- DFORMAT (R193). -/
def execDformat (va : VReg) (s : State) : Host.Outcome State Fault Refusal :=
  runCommand (.dformat va) s (.done (s.setText (formatDecimal s.cfg (s.getV va))))

/-- DADD "is IADD … in every respect" (R194). -/
def execDadd (vd va vb : VReg) (s : State) : Host.Outcome State Fault Refusal :=
  runCommand (.dadd vd va vb) s (.writing (addInt s.cfg (s.getV va) (s.getV vb)) (fun x => s.setV vd x))

/-- DSUB "is ISUB … in every respect" (R195). -/
def execDsub (vd va vb : VReg) (s : State) : Host.Outcome State Fault Refusal :=
  runCommand (.dsub vd va vb) s (.writing (subInt s.cfg (s.getV va) (s.getV vb)) (fun x => s.setV vd x))

/-- DMUL (R215). -/
def execDmul (vd va vb : VReg) (s : State) : Host.Outcome State Fault Refusal :=
  runCommand (.dmul vd va vb) s (.writing (mulDec s.cfg (s.getV va) (s.getV vb)) (fun x => s.setV vd x))

/-- DDIV (R217). -/
def execDdiv (vd va vb : VReg) (s : State) : Host.Outcome State Fault Refusal :=
  runCommand (.ddiv vd va vb) s (.writing (divDec s.cfg (s.getV va) (s.getV vb)) (fun x => s.setV vd x))

/-- DISZERO: all limbs zero, whatever the flag (R196). -/
def execDiszero (sd : SReg) (va : VReg) (s : State) : Host.Outcome State Fault Refusal :=
  runCommand (.diszero sd va) s (.done (s.setS sd (truth (s.magVal va == 0))))

/-- DCONST: BAD_INDEX for an index above 3, and for one-half when `K = 0` (R210). -/
def execDconst (vd : VReg) (idx : Imm) (s : State) : Host.Outcome State Fault Refusal :=
  runCommand (.dconst vd idx) s
    (if constExists s.cfg idx.toNat then .done (s.setV vd (constRom s.cfg idx.toNat)) else .fault .badIndex)

/-- DEQ is IEQ (R197). -/
def execDeq (sd : SReg) (va vb : VReg) (s : State) : Host.Outcome State Fault Refusal :=
  runCommand (.deq sd va vb) s (.done (s.setS sd (truth (icmp (s.getV va) (s.getV vb) == .eq))))

/-- DGT is IGT (R198). -/
def execDgt (sd : SReg) (va vb : VReg) (s : State) : Host.Outcome State Fault Refusal :=
  runCommand (.dgt sd va vb) s (.done (s.setS sd (truth (icmp (s.getV va) (s.getV vb) == .gt))))

/-- DLT is ILT (R199). -/
def execDlt (sd : SReg) (va vb : VReg) (s : State) : Host.Outcome State Fault Refusal :=
  runCommand (.dlt sd va vb) s (.done (s.setS sd (truth (icmp (s.getV va) (s.getV vb) == .lt))))

/-- DGE is IGE (R200). -/
def execDge (sd : SReg) (va vb : VReg) (s : State) : Host.Outcome State Fault Refusal :=
  runCommand (.dge sd va vb) s (.done (s.setS sd (truth (icmp (s.getV va) (s.getV vb) != .lt))))

/-- DLE is ILE (R201). -/
def execDle (sd : SReg) (va vb : VReg) (s : State) : Host.Outcome State Fault Refusal :=
  runCommand (.dle sd va vb) s (.done (s.setS sd (truth (icmp (s.getV va) (s.getV vb) != .gt))))

end Sys2Proof.Machine
end

