-- ==== Sys2Proof/Machine/Integer.lean ====
section
/-! DEFINITION. The Integer layer: IADD, ISUB, INEG, IMUL, IDIV, IEQ, IGT, ILT, IGE, ILE (47_integer.md R170 to
R183). -/

namespace Sys2Proof.Machine

open Sys2Proof

/-- IADD (R171, R172). -/
def execIadd (vd va vb : VReg) (s : State) : Host.Outcome State Fault Refusal :=
  runCommand (.iadd vd va vb) s (.writing (addInt s.cfg (s.getV va) (s.getV vb)) (fun x => s.setV vd x))

/-- ISUB (R174). -/
def execIsub (vd va vb : VReg) (s : State) : Host.Outcome State Fault Refusal :=
  runCommand (.isub vd va vb) s (.writing (subInt s.cfg (s.getV va) (s.getV vb)) (fun x => s.setV vd x))

/-- INEG (R173). -/
def execIneg (vd va : VReg) (s : State) : Host.Outcome State Fault Refusal :=
  runCommand (.ineg vd va) s (.done (s.setV vd (negate (s.getV va))))

/-- IMUL: the product to `vd`, the overflow Natural to `vx` (R175). -/
def execImul (vd vx va vb : VReg) (s : State) : Host.Outcome State Fault Refusal :=
  runCommand (.imul vd vx va vb) s
    (.done ((s.setV vd (mulInt s.cfg (s.getV va) (s.getV vb)).1).setV vx (mulInt s.cfg (s.getV va) (s.getV vb)).2))

/-- IDIV: the quotient to `vd`, the remainder to `vx` (R176). -/
def execIdiv (vd vx va vb : VReg) (s : State) : Host.Outcome State Fault Refusal :=
  runCommand (.idiv vd vx va vb) s
    (.writing (divInt s.cfg (s.getV va) (s.getV vb)) (fun p => (s.setV vd p.1).setV vx p.2))

/-- IEQ (R178). -/
def execIeq (sd : SReg) (va vb : VReg) (s : State) : Host.Outcome State Fault Refusal :=
  runCommand (.ieq sd va vb) s (.done (s.setS sd (truth (icmp (s.getV va) (s.getV vb) == .eq))))

/-- IGT (R179). -/
def execIgt (sd : SReg) (va vb : VReg) (s : State) : Host.Outcome State Fault Refusal :=
  runCommand (.igt sd va vb) s (.done (s.setS sd (truth (icmp (s.getV va) (s.getV vb) == .gt))))

/-- ILT (R180). -/
def execIlt (sd : SReg) (va vb : VReg) (s : State) : Host.Outcome State Fault Refusal :=
  runCommand (.ilt sd va vb) s (.done (s.setS sd (truth (icmp (s.getV va) (s.getV vb) == .lt))))

/-- IGE (R181). -/
def execIge (sd : SReg) (va vb : VReg) (s : State) : Host.Outcome State Fault Refusal :=
  runCommand (.ige sd va vb) s (.done (s.setS sd (truth (icmp (s.getV va) (s.getV vb) != .lt))))

/-- ILE (R182). -/
def execIle (sd : SReg) (va vb : VReg) (s : State) : Host.Outcome State Fault Refusal :=
  runCommand (.ile sd va vb) s (.done (s.setS sd (truth (icmp (s.getV va) (s.getV vb) != .gt))))

end Sys2Proof.Machine
end

