-- ==== Sys2Proof/Machine/Limbs.lean ====
section
/-! DEFINITION. The limb primitives as functions on numbers, by their result contracts (41_limb_primitives.md): "the
building blocks the higher layers' rules call by name as functions". -/

namespace Sys2Proof.Machine

open Sys2Proof

/-- `rebalance(low, high)`: `(low', high')` (R91). -/
def rebalance (low high : Nat) : Nat × Nat := (low % BASE, high + low / BASE)

/-- `splitHalf(w)`: the high and the low half (R92). -/
def splitHalf (w : Nat) : Nat × Nat := (w / HB, w % HB)

/-- `multiplyWord(a, b)`: the `(low, overflow)` pair of the product (R93). -/
def multiplyWord (a b : Nat) : Nat × Nat := (a * b % BASE, a * b / BASE)

/-- The least `d' >= d` with `w < 10^d'`, looked for in `fuel` further steps. -/
def leastDigits : Nat → Nat → Nat → Nat
  | 0, d, _ => d
  | fuel + 1, d, w => if w < 10 ^ d then d else leastDigits fuel (d + 1) w

/-- `digitCount(w)`: DC0 for zero (R96), else the least `d >= 1` with `w < 10^d`, which is at most 20 for a 64-bit
word (R95). -/
def digitCount (c : Config) (w : Nat) : Nat := if w = 0 then c.DC0 else leastDigits 19 1 w

/-- `shiftLeftInLimb(w, k)`: the kept part and the digits shifted out at the top, `0 <= k <= 18` (R98). -/
def shiftLeftInLimb (w k : Nat) : Nat × Nat := (w % 10 ^ (LD - k) * 10 ^ k, w / 10 ^ (LD - k))

/-- `shiftRightInLimb(w, k)`: the kept part and the digits shifted out at the bottom, `0 <= k <= 18` (R99). -/
def shiftRightInLimb (w k : Nat) : Nat × Nat := (w / 10 ^ k, w % 10 ^ k)

/-- `divTwoByOne(hi, lo, d)`: quotient and remainder of the 2-limb value by one limb, for `hi < d` (R100). -/
def divTwoByOne (hi lo d : Nat) : Nat × Nat := ((hi * BASE + lo) / d, (hi * BASE + lo) % d)

end Sys2Proof.Machine
end

