-- ==== Sys2Proof/Machine/LimbPrimitives.lean ====
section
/-! DEFINITION. Limb primitives: REBAL, SPLITH, MULW, DIGCNT, POW10, SHLW, SHRW, DIV2BY1 (41_limb_primitives.md R90 to
R102). Checks are made in the order each rule lists them (R90 (b)). -/

namespace Sys2Proof.Machine

open Sys2Proof

/-- Two scalar destinations; all sources were read before (00_scope.md R14). -/
def State.putS2 (s : State) (sd sx : SReg) (p : Nat × Nat) : State := (s.putS sd p.1).putS sx p.2

/-- REBAL (R91). -/
def execRebal (sd sx sa sb : SReg) (s : State) : Host.Outcome State Fault Refusal :=
  runCommand (.rebal sd sx sa sb) s
    (if 2 ^ 64 ≤ (rebalance (s.word sa) (s.word sb)).2 then .fault .wordOverflow
     else .done (s.putS2 sd sx (rebalance (s.word sa) (s.word sb))))

/-- SPLITH (R92). -/
def execSplith (sd sx sa : SReg) (s : State) : Host.Outcome State Fault Refusal :=
  runCommand (.splith sd sx sa) s
    (if BASE ≤ s.word sa then .fault .limbRange
     else .done (s.putS2 sd sx (splitHalf (s.word sa))))

/-- MULW: low to `rd`, overflow to `rx` (R93). -/
def execMulw (sd sx sa sb : SReg) (s : State) : Host.Outcome State Fault Refusal :=
  runCommand (.mulw sd sx sa sb) s
    (if BASE ≤ s.word sa ∨ BASE ≤ s.word sb then .fault .limbRange
     else .done (s.putS2 sd sx (multiplyWord (s.word sa) (s.word sb))))

/-- DIGCNT, any word (R95, R96). -/
def execDigcnt (sd sa : SReg) (s : State) : Host.Outcome State Fault Refusal :=
  runCommand (.digcnt sd sa) s (.done (s.putS sd (digitCount s.cfg (s.word sa))))

/-- POW10: BAD_SHIFT_ARG when `k > 18` (R97). -/
def execPow10 (sd sa : SReg) (s : State) : Host.Outcome State Fault Refusal :=
  runCommand (.pow10 sd sa) s
    (if 18 < s.word sa then .fault .badShiftArg
     else .done (s.putS sd (pow10Rom (s.word sa))))

/-- SHLW: LIMB_RANGE is tested before BAD_SHIFT_ARG (R98). -/
def execShlw (sd sx sa sb : SReg) (s : State) : Host.Outcome State Fault Refusal :=
  runCommand (.shlw sd sx sa sb) s
    (if BASE ≤ s.word sa then .fault .limbRange
     else if 18 < s.word sb then .fault .badShiftArg
     else .done (s.putS2 sd sx (shiftLeftInLimb (s.word sa) (s.word sb))))

/-- SHRW: LIMB_RANGE is tested before BAD_SHIFT_ARG (R99). -/
def execShrw (sd sx sa sb : SReg) (s : State) : Host.Outcome State Fault Refusal :=
  runCommand (.shrw sd sx sa sb) s
    (if BASE ≤ s.word sa then .fault .limbRange
     else if 18 < s.word sb then .fault .badShiftArg
     else .done (s.putS2 sd sx (shiftRightInLimb (s.word sa) (s.word sb))))

/-- DIV2BY1: LIMB_RANGE, then a zero divisor, then `hi >= d` (R100, R239). -/
def execDiv2by1 (sd sx sa sb sc : SReg) (s : State) : Host.Outcome State Fault Refusal :=
  runCommand (.div2by1 sd sx sa sb sc) s
    (if BASE ≤ s.word sb ∨ BASE ≤ s.word sc then .fault .limbRange
     else if s.word sc = 0 then .fault .divisionByZero
     else if s.word sc ≤ s.word sa then .fault .divisionByZero
     else .done (s.putS2 sd sx (divTwoByOne (s.word sa) (s.word sb) (s.word sc))))

end Sys2Proof.Machine
end

