-- ==== Sys2Proof/Machine/Move.lean ====
section
/-! DEFINITION. Move and system commands: NOP, SLI, VMOV, VGETL, VSETL, VGETS (40_host_and_move.md R81 to R86). -/

namespace Sys2Proof.Machine

open Sys2Proof

/-- NOP (R81). -/
def execNop (s : State) : Host.Outcome State Fault Refusal := runCommand .nop s (.done s)

/-- SLI: `S[rd] <- zext_64(imm)` (R82). -/
def execSli (sd : SReg) (imm : Imm) (s : State) : Host.Outcome State Fault Refusal :=
  runCommand (.sli sd imm) s (.done (s.setS sd (imm.setWidth 64)))

/-- VMOV: flag and all limbs are copied (R83). -/
def execVmov (vd va : VReg) (s : State) : Host.Outcome State Fault Refusal :=
  runCommand (.vmov vd va) s (.done (s.setV vd (s.getV va)))

/-- VGETL: `S[rd] <- V[ra].m[imm]`, BAD_INDEX when `imm >= N` (R84). -/
def execVgetl (sd : SReg) (va : VReg) (idx : Imm) (s : State) : Host.Outcome State Fault Refusal :=
  runCommand (.vgetl sd va idx) s
    (if s.cfg.N ≤ idx.toNat then .fault .badIndex
     else .done (s.setS sd ((s.mag va).getD idx.toNat 0#64)))

/-- VSETL: `V[rd].m[imm] <- S[rb]`, the other limbs and the flag kept; BAD_INDEX is tested before LIMB_RANGE
(R85, R239). -/
def execVsetl (vd : VReg) (idx : Imm) (sb : SReg) (s : State) : Host.Outcome State Fault Refusal :=
  runCommand (.vsetl vd idx sb) s
    (if s.cfg.N ≤ idx.toNat then .fault .badIndex
     else if BASE ≤ s.word sb then .fault .limbRange
     else .done (s.setV vd { s.getV vd with mag := (s.mag vd).set idx.toNat (s.getS sb) }))

/-- VGETS: the stored flag, not the sign of the value (R86). -/
def execVgets (sd : SReg) (va : VReg) (s : State) : Host.Outcome State Fault Refusal :=
  runCommand (.vgets sd va) s (.done (s.setS sd (truth (s.getV va).sign)))

end Sys2Proof.Machine
end

