-- ==== Sys2Proof/Machine/NaturalArith.lean ====
section
/-! DEFINITION. Natural arithmetic: NADD, NCOMPL, NSUB (43_natural_add_sub.md), the four shifts (44_natural_shift.md),
NMULL, NMUL (45_natural_multiply.md), NDIVL, NDIV (46_natural_divide.md). Sign flags are ignored on read and 0 on write
(R110). -/

namespace Sys2Proof.Machine

open Sys2Proof

/-- NADD (R125). -/
def execNadd (vd va vb : VReg) (s : State) : Host.Outcome State Fault Refusal :=
  runCommand (.nadd vd va vb) s
    (.writing (addMag s.cfg (s.mag va) (s.mag vb)) (fun m => s.setV vd { sign := false, mag := m }))

/-- NCOMPL (R127). -/
def execNcompl (vd va : VReg) (s : State) : Host.Outcome State Fault Refusal :=
  runCommand (.ncompl vd va) s (.done (s.setV vd { sign := false, mag := complementMag (s.mag va) }))

/-- NSUB (R128). -/
def execNsub (vd va vb : VReg) (s : State) : Host.Outcome State Fault Refusal :=
  runCommand (.nsub vd va vb) s
    (.writing (subMag s.cfg (s.mag va) (s.mag vb)) (fun m => s.setV vd { sign := false, mag := m }))

/-- A left shift by the factor `p`: the kept part to `vd`, the part shifted out, as a plain number, to `vx`
(R135 (c), R136, R138). -/
def shiftLeftMag (vd vx va : VReg) (p : Nat) (s : State) : State :=
  (s.putV vd (s.magVal va * p % s.cfg.CAP)).putV vx (s.magVal va * p / s.cfg.CAP)

/-- A right shift by the factor `p`: the kept part to `vd`, the loss, as a plain number, to `vx`
(R135 (c), R137, R139). -/
def shiftRightMag (vd vx va : VReg) (p : Nat) (s : State) : State :=
  (s.putV vd (s.magVal va / p)).putV vx (s.magVal va % p)

/-- NSHLL, the count in limbs, legal range 0..N (R135, R136). -/
def execNshll (vd vx va : VReg) (sb : SReg) (s : State) : Host.Outcome State Fault Refusal :=
  runCommand (.nshll vd vx va sb) s
    (if s.cfg.N < s.word sb then .fault .badShiftArg
     else .done (shiftLeftMag vd vx va (BASE ^ s.word sb) s))

/-- NSHRL, the count in limbs, legal range 0..N (R135, R137). -/
def execNshrl (vd vx va : VReg) (sb : SReg) (s : State) : Host.Outcome State Fault Refusal :=
  runCommand (.nshrl vd vx va sb) s
    (if s.cfg.N < s.word sb then .fault .badShiftArg
     else .done (shiftRightMag vd vx va (BASE ^ s.word sb) s))

/-- NSHLD, the count in digits, legal range 0..ND (R135, R138). -/
def execNshld (vd vx va : VReg) (sb : SReg) (s : State) : Host.Outcome State Fault Refusal :=
  runCommand (.nshld vd vx va sb) s
    (if s.cfg.ND < s.word sb then .fault .badShiftArg
     else .done (shiftLeftMag vd vx va (10 ^ s.word sb) s))

/-- NSHRD, the count in digits, legal range 0..ND (R135, R139). -/
def execNshrd (vd vx va : VReg) (sb : SReg) (s : State) : Host.Outcome State Fault Refusal :=
  runCommand (.nshrd vd vx va sb) s
    (if s.cfg.ND < s.word sb then .fault .badShiftArg
     else .done (shiftRightMag vd vx va (10 ^ s.word sb) s))

/-- NMULL: the low `N` limbs to `vd`, the overflow limb to `sx` (R145). -/
def execNmull (vd : VReg) (sx : SReg) (va : VReg) (sb : SReg) (s : State) : Host.Outcome State Fault Refusal :=
  runCommand (.nmull vd sx va sb) s
    (if BASE ≤ s.word sb then .fault .limbRange
     else .done ((s.putV vd (s.magVal va * s.word sb % s.cfg.CAP)).putS sx (s.magVal va * s.word sb / s.cfg.CAP)))

/-- NMUL: the low `N` limbs to `vd`, the overflow Natural to `vx` (R147). -/
def execNmul (vd vx va vb : VReg) (s : State) : Host.Outcome State Fault Refusal :=
  runCommand (.nmul vd vx va vb) s
    (.done ((s.setV vd { sign := false, mag := (mulMag s.cfg (s.mag va) (s.mag vb)).1 }).setV vx
      { sign := false, mag := (mulMag s.cfg (s.mag va) (s.mag vb)).2 }))

/-- NDIVL: LIMB_RANGE is tested before DIVISION_BY_ZERO (R155). -/
def execNdivl (vd : VReg) (sx : SReg) (va : VReg) (sb : SReg) (s : State) : Host.Outcome State Fault Refusal :=
  runCommand (.ndivl vd sx va sb) s
    (if BASE ≤ s.word sb then .fault .limbRange
     else if s.word sb = 0 then .fault .divisionByZero
     else .done ((s.putV vd (s.magVal va / s.word sb)).putS sx (s.magVal va % s.word sb)))

/-- NDIV: quotient to `vd`, remainder to `vx` (R157). -/
def execNdiv (vd vx va vb : VReg) (s : State) : Host.Outcome State Fault Refusal :=
  runCommand (.ndiv vd vx va vb) s
    (.writing (divMag s.cfg (s.mag va) (s.mag vb)) (fun p =>
      (s.setV vd { sign := false, mag := p.1 }).setV vx { sign := false, mag := p.2 }))

end Sys2Proof.Machine
end

