-- ==== Sys2Proof/Machine/NaturalCodec.lean ====
section
/-! DEFINITION. Natural codec and comparisons: NPARSE, NFORMAT, NEQ, NGT, NLT, NGE, NLE
(42_natural_codec_compare.md R110 to R118). -/

namespace Sys2Proof.Machine

open Sys2Proof

/-- NPARSE: INVALID_FORMAT on a wrong length or a non-digit, else one limb per chunk with flag 0 (R111). -/
def execNparse (vd : VReg) (s : State) : Host.Outcome State Fault Refusal :=
  runCommand (.nparse vd) s
    (match parseNatural s.cfg s.text with
     | none => .invalidFormat
     | some m => .done (s.setV vd { sign := false, mag := m }))

/-- NFORMAT: `T <- digits(V[ra].m)` (R112). -/
def execNformat (va : VReg) (s : State) : Host.Outcome State Fault Refusal :=
  runCommand (.nformat va) s (.done (s.setText (digits (s.mag va))))

/-- NEQ (R114). -/
def execNeq (sd : SReg) (va vb : VReg) (s : State) : Host.Outcome State Fault Refusal :=
  runCommand (.neq sd va vb) s (.done (s.setS sd (truth (ncmp (s.mag va) (s.mag vb) == .eq))))

/-- NGT (R115). -/
def execNgt (sd : SReg) (va vb : VReg) (s : State) : Host.Outcome State Fault Refusal :=
  runCommand (.ngt sd va vb) s (.done (s.setS sd (truth (ncmp (s.mag va) (s.mag vb) == .gt))))

/-- NLT (R116). -/
def execNlt (sd : SReg) (va vb : VReg) (s : State) : Host.Outcome State Fault Refusal :=
  runCommand (.nlt sd va vb) s (.done (s.setS sd (truth (ncmp (s.mag va) (s.mag vb) == .lt))))

/-- NGE (R117). -/
def execNge (sd : SReg) (va vb : VReg) (s : State) : Host.Outcome State Fault Refusal :=
  runCommand (.nge sd va vb) s (.done (s.setS sd (truth (ncmp (s.mag va) (s.mag vb) != .lt))))

/-- NLE (R118). -/
def execNle (sd : SReg) (va vb : VReg) (s : State) : Host.Outcome State Fault Refusal :=
  runCommand (.nle sd va vb) s (.done (s.setS sd (truth (ncmp (s.mag va) (s.mag vb) != .gt))))

end Sys2Proof.Machine
end

