-- ==== Sys2Proof/Machine/Dispatch.lean ====
section
/-! DEFINITION. One arm per command of 30_encoding.md R65, each one direct call of its meaning. -/

namespace Sys2Proof.Machine

open Sys2Proof

def exec (i : Instr) (s : State) : Host.Outcome State Fault Refusal :=
  match i with
  | .nop => Sys2Proof.Machine.execNop s
  | .sli sd imm => Sys2Proof.Machine.execSli sd imm s
  | .vmov vd va => Sys2Proof.Machine.execVmov vd va s
  | .vgetl sd va idx => Sys2Proof.Machine.execVgetl sd va idx s
  | .vsetl vd idx sb => Sys2Proof.Machine.execVsetl vd idx sb s
  | .vgets sd va => Sys2Proof.Machine.execVgets sd va s
  | .rebal sd sx sa sb => Sys2Proof.Machine.execRebal sd sx sa sb s
  | .splith sd sx sa => Sys2Proof.Machine.execSplith sd sx sa s
  | .mulw sd sx sa sb => Sys2Proof.Machine.execMulw sd sx sa sb s
  | .digcnt sd sa => Sys2Proof.Machine.execDigcnt sd sa s
  | .pow10 sd sa => Sys2Proof.Machine.execPow10 sd sa s
  | .shlw sd sx sa sb => Sys2Proof.Machine.execShlw sd sx sa sb s
  | .shrw sd sx sa sb => Sys2Proof.Machine.execShrw sd sx sa sb s
  | .div2by1 sd sx sa sb sc => Sys2Proof.Machine.execDiv2by1 sd sx sa sb sc s
  | .nparse vd => Sys2Proof.Machine.execNparse vd s
  | .nformat va => Sys2Proof.Machine.execNformat va s
  | .nadd vd va vb => Sys2Proof.Machine.execNadd vd va vb s
  | .nsub vd va vb => Sys2Proof.Machine.execNsub vd va vb s
  | .ncompl vd va => Sys2Proof.Machine.execNcompl vd va s
  | .nshll vd vx va sb => Sys2Proof.Machine.execNshll vd vx va sb s
  | .nshrl vd vx va sb => Sys2Proof.Machine.execNshrl vd vx va sb s
  | .nshld vd vx va sb => Sys2Proof.Machine.execNshld vd vx va sb s
  | .nshrd vd vx va sb => Sys2Proof.Machine.execNshrd vd vx va sb s
  | .nmull vd sx va sb => Sys2Proof.Machine.execNmull vd sx va sb s
  | .nmul vd vx va vb => Sys2Proof.Machine.execNmul vd vx va vb s
  | .ndivl vd sx va sb => Sys2Proof.Machine.execNdivl vd sx va sb s
  | .ndiv vd vx va vb => Sys2Proof.Machine.execNdiv vd vx va vb s
  | .neq sd va vb => Sys2Proof.Machine.execNeq sd va vb s
  | .ngt sd va vb => Sys2Proof.Machine.execNgt sd va vb s
  | .nlt sd va vb => Sys2Proof.Machine.execNlt sd va vb s
  | .nge sd va vb => Sys2Proof.Machine.execNge sd va vb s
  | .nle sd va vb => Sys2Proof.Machine.execNle sd va vb s
  | .iadd vd va vb => Sys2Proof.Machine.execIadd vd va vb s
  | .isub vd va vb => Sys2Proof.Machine.execIsub vd va vb s
  | .ineg vd va => Sys2Proof.Machine.execIneg vd va s
  | .imul vd vx va vb => Sys2Proof.Machine.execImul vd vx va vb s
  | .idiv vd vx va vb => Sys2Proof.Machine.execIdiv vd vx va vb s
  | .ieq sd va vb => Sys2Proof.Machine.execIeq sd va vb s
  | .igt sd va vb => Sys2Proof.Machine.execIgt sd va vb s
  | .ilt sd va vb => Sys2Proof.Machine.execIlt sd va vb s
  | .ige sd va vb => Sys2Proof.Machine.execIge sd va vb s
  | .ile sd va vb => Sys2Proof.Machine.execIle sd va vb s
  | .dparse vd => Sys2Proof.Machine.execDparse vd s
  | .dformat va => Sys2Proof.Machine.execDformat va s
  | .dadd vd va vb => Sys2Proof.Machine.execDadd vd va vb s
  | .dsub vd va vb => Sys2Proof.Machine.execDsub vd va vb s
  | .dmul vd va vb => Sys2Proof.Machine.execDmul vd va vb s
  | .ddiv vd va vb => Sys2Proof.Machine.execDdiv vd va vb s
  | .diszero sd va => Sys2Proof.Machine.execDiszero sd va s
  | .dconst vd idx => Sys2Proof.Machine.execDconst vd idx s
  | .deq sd va vb => Sys2Proof.Machine.execDeq sd va vb s
  | .dgt sd va vb => Sys2Proof.Machine.execDgt sd va vb s
  | .dlt sd va vb => Sys2Proof.Machine.execDlt sd va vb s
  | .dge sd va vb => Sys2Proof.Machine.execDge sd va vb s
  | .dle sd va vb => Sys2Proof.Machine.execDle sd va vb s

end Sys2Proof.Machine
end

