-- ==== Sys2Proof/Machine/HostPorts.lean ====
section
/-! DEFINITION. The host's port operations (20_memory.md R46 to R50) and their behaviour on a frozen unit
(60_exceptions.md R237, R238). -/

namespace Sys2Proof.Machine

open Sys2Proof

/-- `HostIssue(cmd)`: a frozen unit refuses the word without decoding it (R238); an illegal word raises
ILLEGAL_COMMAND and does nothing else (30_encoding.md R66 to R69); any other word is its command. -/
def hostIssue (cmd : CmdWord) (s : State) : Host.Outcome State Fault Refusal :=
  if s.status.frozen then .next (s.setCC .refused)
  else
    match decode cmd with
    | .ok i => exec i s
    | .error _ => .next (s.latchFault cmd .illegalCommand)

/-- A host write to S or T has no effect on a frozen unit (R46, R237). -/
def hostWrite (s written : State) : State := if s.status.frozen then s else written

/-- One port operation, performed between commands (R50). A read has no side effect and answers in `reply` (R48). -/
def performHostOp (op : HostOp) (s : State) : Host.Outcome State Fault Refusal :=
  match op with
  | .issue cmd => hostIssue cmd s
  | .readS i => .next { s with reply := .word (s.getS i) }
  | .writeS i w => .next (hostWrite s (s.setS i w))
  | .readT => .next { s with reply := .text s.text }
  | .writeT str =>
    if s.cfg.TMAX < str.length then .fault .textCannotBePresented
    else .next (hostWrite s (s.setText str))
  | .readStatus => .next { s with reply := .word s.status.toWord }
  | .readConfig => .next { s with reply := .word (configWord s.cfg) }
  | .reset => .next s.hostReset

/-- What the host next presents is taken off the stream, and the answer to the operation before is gone
(notes/assumptions/1.md). -/
def State.taken (s : State) (rest : List HostOp) : State := { s with inbox := rest, reply := .nothing }

/-- One port operation of the host's stream, in the order presented (R49); with nothing presented the unit is idle,
and "all state survives idleness" (R250; notes/assumptions/10.md). -/
def nextHostOp (s : State) : Host.Outcome State Fault Refusal :=
  match s.inbox with
  | [] => .next s
  | op :: rest => performHostOp op (s.taken rest)

/-- The state with a command word as the very next thing the host presents (notes/assumptions/1.md). -/
def State.presenting (s : State) (cmd : CmdWord) : State := { s with inbox := .issue cmd :: s.inbox }

end Sys2Proof.Machine
end

