-- ==== Sys2Proof/Machine/Step.lean ====
section
/-! DEFINITION. One step: the next port operation of the host (10_state.md R30: "A model's step takes the command as
an input; it fetches nothing"). -/

namespace Sys2Proof.Machine

open Sys2Proof

/-- One step of the machine. -/
def step (s : State) : Host.Outcome State Fault Refusal := nextHostOp s

/-- The state with the instruction whose bits are `w` presented as the host's next HostIssue: the DAU has no
instruction memory (R30), so a program is what the host issues. -/
def State.withFetchWord (s : State) (nbits w : Nat) : State := s.presenting (commandWord nbits w)

end Sys2Proof.Machine
end

