-- ==== Sys2Proof/Machine/Datapath.lean ====
section
/-! DEFINITION. The datapaths the spec gives "so the hardware can be built" (00_scope.md R15 (b)): R94, R101, R126,
R129, R140, R146, R148, R156, R158, R159, R216, R218. No step calls them: a command is defined by its result contract,
and each datapath here is to be proved equal to its contract (notes/assumptions/12.md). Numbers are mathematical
integers (R9); a `while` loop is written with the bound on its passes that its rule gives. -/

namespace Sys2Proof.Machine

open Sys2Proof

/-- The intermediate numbers of the half-product scheme (R94). -/
structure HalfProducts where
  phh : Nat
  phl : Nat
  plh : Nat
  pll : Nat
  mid : Nat
  mh : Nat
  ml : Nat
  low0 : Nat
deriving DecidableEq, Repr

/-- The four half-products of two limbs, combined (R94). -/
def halfProducts (a b : Nat) : HalfProducts :=
  let x := splitHalf a
  let y := splitHalf b
  let phl := x.1 * y.2
  let plh := x.2 * y.1
  let mid := phl + plh
  { phh := x.1 * y.1, phl := phl, plh := plh, pll := x.2 * y.2, mid := mid, mh := mid / HB, ml := mid % HB,
    low0 := x.2 * y.2 + mid % HB * HB }

/-- MULW's datapath: `(low, overflow)` (R94). -/
def multiplyWordDatapath (a b : Nat) : Nat × Nat :=
  let h := halfProducts a b
  let r := rebalance h.low0 0
  (r.1, h.phh + h.mh + r.2)

/-- R101's correction loop: `while q >= HB or q·dl > rh·HB + l`, left when `rh` reaches HB, at most `fuel` passes. -/
def correctHalf (dh dl l : Nat) : Nat → Nat → Nat → Nat
  | 0, q, _ => q
  | fuel + 1, q, rh =>
    if HB ≤ q ∨ rh * HB + l < q * dl then
      if HB ≤ rh + dh then q - 1 else correctHalf dh dl l fuel (q - 1) (rh + dh)
    else q

/-- One half of the quotient of `(h, l)` by `dn`, and the partial remainder (R101); "at most 11" decrements. -/
def divideHalf (dn h l : Nat) : Nat × Nat :=
  let d := splitHalf dn
  let q := correctHalf d.1 d.2 l 11 (h / d.1) (h - h / d.1 * d.1)
  (q, h * HB + l - q * dn)

/-- DIV2BY1's datapath: normalise by a decimal shift, two estimated and corrected quotient halves (R101). -/
def divTwoByOneDatapath (hi lo d : Nat) : Nat × Nat :=
  let sh := LD - leastDigits 19 1 d
  let dn := d * 10 ^ sh
  let hn := hi * 10 ^ sh + lo / 10 ^ (LD - sh)
  let ln := lo % 10 ^ (LD - sh) * 10 ^ sh
  let l := splitHalf ln
  let first := divideHalf dn hn l.1
  let second := divideHalf dn first.2 l.2
  (first.1 * HB + second.1, second.2 / 10 ^ sh)

/-- The ripple of R126, "for i from N−1 down to 0": the limbs of the sum and the carry out of limb 0. -/
def addLimbs : List Word → List Word → List Word × Nat
  | a :: as, b :: bs =>
    let t := addLimbs as bs
    let r := rebalance (a.toNat + b.toNat + t.2) 0
    (BitVec.ofNat 64 r.1 :: t.1, r.2)
  | _, _ => ([], 0)

/-- NADD's datapath (R126). -/
def addDatapath (a b : List Word) : Except Cause (List Word) :=
  if (addLimbs a b).2 ≠ 0 then .error .capacityOverflow else .ok (addLimbs a b).1

/-- NSUB's pipeline: complement, add, complement; the adder's carry out is the fault (R129). -/
def subDatapath (a b : List Word) : Except Cause (List Word) :=
  let t := addLimbs (complementMag a) b
  if t.2 ≠ 0 then .error .subUnderflow else .ok (complementMag t.1)

/-- The within-limb part of the left digit shift: the limbs `u` and the digits out of limb 0 (R140). -/
def shiftLeftLimbs (r : Nat) : List Word → List Word × Nat
  | [] => ([], 0)
  | a :: as =>
    let t := shiftLeftLimbs r as
    let p := shiftLeftInLimb a.toNat r
    (BitVec.ofNat 64 (p.1 + t.2) :: t.1, p.2)

/-- The left digit shift's datapath: `r` digits inside the limbs, then `q` whole limbs of the 2N-limb number; result
and overflow (R140). -/
def shiftLeftDatapath (c : Config) (a : List Word) (k : Nat) : List Word × List Word :=
  let t := shiftLeftLimbs (k % LD) a
  let wide := nat c.N t.2 ++ t.1
  let shifted := wide.drop (k / LD) ++ List.replicate (k / LD) 0#64
  (shifted.drop c.N, shifted.take c.N)

/-- The within-limb part of the right digit shift, from limb 0 with the carried digits (R140). -/
def shiftRightLimbs (r : Nat) : Nat → List Word → List Word × Nat
  | carry, [] => ([], carry)
  | carry, w :: ws =>
    let p := shiftRightInLimb w.toNat r
    let t := shiftRightLimbs r p.2 ws
    (BitVec.ofNat 64 (p.1 + carry * 10 ^ (LD - r)) :: t.1, t.2)

/-- The right digit shift's datapath: `q` whole limbs, then `r` digits inside the limbs; result and loss (R140). The
loss is the final carry above the `q` limbs that left whole, which is what R139's contract gives (notes/assumptions/12.md). -/
def shiftRightDatapath (c : Config) (a : List Word) (k : Nat) : List Word × List Word :=
  let w := List.replicate (k / LD) 0#64 ++ a.take (c.N - k / LD)
  let lost := a.drop (c.N - k / LD)
  let t := shiftRightLimbs (k % LD) 0 w
  (t.1, nat c.N (t.2 * BASE ^ (k / LD) + val lost))

/-- NMULL's datapath: one `multiplyWord` a limb with carry propagation; the limbs and the last carry (R146). -/
def mulLimbDatapath (w : Nat) : List Word → List Word × Nat
  | [] => ([], 0)
  | a :: as =>
    let t := mulLimbDatapath w as
    let p := multiplyWord a.toNat w
    let r := rebalance (p.1 + t.2) 0
    (BitVec.ofNat 64 r.1 :: t.1, p.2 + r.2)

/-- The accumulation of R148 over the limbs of `b`, least significant first: limb number `j`, accumulators `res` and
`ovf`. The adder's carry goes into `ovf` and is no fault. -/
def mulLoop (c : Config) (a : List Word) : List Word → Nat → List Word → Nat → List Word × Nat
  | [], _, res, ovf => (res, ovf)
  | w :: ws, j, res, ovf =>
    let p := mulLimbDatapath w.toNat a
    let ps := nat c.N (val p.1 * BASE ^ j % c.CAP)
    let so := val p.1 * BASE ^ j / c.CAP
    let sum := addLimbs res ps
    mulLoop c a ws (j + 1) sum.1 (ovf + p.2 * BASE ^ j + so + sum.2)

/-- NMUL's schoolbook datapath: result and overflow Natural (R148). -/
def mulDatapath (c : Config) (a b : List Word) : List Word × List Word :=
  let t := mulLoop c a b.reverse 0 (nat c.N 0) 0
  (t.1, nat c.N t.2)

/-- NDIVL's datapath: short division, each remainder the high limb of the next step (R156). -/
def divLimbDatapath (d : Nat) : Nat → List Word → List Word × Nat
  | r, [] => ([], r)
  | r, a :: as =>
    let p := divTwoByOne r a.toNat d
    let t := divLimbDatapath d p.2 as
    (BitVec.ofNat 64 p.1 :: t.1, t.2)

/-- R159's correction: `while qh·bn > rem: qh = qh − 1`, at most `fuel` times. -/
def correctLimb (bn rem : Nat) : Nat → Nat → Nat
  | 0, qh => qh
  | fuel + 1, qh => if rem < qh * bn then correctLimb bn rem fuel (qh - 1) else qh

/-- One quotient limb (R159): estimate from the two most significant of the `m + 1` limbs of `rem`, then "correct; at
most 11 times". -/
def quotientLimb (m bn rem : Nat) : Nat :=
  let top := bn / BASE ^ (m - 1)
  let r0 := rem / BASE ^ m
  let r1 := rem / BASE ^ (m - 1) % BASE
  correctLimb bn rem 11 (if top ≤ r0 then BASE - 1 else (divTwoByOne r0 r1 top).1)

/-- R159's outer loop over the limbs of the normalised dividend: quotient limbs and remainder. -/
def divLoop (m bn : Nat) : Nat → List Word → List Word × Nat
  | rem, [] => ([], rem)
  | rem, a :: as =>
    let rem' := rem * BASE + a.toNat
    let qh := quotientLimb m bn rem'
    let t := divLoop m bn (rem' - qh * bn) as
    (BitVec.ofNat 64 qh :: t.1, t.2)

/-- The significant limbs of a magnitude: its leading zero limbs dropped. -/
def significant (b : List Word) : List Word := b.dropWhile (· == 0#64)

/-- R159's general path for a dividend of any number of limbs and a divisor of two or more significant limbs:
quotient limbs and remainder. -/
def longDivide (a b : List Word) : List Word × Nat :=
  let sig := significant b
  let sh := LD - leastDigits 19 1 (sig.headD 0#64).toNat
  let t := divLoop sig.length (val b * 10 ^ sh) 0 (nat (a.length + 1) (val a * 10 ^ sh))
  (t.1.tail, t.2 / 10 ^ sh)

/-- Long division by one limb or by more, as the divisor needs (R156, R159, R218). -/
def divideLimbs (a b : List Word) : List Word × Nat :=
  if (significant b).length ≤ 1 then divLimbDatapath (val b) 0 a else longDivide a b

/-- NDIV's datapath: the zero check, the fast paths in the source's order, then the general path (R158, R159). -/
def divDatapath (c : Config) (a b : List Word) : Except Cause (List Word × List Word) :=
  if val b = 0 then .error .divisionByZero
  else if ncmp a b = .lt then .ok (nat c.N 0, a)
  else if ncmp a b = .eq then .ok (nat c.N 1, nat c.N 0)
  else if (significant a).length ≤ 1 ∧ (significant b).length ≤ 1 then
    .ok (nat c.N (val a / val b), nat c.N (val a % val b))
  else .ok ((divideLimbs a b).1, nat c.N (divideLimbs a b).2)

/-- DMUL's staging: low half right by K limbs, overflow half left by N − K limbs, summed; digits of the overflow half
above the capacity are the fault (R216). -/
def mulDecDatapath (c : Config) (x y : Value) : Except Cause Value :=
  let po := mulMag c x.mag y.mag
  let lo := nat c.N (val po.1 / BASE ^ c.K)
  let hi := nat c.N (val po.2 * BASE ^ (c.N - c.K) % c.CAP)
  let oo := nat c.N (val po.2 * BASE ^ (c.N - c.K) / c.CAP)
  if val oo ≠ 0 then .error .capacityOverflow
  else (addMag c lo hi).map (fun q => { sign := productSign x y, mag := q })

/-- DDIV's datapath: the internal dividend is the N limbs of A followed by K zero limbs; the rounding test is
`R >= B − R`; a quotient above N limbs is the fault (R217, R218). -/
def divDecDatapath (c : Config) (x y : Value) : Except Cause Value :=
  if val y.mag = 0 then .error .divisionByZero
  else
    let t := divideLimbs (x.mag ++ List.replicate c.K 0#64) y.mag
    let q := if val y.mag - t.2 ≤ t.2 then val t.1 + 1 else val t.1
    if q / c.CAP ≠ 0 then .error .capacityOverflow
    else .ok { sign := quotientSign x y, mag := nat c.N q }

end Sys2Proof.Machine
end

