-- ==== Sys2Proof/Safety.lean ====
section
/-! DEFINITION. What the statements say of a state and of a step: the invariant of every reachable state (10_state.md
R22, R26, R27), the frame of a completed command (40_host_and_move.md R80), and the causes a command can raise
(60_exceptions.md R232). -/

namespace Sys2Proof.Machine

open Sys2Proof

/-- A property of all eight registers. -/
def RegFile.all {α : Type} (f : RegFile α) (p : α → Bool) : Bool :=
  p f.r0 && p f.r1 && p f.r2 && p f.r3 && p f.r4 && p f.r5 && p f.r6 && p f.r7

/-- A magnitude: `N` limbs, each below BASE (R21, R22). -/
def magWf (c : Config) (m : List Word) : Bool := m.length == c.N && m.all (fun l => decide (l.toNat < BASE))

/-- The limb invariant of one value (R22). -/
def Value.wf (c : Config) (x : Value) : Bool := magWf c x.mag

/-- STATUS as the unit leaves it: CAUSE and FCMD are 0 while F = 0 (R27); CC is OK or INVALID_FORMAT on a running unit
and FAULT or REFUSED on a frozen one (R233 to R238). -/
def Status.wf (st : Status) : Bool :=
  if st.frozen then st.cause != .none && (st.cc == .fault || st.cc == .refused)
  else st.cause == .none && st.fcmd == 0#32 && (st.cc == .ok || st.cc == .invalidFormat)

/-- The invariant: a build the spec allows (R5, R28), every value register within the limb invariant (R22), TLEN at
most TMAX (R26), STATUS consistent (R27). -/
def State.wf (s : State) : Bool :=
  s.cfg.wf && s.v.all (Value.wf s.cfg) && decide (s.text.length ≤ s.cfg.TMAX) && s.status.wf

/-- The unit executes commands: `STATUS.F = 0` (R80 (a)). -/
abbrev State.running (s : State) : Prop := s.status.frozen = false

/-- A command that ended OK in `t`: `STATUS.CC <- 0` "and nothing else of STATUS changes" (R80 (e)); every value
register outside `vs`, every scalar register outside `ss`, the text, the build and the host's stream are unchanged. -/
def completedWriting (vs : List VReg) (ss : List SReg) (s t : State) : Prop :=
  t.cfg = s.cfg ∧ t.inbox = s.inbox ∧ t.reply = s.reply ∧ t.text = s.text ∧
    t.status = { s.status with cc := .ok } ∧
    (∀ r, r ∉ vs → t.getV r = s.getV r) ∧ (∀ r, r ∉ ss → t.getS r = s.getS r)

/-- A command that ended OK in `t` and wrote the text buffer only (R80, R112, R193). -/
def completedWritingText (s t : State) : Prop :=
  t.cfg = s.cfg ∧ t.inbox = s.inbox ∧ t.reply = s.reply ∧ t.v = s.v ∧ t.s = s.s ∧
    t.status = { s.status with cc := .ok }

/-- `t` is `s` with the fault of command word `cmd` latched and nothing else changed (R236). -/
def faultedWith (cmd : CmdWord) (c : Cause) (s t : State) : Prop :=
  t.status = { frozen := true, cause := c, cc := .fault, fcmd := cmd } ∧ t.cfg = s.cfg ∧ t.v = s.v ∧ t.s = s.s ∧
    t.text = s.text ∧ t.inbox = s.inbox ∧ t.reply = s.reply

/-- `t` is `s` with CC alone changed (R235, R238). -/
def onlyCompletionCode (cc : CompletionCode) (s t : State) : Prop :=
  t.status = { s.status with cc := cc } ∧ t.cfg = s.cfg ∧ t.v = s.v ∧ t.s = s.s ∧ t.text = s.text ∧
    t.inbox = s.inbox ∧ t.reply = s.reply

/-- The value registers a command writes (the "Operands" column of R65). -/
def valueDestinations : Instr → List VReg
  | .nop | .sli _ _ | .vgetl _ _ _ | .vgets _ _ | .rebal _ _ _ _ | .splith _ _ _ | .mulw _ _ _ _ | .digcnt _ _
  | .pow10 _ _ | .shlw _ _ _ _ | .shrw _ _ _ _ | .div2by1 _ _ _ _ _ | .nformat _ | .neq _ _ _ | .ngt _ _ _
  | .nlt _ _ _ | .nge _ _ _ | .nle _ _ _ | .ieq _ _ _ | .igt _ _ _ | .ilt _ _ _ | .ige _ _ _ | .ile _ _ _
  | .dformat _ | .diszero _ _ | .deq _ _ _ | .dgt _ _ _ | .dlt _ _ _ | .dge _ _ _ | .dle _ _ _ => []
  | .vmov vd _ | .vsetl vd _ _ | .nparse vd | .nadd vd _ _ | .nsub vd _ _ | .ncompl vd _ | .nmull vd _ _ _
  | .ndivl vd _ _ _ | .iadd vd _ _ | .isub vd _ _ | .ineg vd _ | .dparse vd | .dadd vd _ _ | .dsub vd _ _
  | .dmul vd _ _ | .ddiv vd _ _ | .dconst vd _ => [vd]
  | .nshll vd vx _ _ | .nshrl vd vx _ _ | .nshld vd vx _ _ | .nshrd vd vx _ _ | .nmul vd vx _ _
  | .ndiv vd vx _ _ | .imul vd vx _ _ | .idiv vd vx _ _ => [vd, vx]

/-- The scalar registers a command writes (the "Operands" column of R65). -/
def scalarDestinations : Instr → List SReg
  | .nop | .vmov _ _ | .vsetl _ _ _ | .nparse _ | .nformat _ | .nadd _ _ _ | .nsub _ _ _ | .ncompl _ _
  | .nshll _ _ _ _ | .nshrl _ _ _ _ | .nshld _ _ _ _ | .nshrd _ _ _ _ | .nmul _ _ _ _ | .ndiv _ _ _ _
  | .iadd _ _ _ | .isub _ _ _ | .ineg _ _ | .imul _ _ _ _ | .idiv _ _ _ _ | .dparse _ | .dformat _
  | .dadd _ _ _ | .dsub _ _ _ | .dmul _ _ _ | .ddiv _ _ _ | .dconst _ _ => []
  | .sli sd _ | .vgetl sd _ _ | .vgets sd _ | .digcnt sd _ | .pow10 sd _ | .neq sd _ _ | .ngt sd _ _
  | .nlt sd _ _ | .nge sd _ _ | .nle sd _ _ | .ieq sd _ _ | .igt sd _ _ | .ilt sd _ _ | .ige sd _ _
  | .ile sd _ _ | .diszero sd _ | .deq sd _ _ | .dgt sd _ _ | .dlt sd _ _ | .dge sd _ _ | .dle sd _ _ => [sd]
  | .rebal sd sx _ _ | .splith sd sx _ | .mulw sd sx _ _ | .shlw sd sx _ _ | .shrw sd sx _ _
  | .div2by1 sd sx _ _ _ => [sd, sx]
  | .nmull _ sx _ _ | .ndivl _ sx _ _ => [sx]

/-- The two commands that write the text buffer (R112, R193). -/
def writesText : Instr → Bool
  | .nformat _ | .dformat _ => true
  | _ => false

/-- A command that ended OK in `t`: CC = OK and nothing else of STATUS, and of the registers only its own destinations
are written (R80 (e), R13). -/
def completedWithinDestinations (i : Instr) (s t : State) : Prop :=
  t.cfg = s.cfg ∧ t.inbox = s.inbox ∧ t.reply = s.reply ∧ t.status = { s.status with cc := .ok } ∧
    (∀ r, r ∉ valueDestinations i → t.getV r = s.getV r) ∧ (∀ r, r ∉ scalarDestinations i → t.getS r = s.getS r) ∧
    (writesText i = false → t.text = s.text)

/-- The command raises fault `c`: it takes the fault entry of R236 and writes nothing else. -/
def raisesFault (i : Instr) (c : Cause) (s : State) : Prop :=
  ∃ t, exec i s = .next t ∧ faultedWith (encode i) c s t

/-- The command completes with INVALID_FORMAT: CC alone changes (R235). -/
def completesInvalidFormat (i : Instr) (s : State) : Prop :=
  ∃ t, exec i s = .next t ∧ onlyCompletionCode .invalidFormat s t

/-- The causes beyond decode that a command can raise (R232). -/
def causesBeyondDecode : Instr → List Cause
  | .nop | .sli _ _ | .vmov _ _ | .vgets _ _ => []
  | .vgetl _ _ _ => [.badIndex]
  | .vsetl _ _ _ => [.badIndex, .limbRange]
  | .rebal _ _ _ _ => [.wordOverflow]
  | .splith _ _ _ | .mulw _ _ _ _ => [.limbRange]
  | .digcnt _ _ => []
  | .pow10 _ _ => [.badShiftArg]
  | .shlw _ _ _ _ | .shrw _ _ _ _ => [.limbRange, .badShiftArg]
  | .div2by1 _ _ _ _ _ => [.limbRange, .divisionByZero]
  | .nparse _ => []
  | .nformat _ | .ncompl _ _ | .neq _ _ _ | .ngt _ _ _ | .nlt _ _ _ | .nge _ _ _ | .nle _ _ _ => []
  | .nadd _ _ _ => [.capacityOverflow]
  | .nsub _ _ _ => [.subUnderflow]
  | .nshll _ _ _ _ | .nshrl _ _ _ _ | .nshld _ _ _ _ | .nshrd _ _ _ _ => [.badShiftArg]
  | .nmull _ _ _ _ => [.limbRange]
  | .nmul _ _ _ _ => []
  | .ndivl _ _ _ _ => [.limbRange, .divisionByZero]
  | .ndiv _ _ _ _ => [.divisionByZero]
  | .iadd _ _ _ | .isub _ _ _ => [.capacityOverflow]
  | .ineg _ _ | .imul _ _ _ _ | .ieq _ _ _ | .igt _ _ _ | .ilt _ _ _ | .ige _ _ _ | .ile _ _ _ => []
  | .idiv _ _ _ _ => [.divisionByZero]
  | .dparse _ => []
  | .dformat _ | .diszero _ _ | .deq _ _ _ | .dgt _ _ _ | .dlt _ _ _ | .dge _ _ _ | .dle _ _ _ => []
  | .dadd _ _ _ | .dsub _ _ _ => [.capacityOverflow]
  | .dmul _ _ _ => [.capacityOverflow]
  | .ddiv _ _ _ => [.divisionByZero, .capacityOverflow]
  | .dconst _ _ => [.badIndex]

/-- The commands that can complete with INVALID_FORMAT: "Raised only by NPARSE and DPARSE" (R235). -/
def parsesText : Instr → Bool
  | .nparse _ | .dparse _ => true
  | _ => false

/-- The opcodes of R65 with format F0, FD, FA, FDI, FDAI, FDBI, FDXA or FDXABC. -/
def opcodeFormatsFew : List (Nat × Format) :=
  [(0x00, .f0), (0x01, .fdi), (0x03, .fdai), (0x04, .fdbi), (0x11, .fdxa), (0x17, .fdxabc), (0x20, .fd), (0x21, .fa),
    (0x50, .fd), (0x51, .fa), (0x57, .fdi)]

/-- The opcodes of R65 with format FDA. -/
def opcodesFda : List Nat := [0x02, 0x05, 0x13, 0x14, 0x24, 0x42, 0x56]

/-- The opcodes of R65 with format FDXAB. -/
def opcodesFdxab : List Nat :=
  [0x10, 0x12, 0x15, 0x16, 0x25, 0x26, 0x27, 0x28, 0x29, 0x2A, 0x2B, 0x2C, 0x43, 0x44]

/-- The opcodes of R65 with format FDAB. -/
def opcodesFdab : List Nat :=
  [0x22, 0x23, 0x30, 0x31, 0x32, 0x33, 0x34, 0x40, 0x41, 0x48, 0x49, 0x4A, 0x4B, 0x4C, 0x52, 0x53, 0x54, 0x55, 0x58,
    0x59, 0x5A, 0x5B, 0x5C]

/-- The opcode map of 30_encoding.md R65 as a list: opcode and format. -/
def opcodeFormats : List (BitVec 8 × Format) :=
  (opcodeFormatsFew ++ opcodesFda.map (fun n => (n, Format.fda)) ++ opcodesFdxab.map (fun n => (n, Format.fdxab)) ++
    opcodesFdab.map (fun n => (n, Format.fdab))).map (fun row => (BitVec.ofNat 8 row.1, row.2))

/-- The opcodes R68 applies to: two scalar destinations (REBAL, SPLITH, MULW, SHLW, SHRW, DIV2BY1) or two value
destinations (NSHLL, NSHRL, NSHLD, NSHRD, NMUL, NDIV, IMUL, IDIV). -/
def twoDestinationOpcodes : List (BitVec 8) :=
  [0x10, 0x11, 0x12, 0x15, 0x16, 0x17, 0x25, 0x26, 0x27, 0x28, 0x2A, 0x2C, 0x43, 0x44]

/-- The word matches the row of R65: `(word AND mask) = (op << 24)` (R62). -/
abbrev matchesRow (w : CmdWord) (row : BitVec 8 × Format) : Prop := w &&& row.2.mask = row.1.setWidth 32 <<< 24

/-- The word names one register of one file as both destinations: an opcode of R68 with `rd = rx`. -/
abbrev sameDestinations (w : CmdWord) : Prop :=
  w.extractLsb' 24 8 ∈ twoDestinationOpcodes ∧ w.extractLsb' 21 3 = w.extractLsb' 18 3

/-- The command's word holds the opcode and every operand in its field: `f.op` in bits 31:24, `f.rd` in 23:21, `f.rx` in
20:18, `f.ra` in 17:15, `f.rb` in 14:12, `f.imm` in 11:0 (R60); `f.op` has format `fmt` in the map of R65, and every
field that format does not use is zero (R62, R66). -/
def encodedAs (i : Instr) (fmt : Format) (f : Fields) : Prop :=
  ((encode i).extractLsb' 24 8 = f.op ∧ (encode i).extractLsb' 21 3 = f.rd ∧ (encode i).extractLsb' 18 3 = f.rx ∧
    (encode i).extractLsb' 15 3 = f.ra ∧ (encode i).extractLsb' 12 3 = f.rb ∧ (encode i).extractLsb' 0 12 = f.imm) ∧
  (f.op, fmt) ∈ opcodeFormats ∧ (encode i &&& fmt.mask) = f.op ++ 0#24

/-- The register holds `(s, nat(v))`: flag `s`, `N` limbs in range, and the number `v` (R10, R12, R22). -/
def holds (c : Config) (sign : Bool) (v : Nat) (x : Value) : Prop :=
  x.sign = sign ∧ magWf c x.mag = true ∧ val x.mag = v

/-- Limb `j` of a value, limb 0 the most significant (R21). -/
def Value.limb (x : Value) (j : Nat) : Nat := (x.mag.getD j 0#64).toNat

/-- The Decimal grammar `-?D(1..I)(.D(0..F))?` (48_decimal_codec_linear.md R191): the text is an optional minus sign,
`ip` of 1 to I digits, and nothing more or a point and `fp` of 0 to F digits. -/
def isDecimalText (c : Config) (t : List Byte) (isNeg : Bool) (ip fp : List Byte) : Prop :=
  (1 ≤ ip.length ∧ ip.length ≤ c.I ∧ ip.all isDigit = true) ∧ (fp.length ≤ c.F ∧ fp.all isDigit = true) ∧
    ((fp = [] ∧ t = (if isNeg then [minusChar] else []) ++ ip) ∨
      t = (if isNeg then [minusChar] else []) ++ ip ++ pointChar :: fp)

/-- `s'` is `s` but for the sign flags of the value registers. -/
def sameButSignFlags (s s' : State) : Prop :=
  (∀ r, s'.mag r = s.mag r) ∧ s'.s = s.s ∧ s'.cfg = s.cfg ∧ s'.text = s.text ∧ s'.status = s.status ∧
    s'.inbox = s.inbox ∧ s'.reply = s.reply

/-- The commands of the Natural layer and the limb they take from S (42_natural_codec_compare.md R110). -/
def isNaturalCommand : Instr → Bool
  | .nparse _ | .nformat _ | .nadd _ _ _ | .nsub _ _ _ | .ncompl _ _ => true
  | .nshll _ _ _ _ | .nshrl _ _ _ _ | .nshld _ _ _ _ | .nshrd _ _ _ _ => true
  | .nmull _ _ _ _ | .nmul _ _ _ _ | .ndivl _ _ _ _ | .ndiv _ _ _ _ => true
  | .neq _ _ _ | .ngt _ _ _ | .nlt _ _ _ | .nge _ _ _ | .nle _ _ _ => true
  | _ => false

end Sys2Proof.Machine
end

