-- ==== Sys2Proof/Certificates/Slice0/Obligations.lean ====
section
/-! DEFINITION. The statements about the decimal arithmetic unit, from the numbered rules of spec/. Each docstring names
the rules it formalises. A command that names one register twice as its two destinations is not a command (R68); what
`exec` does with such a term is said in `ExecEndsInOneOfThreeWays`. -/

open Sys2Proof Sys2Proof.Machine

/-! ### Encoding -/

/-- Decoding the word of a well-formed command gives the command back, every operand at every value (R60 to R69). -/
def Obligations.DecodeEncodeRoundTrip : Prop :=
  ∀ i : Instr, i.wf = true → decode (encode i) = .ok i

/-- A word that decodes is the word of the command it decodes to, so no two words are one command (R66: "This keeps
every word either one command or a fault"). -/
def Obligations.EncodeOfDecodedWordIsTheWord : Prop :=
  ∀ (w : CmdWord) (i : Instr), decode w = .ok i → encode i = w ∧ i.wf = true

/-- The decoding order of R69 for every word, each answer exactly when its reason holds: the opcode is not in the map
of R65 (R67); the opcode is in the map and a field its format does not use is not zero (R66); the word matches its row
by R62 and names one register of one file as both destinations (R68). A word is accepted exactly when it matches a row
and R68 does not refuse it. -/
def Obligations.DecodeAcceptsExactlyTheCommandWords : Prop :=
  ∀ w : CmdWord,
    (decode w = .error .unassignedOpcode ↔ ∀ row ∈ opcodeFormats, row.1 ≠ w.extractLsb' 24 8) ∧
    (decode w = .error .unusedFieldNotZero ↔
      ∃ row ∈ opcodeFormats, row.1 = w.extractLsb' 24 8 ∧ ¬ matchesRow w row) ∧
    (decode w = .error .sameDestination ↔ (∃ row ∈ opcodeFormats, matchesRow w row) ∧ sameDestinations w) ∧
    ((∃ i, decode w = .ok i) ↔ (∃ row ∈ opcodeFormats, matchesRow w row) ∧ ¬ sameDestinations w)

/-- The words R71 writes out, and illegal words of R66 to R68; 55 of the 256 opcodes are assigned (R67). -/
def Obligations.DecodesTheWordsOfR71 : Prop :=
  decode 0x22401000#32 = .ok (.nadd 2 0 1) ∧ decode 0x01600012#32 = .ok (.sli 3 18) ∧
    decode 0x17053004#32 = .ok (.div2by1 0 1 2 3 4) ∧ decode 0x00000000#32 = .ok .nop ∧
    decode 0x00000001#32 = .error .unusedFieldNotZero ∧ decode 0x1705300C#32 = .error .unusedFieldNotZero ∧
    decode 0x06000000#32 = .error .unassignedOpcode ∧ decode 0x17013004#32 = .error .sameDestination ∧
    decode 0x29240000#32 = .ok (.nmull 1 1 0 0) ∧
    ((List.range 256).filter (fun n => (opcodeRow (Fields.ofWord (BitVec.ofNat 32 (n * 2 ^ 24)))).isSome)).length = 55

/-! ### The step, the host ports, reset -/

/-- A step whose next port operation is HostIssue of a word that decodes to `i`, on a running unit, is exactly `exec i`
on the state with the operation taken off the stream (R46; the stream is the model's own, notes/assumptions/1.md). -/
def Obligations.StepRunsTheDecodedCommand : Prop :=
  ∀ (s : State) (w : CmdWord) (rest : List HostOp) (i : Instr), s.inbox = .issue w :: rest → s.running →
    decode w = .ok i → step s = exec i { s with inbox := rest, reply := .nothing }

/-- A word that is not a command raises ILLEGAL_COMMAND with the word in FCMD and does nothing else (R66, R67, R68).
Taking the word off the stream is the model's own (notes/assumptions/1.md). -/
def Obligations.StepFaultsOnIllegalWord : Prop :=
  ∀ (s : State) (w : CmdWord) (rest : List HostOp), s.inbox = .issue w :: rest → s.running →
    (∀ i, decode w ≠ .ok i) →
    ∃ t, step s = .next t ∧ faultedWith w .illegalCommand { s with inbox := rest, reply := .nothing } t

/-- A HostIssue to a frozen unit does nothing except `STATUS.CC <- 3`, whatever the word, illegal words included
(R238); taking the word off the stream is the model's own (notes/assumptions/1.md). -/
def Obligations.StepRefusesWhileFrozen : Prop :=
  ∀ (s : State) (w : CmdWord) (rest : List HostOp), s.inbox = .issue w :: rest → s.status.frozen = true →
    ∃ t, step s = .next t ∧ onlyCompletionCode .refused { s with inbox := rest, reply := .nothing } t

/-- The read and write ports of R46: a write sets its register or the text on a running unit and has no effect on a
frozen one (R237); a read returns its value and changes nothing (R48). The stream and the
reply are the model's own (notes/assumptions/1.md). -/
def Obligations.HostPortsReadAndWrite : Prop :=
  ∀ (s : State) (op : HostOp) (rest : List HostOp), s.inbox = op :: rest →
    let u : State := { s with inbox := rest, reply := .nothing }
    (∀ i w, op = .writeS i w → s.running → step s = .next (u.setS i w)) ∧
    (∀ i w, op = .writeS i w → s.status.frozen = true → step s = .next u) ∧
    (∀ str, op = .writeT str → str.length ≤ s.cfg.TMAX → s.running → step s = .next (u.setText str)) ∧
    (∀ str, op = .writeT str → str.length ≤ s.cfg.TMAX → s.status.frozen = true → step s = .next u) ∧
    (∀ i, op = .readS i → step s = .next { u with reply := .word (s.getS i) }) ∧
    (op = .readT → step s = .next { u with reply := .text s.text }) ∧
    (op = .readStatus → step s = .next { u with reply := .word s.status.toWord }) ∧
    (op = .readConfig → step s = .next { u with reply := .word (configWord s.cfg) })

/-- HostReset at any time, frozen or not, leaves the reset values of R260: STATUS 0, every value register positive
zero, every scalar register 0, TLEN 0; the build is unchanged, and what the host has presented
after the reset stays presented (the model's own stream, notes/assumptions/1.md). `State.resetWith` holds the same
values. -/
def Obligations.ResetLeavesTheResetValues : Prop :=
  (∀ (s : State) (rest : List HostOp), s.inbox = .reset :: rest →
    ∃ t, step s = .next t ∧ t.status.toWord = 0#64 ∧ t.status.frozen = false ∧ t.cfg = s.cfg ∧ t.inbox = rest ∧
      t.tlen = 0 ∧ (∀ r, holds s.cfg false 0 (t.getV r)) ∧ (∀ r, t.getS r = 0#64)) ∧
  (∀ c : Config, (State.resetWith c).status.toWord = 0#64 ∧ (State.resetWith c).tlen = 0 ∧
    (∀ r, ((State.resetWith c).getV r).sign = false ∧ ((State.resetWith c).getV r).mag = List.replicate c.N 0#64) ∧
    (∀ r, (State.resetWith c).getS r = 0#64))

/-- The machine never stops: every step answers a next state, but for a HostWriteT of more than TMAX bytes, which R46
says "cannot be presented" (the model's choice, notes/assumptions/9.md). -/
def Obligations.StepStopsOnlyOnUnpresentableText : Prop :=
  ∀ s : State, (∃ t, step s = .next t) ∨
    ∃ str rest, s.inbox = .writeT str :: rest ∧ s.cfg.TMAX < str.length ∧ step s = .fault .textCannotBePresented

/-! ### The whole machine -/

/-- Every step keeps the invariant: a build the spec allows (R5), every limb of every value register below BASE (R22),
TLEN at most TMAX (R26), CAUSE and FCMD 0 while F is 0 (R27). -/
def Obligations.StepKeepsTheInvariant : Prop :=
  ∀ s t : State, s.wf = true → step s = .next t → t.wf = true

/-- The invariant holds right after reset, for the reset state of every build the spec allows (R260); the build of
`State.reset` is the model's choice (notes/assumptions/2.md). -/
def Obligations.ResetHasTheInvariant : Prop :=
  State.reset.wf = true ∧ ∀ c : Config, c.wf = true → (State.resetWith c).wf = true

/-- The frozen state (R237): over any number of steps without a HostReset, V, S, T, CAUSE and FCMD keep what they held
at the fault, and F stays 1. -/
def Obligations.FrozenUnitKeepsEverythingUntilReset : Prop :=
  ∀ (k : Nat) (s t : State), s.status.frozen = true → HostOp.reset ∉ s.inbox →
    Host.Core.run Sys2Proof.core k s = .next t →
    t.v = s.v ∧ t.s = s.s ∧ t.text = s.text ∧ t.cfg = s.cfg ∧ t.status.frozen = true ∧
      t.status.cause = s.status.cause ∧ t.status.fcmd = s.status.fcmd ∧
      (t.status.cc = s.status.cc ∨ t.status.cc = .refused)

/-- Every command is total and ends in exactly one of three ways (R13): done, with only its destinations written and
CC = OK; INVALID_FORMAT, only CC changed, by NPARSE and DPARSE alone (R235); a fault, only STATUS changed (R236). On a
frozen unit it is refused (R238). A term that names one register as both destinations is no command; `exec` treats it
as the illegal command R68 says its word is (notes/assumptions/6.md). -/
def Obligations.ExecEndsInOneOfThreeWays : Prop :=
  ∀ (i : Instr) (s : State), ∃ t, exec i s = .next t ∧
    (s.status.frozen = true → onlyCompletionCode .refused s t) ∧
    (s.running → i.wf = false → faultedWith (encode i) .illegalCommand s t) ∧
    (s.running → i.wf = true →
      completedWithinDestinations i s t ∨
      (parsesText i = true ∧ onlyCompletionCode .invalidFormat s t) ∨
      (∃ c, c ≠ .none ∧ faultedWith (encode i) c s t))

/-- A command that passes decode ends only in the ways R232 lists for it, from every running state within the
invariant: a fault has a cause of its row, and INVALID_FORMAT is NPARSE's and DPARSE's alone. -/
def Obligations.CommandsRaiseOnlyTheirListedCauses : Prop :=
  ∀ (i : Instr) (s t : State), s.wf = true → s.running → i.wf = true → exec i s = .next t →
    (t.status.frozen = true → t.status.cause ∈ causesBeyondDecode i) ∧
      (t.status.cc = .invalidFormat → parsesText i = true) ∧ t.status.cc ≠ .refused

/-- The fields of STATUS and CONFIG stand at the bits R27 and R28 give them; the STATUS word of a latched fault. -/
def Obligations.StatusAndConfigWordLayout : Prop :=
  (∀ st : Status, st.toWord.extractLsb' 0 1 = BitVec.ofBool st.frozen ∧ st.toWord.extractLsb' 1 4 = st.cause.code ∧
    st.toWord.extractLsb' 5 2 = st.cc.code ∧ st.toWord.extractLsb' 7 25 = 0#25 ∧
    st.toWord.extractLsb' 32 32 = st.fcmd) ∧
  (∀ c : Config, c.wf = true → ((configWord c).extractLsb' 0 8).toNat = c.N ∧
    ((configWord c).extractLsb' 8 8).toNat = c.K ∧ ((configWord c).extractLsb' 16 8).toNat = c.DC0 ∧
    (configWord c).extractLsb' 24 40 = 0#40) ∧
  (∀ (s : State) (cmd : CmdWord) (c : Cause), (s.latchFault cmd c).status.toWord =
    (cmd.setWidth 64 <<< 32) ||| 0x41#64 ||| (c.code.setWidth 64 <<< 1))

/-- No port operation of the host but HostIssue and HostReset changes a value register (R45: "The host has no port into
the value file at all"). -/
def Obligations.HostPortsNeverWriteValueRegisters : Prop :=
  ∀ (s t : State) (op : HostOp) (rest : List HostOp), s.inbox = op :: rest → (∀ w, op ≠ .issue w) → op ≠ .reset →
    step s = .next t → t.v = s.v

/-- A command of the Natural layer reads no sign flag (R110 (a)): from two states that differ in sign flags alone it
answers the same magnitudes, scalars, text and STATUS. Every value register it writes has flag 0 (R110 (b)): each of its
value destinations when it completes OK, and no other register changes its flag to 1. -/
def Obligations.NaturalCommandsIgnoreSignFlags : Prop :=
  ∀ (i : Instr) (s s' t t' : State), isNaturalCommand i = true → sameButSignFlags s s' →
    exec i s = .next t → exec i s' = .next t' →
    (∀ r, t'.mag r = t.mag r) ∧ t'.s = t.s ∧ t'.text = t.text ∧ t'.status = t.status ∧
      (∀ r, t.getV r = s.getV r ∨ (t.getV r).sign = false) ∧
      (t.status.cc = .ok → ∀ r, r ∈ valueDestinations i → (t.getV r).sign = false)

/-! ### Move commands -/

/-- NOP leaves every register unchanged and sets CC to OK, and no other word with its opcode is a command (R81); SLI
writes its zero-extended immediate (R82). -/
def Obligations.NopAndSliComplete : Prop :=
  ∀ (sd : SReg) (imm : Imm) (s : State), s.running →
    encodedAs .nop .f0 ⟨0x00, 0, 0, 0, 0, 0⟩ ∧ encodedAs (.sli sd imm) .fdi ⟨0x01, sd, 0, 0, 0, imm⟩ ∧
    (∃ t, exec .nop s = .next t ∧ completedWriting [] [] s t) ∧
    (∀ w : CmdWord, w.extractLsb' 24 8 = 0#8 → w ≠ 0#32 → decode w = .error .unusedFieldNotZero) ∧
    (∃ t, exec (.sli sd imm) s = .next t ∧ completedWriting [] [sd] s t ∧ t.word sd = imm.toNat)

/-- VMOV copies flag and all limbs (R83); VGETS reads the stored flag, 0 or 1 (R86). -/
def Obligations.VmovCopiesAndVgetsReadsTheFlag : Prop :=
  ∀ (vd va : VReg) (sd : SReg) (s : State), s.running →
    encodedAs (.vmov vd va) .fda ⟨0x02, vd, 0, va, 0, 0⟩ ∧ encodedAs (.vgets sd va) .fda ⟨0x05, sd, 0, va, 0, 0⟩ ∧
    (∃ t, exec (.vmov vd va) s = .next t ∧ completedWriting [vd] [] s t ∧ t.getV vd = s.getV va) ∧
    (∃ t, exec (.vgets sd va) s = .next t ∧ completedWriting [] [sd] s t ∧
      t.word sd = (s.getV va).sign.toNat)

/-- VGETL reads limb `imm`, BAD_INDEX when `imm >= N` (R84). -/
def Obligations.VgetlReadsOneLimb : Prop :=
  ∀ (sd : SReg) (va : VReg) (idx : Imm) (s : State), s.wf = true → s.running →
    encodedAs (.vgetl sd va idx) .fdai ⟨0x03, sd, 0, va, 0, idx⟩ ∧
    (idx.toNat < s.cfg.N → ∃ t, exec (.vgetl sd va idx) s = .next t ∧ completedWriting [] [sd] s t ∧
      (s.mag va)[idx.toNat]? = some (t.getS sd) ∧ t.word sd < BASE) ∧
    (s.cfg.N ≤ idx.toNat → raisesFault (.vgetl sd va idx) .badIndex s)

/-- VSETL writes limb `imm`, the other limbs and the flag kept; BAD_INDEX before LIMB_RANGE (R85). -/
def Obligations.VsetlWritesOneLimb : Prop :=
  ∀ (vd : VReg) (idx : Imm) (sb : SReg) (s : State), s.wf = true → s.running →
    encodedAs (.vsetl vd idx sb) .fdbi ⟨0x04, vd, 0, 0, sb, idx⟩ ∧
    (idx.toNat < s.cfg.N → s.word sb < BASE →
      ∃ t, exec (.vsetl vd idx sb) s = .next t ∧ completedWriting [vd] [] s t ∧
        (t.mag vd)[idx.toNat]? = some (s.getS sb) ∧ (∀ j, j ≠ idx.toNat → (t.mag vd)[j]? = (s.mag vd)[j]?) ∧
        (t.getV vd).sign = (s.getV vd).sign) ∧
    (s.cfg.N ≤ idx.toNat → raisesFault (.vsetl vd idx sb) .badIndex s) ∧
    (idx.toNat < s.cfg.N → BASE ≤ s.word sb → raisesFault (.vsetl vd idx sb) .limbRange s)

/-! ### Limb primitives -/

/-- REBAL moves the quotient of `low` by BASE into `high`, nothing lost; WORD_OVERFLOW when `high'` leaves 64 bits
(R91). -/
def Obligations.RebalRestoresTheLimb : Prop :=
  ∀ (sd sx sa sb : SReg) (s : State), s.running → sd ≠ sx →
    encodedAs (.rebal sd sx sa sb) .fdxab ⟨0x10, sd, sx, sa, sb, 0⟩ ∧
    (s.word sb + s.word sa / BASE < 2 ^ 64 →
      ∃ t, exec (.rebal sd sx sa sb) s = .next t ∧ completedWriting [] [sd, sx] s t ∧
        t.word sd = s.word sa % BASE ∧ t.word sx = s.word sb + s.word sa / BASE ∧
        s.word sa + s.word sb * BASE = t.word sd + t.word sx * BASE) ∧
    (2 ^ 64 ≤ s.word sb + s.word sa / BASE → raisesFault (.rebal sd sx sa sb) .wordOverflow s)

/-- SPLITH gives the two 9-digit halves of a limb; LIMB_RANGE for a word at or above BASE (R92). -/
def Obligations.SplithSplitsALimb : Prop :=
  ∀ (sd sx sa : SReg) (s : State), s.running → sd ≠ sx →
    encodedAs (.splith sd sx sa) .fdxa ⟨0x11, sd, sx, sa, 0, 0⟩ ∧
    (s.word sa < BASE → ∃ t, exec (.splith sd sx sa) s = .next t ∧ completedWriting [] [sd, sx] s t ∧
      t.word sd = s.word sa / HB ∧ t.word sx = s.word sa % HB ∧ s.word sa = t.word sd * HB + t.word sx ∧
      t.word sd < HB ∧ t.word sx < HB) ∧
    (BASE ≤ s.word sa → raisesFault (.splith sd sx sa) .limbRange s)

/-- MULW gives the full product of two limbs as `(low, overflow)`; LIMB_RANGE when either is no limb (R93). -/
def Obligations.MulwGivesTheFullProduct : Prop :=
  ∀ (sd sx sa sb : SReg) (s : State), s.running → sd ≠ sx →
    encodedAs (.mulw sd sx sa sb) .fdxab ⟨0x12, sd, sx, sa, sb, 0⟩ ∧
    (s.word sa < BASE → s.word sb < BASE →
      ∃ t, exec (.mulw sd sx sa sb) s = .next t ∧ completedWriting [] [sd, sx] s t ∧
        t.word sd = s.word sa * s.word sb % BASE ∧ t.word sx = s.word sa * s.word sb / BASE ∧
        s.word sa * s.word sb = t.word sx * BASE + t.word sd ∧ t.word sx ≤ BASE - 2) ∧
    (BASE ≤ s.word sa ∨ BASE ≤ s.word sb → raisesFault (.mulw sd sx sa sb) .limbRange s)

/-- DIGCNT gives the number of decimal digits of any word, 1 to 20, and DC0 for zero (R95, R96). -/
def Obligations.DigcntCountsDecimalDigits : Prop :=
  ∀ (sd sa : SReg) (s : State), s.running →
    encodedAs (.digcnt sd sa) .fda ⟨0x13, sd, 0, sa, 0, 0⟩ ∧
    (s.word sa = 0 → ∃ t, exec (.digcnt sd sa) s = .next t ∧ completedWriting [] [sd] s t ∧
      t.word sd = s.cfg.DC0) ∧
    (s.word sa ≠ 0 → ∃ t, exec (.digcnt sd sa) s = .next t ∧ completedWriting [] [sd] s t ∧
      1 ≤ t.word sd ∧ t.word sd ≤ 20 ∧ s.word sa < 10 ^ t.word sd ∧ 10 ^ (t.word sd - 1) ≤ s.word sa)

/-- POW10 reads the table entry `10^k` for `k <= 18`, else BAD_SHIFT_ARG (R97). -/
def Obligations.Pow10ReadsTheTable : Prop :=
  ∀ (sd sa : SReg) (s : State), s.running →
    encodedAs (.pow10 sd sa) .fda ⟨0x14, sd, 0, sa, 0, 0⟩ ∧
    (s.word sa ≤ 18 → ∃ t, exec (.pow10 sd sa) s = .next t ∧ completedWriting [] [sd] s t ∧
      t.word sd = 10 ^ s.word sa) ∧
    (18 < s.word sa → raisesFault (.pow10 sd sa) .badShiftArg s)

/-- SHLW and SHRW shift a limb by `k` decimal digits and return the shifted-out digits as a plain number; LIMB_RANGE is
tested before BAD_SHIFT_ARG (R98, R99). -/
def Obligations.ShlwAndShrwShiftWithinALimb : Prop :=
  ∀ (sd sx sa sb : SReg) (s : State), s.running → sd ≠ sx →
    encodedAs (.shlw sd sx sa sb) .fdxab ⟨0x15, sd, sx, sa, sb, 0⟩ ∧
    encodedAs (.shrw sd sx sa sb) .fdxab ⟨0x16, sd, sx, sa, sb, 0⟩ ∧
    (s.word sa < BASE → s.word sb ≤ 18 →
      (∃ t, exec (.shlw sd sx sa sb) s = .next t ∧ completedWriting [] [sd, sx] s t ∧
        t.word sd = s.word sa * 10 ^ s.word sb % BASE ∧ t.word sx = s.word sa * 10 ^ s.word sb / BASE ∧
        t.word sd = s.word sa % 10 ^ (18 - s.word sb) * 10 ^ s.word sb ∧
        t.word sx = s.word sa / 10 ^ (18 - s.word sb) ∧ t.word sx < 10 ^ s.word sb) ∧
      (∃ t, exec (.shrw sd sx sa sb) s = .next t ∧ completedWriting [] [sd, sx] s t ∧
        t.word sd = s.word sa / 10 ^ s.word sb ∧ t.word sx = s.word sa % 10 ^ s.word sb ∧
        s.word sa = t.word sd * 10 ^ s.word sb + t.word sx ∧ t.word sd < 10 ^ (18 - s.word sb) ∧
        t.word sx < 10 ^ s.word sb)) ∧
    (BASE ≤ s.word sa →
      raisesFault (.shlw sd sx sa sb) .limbRange s ∧ raisesFault (.shrw sd sx sa sb) .limbRange s) ∧
    (s.word sa < BASE → 18 < s.word sb →
      raisesFault (.shlw sd sx sa sb) .badShiftArg s ∧ raisesFault (.shrw sd sx sa sb) .badShiftArg s)

/-- DIV2BY1 divides a 2-limb value with `hi < d` by one limb; LIMB_RANGE before DIVISION_BY_ZERO, which a zero divisor
and `hi >= d` both raise (R100). -/
def Obligations.Div2by1DividesTwoLimbsByOne : Prop :=
  ∀ (sd sx sa sb sc : SReg) (s : State), s.running → sd ≠ sx →
    encodedAs (.div2by1 sd sx sa sb sc) .fdxabc ⟨0x17, sd, sx, sa, sb, 0#9 ++ sc⟩ ∧
    (s.word sb < BASE → s.word sc < BASE → s.word sa < s.word sc →
      ∃ t, exec (.div2by1 sd sx sa sb sc) s = .next t ∧ completedWriting [] [sd, sx] s t ∧
        s.word sa * BASE + s.word sb = t.word sd * s.word sc + t.word sx ∧ t.word sx < s.word sc ∧
        t.word sd < BASE) ∧
    (BASE ≤ s.word sb ∨ BASE ≤ s.word sc → raisesFault (.div2by1 sd sx sa sb sc) .limbRange s) ∧
    (s.word sb < BASE → s.word sc < BASE → s.word sc ≤ s.word sa →
      raisesFault (.div2by1 sd sx sa sb sc) .divisionByZero s)

/-! ### Natural layer -/

/-- NPARSE: exactly ND digit characters give one limb per chunk of 18, chunk `i` limb `i`, flag 0; any other text is
INVALID_FORMAT and changes nothing but CC (R111). -/
def Obligations.NparseReadsFixedLengthDigits : Prop :=
  ∀ (vd : VReg) (s : State), s.running →
    encodedAs (.nparse vd) .fd ⟨0x20, vd, 0, 0, 0, 0⟩ ∧
    (s.tlen = s.cfg.ND → s.text.all isDigit = true →
      ∃ t, exec (.nparse vd) s = .next t ∧ completedWriting [vd] [] s t ∧ (t.getV vd).sign = false ∧
        magWf s.cfg (t.mag vd) = true ∧
        ∀ i, i < s.cfg.N → (t.getV vd).limb i =
          ∑ j ∈ Finset.range 18, digitValue (s.text.getD (18 * i + j) 0#8) * 10 ^ (17 - j)) ∧
    (¬ (s.tlen = s.cfg.ND ∧ s.text.all isDigit = true) → completesInvalidFormat (.nparse vd) s)

/-- NFORMAT writes the ND digits of the magnitude, `T[18·i + j] = '0' + ((m[i] div 10^(17−j)) mod 10)`; NFORMAT then
NPARSE returns the same magnitude, and NPARSE then NFORMAT the same string (R112). That the digit characters are the
bytes 0x30 to 0x39 is what R44 states as general knowledge (notes/assumptions/13.md, PRESUMED). -/
def Obligations.NformatWritesAllDigits : Prop :=
  ∀ (va : VReg) (s : State), s.wf = true → s.running →
    encodedAs (.nformat va) .fa ⟨0x21, 0, 0, va, 0, 0⟩ ∧
    (∃ t, exec (.nformat va) s = .next t ∧ completedWritingText s t ∧ t.tlen = s.cfg.ND ∧
      ∀ i j, i < s.cfg.N → j < 18 →
        t.text[18 * i + j]? = some (BitVec.ofNat 8 (0x30 + (s.getV va).limb i / 10 ^ (17 - j) % 10))) ∧
    (∀ vd, ∃ t u, exec (.nformat va) s = .next t ∧ exec (.nparse vd) t = .next u ∧ u.mag vd = s.mag va) ∧
    (s.tlen = s.cfg.ND → s.text.all isDigit = true →
      ∃ t u, exec (.nparse va) s = .next t ∧ exec (.nformat va) t = .next u ∧ u.text = s.text)

/-- NEQ, NGT, NLT, NGE, NLE compare the numbers of the magnitudes, whatever the flags (R114 to R118). -/
def Obligations.NaturalComparisonsCompareMagnitudes : Prop :=
  ∀ (sd : SReg) (va vb : VReg) (s : State), s.wf = true → s.running →
    (encodedAs (.neq sd va vb) .fdab ⟨0x30, sd, 0, va, vb, 0⟩ ∧
      ∃ t, exec (.neq sd va vb) s = .next t ∧ completedWriting [] [sd] s t ∧
      t.word sd = if s.magVal va = s.magVal vb then 1 else 0) ∧
    (encodedAs (.ngt sd va vb) .fdab ⟨0x31, sd, 0, va, vb, 0⟩ ∧
      ∃ t, exec (.ngt sd va vb) s = .next t ∧ completedWriting [] [sd] s t ∧
      t.word sd = if s.magVal va > s.magVal vb then 1 else 0) ∧
    (encodedAs (.nlt sd va vb) .fdab ⟨0x32, sd, 0, va, vb, 0⟩ ∧
      ∃ t, exec (.nlt sd va vb) s = .next t ∧ completedWriting [] [sd] s t ∧
      t.word sd = if s.magVal va < s.magVal vb then 1 else 0) ∧
    (encodedAs (.nge sd va vb) .fdab ⟨0x33, sd, 0, va, vb, 0⟩ ∧
      ∃ t, exec (.nge sd va vb) s = .next t ∧ completedWriting [] [sd] s t ∧
      t.word sd = if s.magVal va ≥ s.magVal vb then 1 else 0) ∧
    (encodedAs (.nle sd va vb) .fdab ⟨0x34, sd, 0, va, vb, 0⟩ ∧
      ∃ t, exec (.nle sd va vb) s = .next t ∧ completedWriting [] [sd] s t ∧
      t.word sd = if s.magVal va ≤ s.magVal vb then 1 else 0)

/-- NADD adds or, when a carry escapes limb 0, raises CAPACITY_OVERFLOW (R125). -/
def Obligations.NaddAddsOrOverflows : Prop :=
  ∀ (vd va vb : VReg) (s : State), s.running →
    encodedAs (.nadd vd va vb) .fdab ⟨0x22, vd, 0, va, vb, 0⟩ ∧
    (s.magVal va + s.magVal vb < s.cfg.CAP →
      ∃ t, exec (.nadd vd va vb) s = .next t ∧ completedWriting [vd] [] s t ∧
        holds s.cfg false (s.magVal va + s.magVal vb) (t.getV vd)) ∧
    (s.cfg.CAP ≤ s.magVal va + s.magVal vb → raisesFault (.nadd vd va vb) .capacityOverflow s)

/-- NCOMPL gives the nines' complement, each limb `BASE − 1 − a[i]`, the number `CAP − 1 − val(a)` (R127). -/
def Obligations.NcomplComplementsEveryLimb : Prop :=
  ∀ (vd va : VReg) (s : State), s.wf = true → s.running →
    encodedAs (.ncompl vd va) .fda ⟨0x24, vd, 0, va, 0, 0⟩ ∧
    ∃ t, exec (.ncompl vd va) s = .next t ∧ completedWriting [vd] [] s t ∧
      holds s.cfg false (s.cfg.CAP - 1 - s.magVal va) (t.getV vd) ∧
      ∀ i, i < s.cfg.N → (t.getV vd).limb i = BASE - 1 - (s.getV va).limb i

/-- NSUB subtracts or, when `a < b`, raises SUB_UNDERFLOW (R128). -/
def Obligations.NsubSubtractsOrUnderflows : Prop :=
  ∀ (vd va vb : VReg) (s : State), s.wf = true → s.running →
    encodedAs (.nsub vd va vb) .fdab ⟨0x23, vd, 0, va, vb, 0⟩ ∧
    (s.magVal vb ≤ s.magVal va →
      ∃ t, exec (.nsub vd va vb) s = .next t ∧ completedWriting [vd] [] s t ∧
        holds s.cfg false (s.magVal va - s.magVal vb) (t.getV vd)) ∧
    (s.magVal va < s.magVal vb → raisesFault (.nsub vd va vb) .subUnderflow s)

/-- NSHLL and NSHRL move the number by `k` whole limbs, the part shifted out in the second destination as a plain
number; BAD_SHIFT_ARG when `k > N` (R136, R137). -/
def Obligations.LimbShiftsDropNothing : Prop :=
  ∀ (vd vx va : VReg) (sb : SReg) (s : State), s.wf = true → s.running → vd ≠ vx →
    encodedAs (.nshll vd vx va sb) .fdxab ⟨0x25, vd, vx, va, sb, 0⟩ ∧
    encodedAs (.nshrl vd vx va sb) .fdxab ⟨0x26, vd, vx, va, sb, 0⟩ ∧
    (s.word sb ≤ s.cfg.N →
      (∃ t, exec (.nshll vd vx va sb) s = .next t ∧ completedWriting [vd, vx] [] s t ∧
        holds s.cfg false (s.magVal va * BASE ^ s.word sb % s.cfg.CAP) (t.getV vd) ∧
        holds s.cfg false (s.magVal va * BASE ^ s.word sb / s.cfg.CAP) (t.getV vx) ∧
        s.magVal va * BASE ^ s.word sb = t.magVal vx * s.cfg.CAP + t.magVal vd ∧
        (∀ i, i < s.cfg.N → (t.getV vd).limb i =
          if i + s.word sb ≤ s.cfg.N - 1 then (s.getV va).limb (i + s.word sb) else 0) ∧
        (∀ i, i < s.cfg.N → (t.getV vx).limb i =
          if s.cfg.N - s.word sb ≤ i then (s.getV va).limb (i - (s.cfg.N - s.word sb)) else 0)) ∧
      (∃ t, exec (.nshrl vd vx va sb) s = .next t ∧ completedWriting [vd, vx] [] s t ∧
        holds s.cfg false (s.magVal va / BASE ^ s.word sb) (t.getV vd) ∧
        holds s.cfg false (s.magVal va % BASE ^ s.word sb) (t.getV vx) ∧
        s.magVal va = t.magVal vd * BASE ^ s.word sb + t.magVal vx ∧
        (∀ i, i < s.cfg.N → (t.getV vd).limb i =
          if s.word sb ≤ i then (s.getV va).limb (i - s.word sb) else 0) ∧
        (∀ i, i < s.cfg.N → (t.getV vx).limb i =
          if s.cfg.N - s.word sb ≤ i then (s.getV va).limb i else 0))) ∧
    (s.cfg.N < s.word sb →
      raisesFault (.nshll vd vx va sb) .badShiftArg s ∧ raisesFault (.nshrl vd vx va sb) .badShiftArg s)

/-- NSHLD and NSHRD move the number by `k` decimal digits, the part shifted out in the second destination as a plain
number; BAD_SHIFT_ARG when `k > ND` (R138, R139). -/
def Obligations.DigitShiftsDropNothing : Prop :=
  ∀ (vd vx va : VReg) (sb : SReg) (s : State), s.wf = true → s.running → vd ≠ vx →
    encodedAs (.nshld vd vx va sb) .fdxab ⟨0x27, vd, vx, va, sb, 0⟩ ∧
    encodedAs (.nshrd vd vx va sb) .fdxab ⟨0x28, vd, vx, va, sb, 0⟩ ∧
    (s.word sb ≤ s.cfg.ND →
      (∃ t, exec (.nshld vd vx va sb) s = .next t ∧ completedWriting [vd, vx] [] s t ∧
        holds s.cfg false (s.magVal va * 10 ^ s.word sb % s.cfg.CAP) (t.getV vd) ∧
        holds s.cfg false (s.magVal va * 10 ^ s.word sb / s.cfg.CAP) (t.getV vx) ∧
        s.magVal va * 10 ^ s.word sb = t.magVal vx * s.cfg.CAP + t.magVal vd) ∧
      (∃ t, exec (.nshrd vd vx va sb) s = .next t ∧ completedWriting [vd, vx] [] s t ∧
        holds s.cfg false (s.magVal va / 10 ^ s.word sb) (t.getV vd) ∧
        holds s.cfg false (s.magVal va % 10 ^ s.word sb) (t.getV vx) ∧
        s.magVal va = t.magVal vd * 10 ^ s.word sb + t.magVal vx)) ∧
    (s.cfg.ND < s.word sb →
      raisesFault (.nshld vd vx va sb) .badShiftArg s ∧ raisesFault (.nshrd vd vx va sb) .badShiftArg s)

/-- NMULL is exact in N + 1 limbs, LIMB_RANGE for a word that is no limb (R145); NMUL is exact in 2N limbs and never
faults (R147). -/
def Obligations.NaturalMultiplyIsExact : Prop :=
  ∀ (vd vx va vb : VReg) (sx sb : SReg) (s : State), s.wf = true → s.running →
    encodedAs (.nmull vd sx va sb) .fdxab ⟨0x29, vd, sx, va, sb, 0⟩ ∧
    encodedAs (.nmul vd vx va vb) .fdxab ⟨0x2A, vd, vx, va, vb, 0⟩ ∧
    (s.word sb < BASE →
      ∃ t, exec (.nmull vd sx va sb) s = .next t ∧ completedWriting [vd] [sx] s t ∧
        holds s.cfg false (s.magVal va * s.word sb % s.cfg.CAP) (t.getV vd) ∧
        t.word sx = s.magVal va * s.word sb / s.cfg.CAP ∧ t.word sx < BASE ∧
        s.magVal va * s.word sb = t.word sx * s.cfg.CAP + t.magVal vd) ∧
    (BASE ≤ s.word sb → raisesFault (.nmull vd sx va sb) .limbRange s) ∧
    (vd ≠ vx →
      ∃ t, exec (.nmul vd vx va vb) s = .next t ∧ completedWriting [vd, vx] [] s t ∧
        holds s.cfg false (s.magVal va * s.magVal vb % s.cfg.CAP) (t.getV vd) ∧
        holds s.cfg false (s.magVal va * s.magVal vb / s.cfg.CAP) (t.getV vx) ∧
        s.magVal va * s.magVal vb = t.magVal vx * s.cfg.CAP + t.magVal vd)

/-- NDIVL and NDIV give the floor quotient and the remainder; a zero divisor raises DIVISION_BY_ZERO, after LIMB_RANGE
for NDIVL (R155, R157). -/
def Obligations.NaturalDivideIsEuclidean : Prop :=
  ∀ (vd vx va vb : VReg) (sx sb : SReg) (s : State), s.wf = true → s.running →
    encodedAs (.ndivl vd sx va sb) .fdxab ⟨0x2B, vd, sx, va, sb, 0⟩ ∧
    encodedAs (.ndiv vd vx va vb) .fdxab ⟨0x2C, vd, vx, va, vb, 0⟩ ∧
    (s.word sb < BASE → s.word sb ≠ 0 →
      ∃ t, exec (.ndivl vd sx va sb) s = .next t ∧ completedWriting [vd] [sx] s t ∧
        holds s.cfg false (s.magVal va / s.word sb) (t.getV vd) ∧ t.word sx = s.magVal va % s.word sb ∧
        s.magVal va = t.magVal vd * s.word sb + t.word sx ∧ t.word sx < s.word sb) ∧
    (BASE ≤ s.word sb → raisesFault (.ndivl vd sx va sb) .limbRange s) ∧
    (s.word sb = 0 → raisesFault (.ndivl vd sx va sb) .divisionByZero s) ∧
    (vd ≠ vx → s.magVal vb ≠ 0 →
      ∃ t, exec (.ndiv vd vx va vb) s = .next t ∧ completedWriting [vd, vx] [] s t ∧
        holds s.cfg false (s.magVal va / s.magVal vb) (t.getV vd) ∧
        holds s.cfg false (s.magVal va % s.magVal vb) (t.getV vx) ∧
        s.magVal va = t.magVal vd * s.magVal vb + t.magVal vx ∧ t.magVal vx < s.magVal vb) ∧
    (vd ≠ vx → s.magVal vb = 0 → raisesFault (.ndiv vd vx va vb) .divisionByZero s)

/-! ### Integer layer -/

/-- IADD adds signed values, ISUB subtracts them: the stored flags dispatch, the larger magnitude gives the flag, the
first operand on a tie; CAPACITY_OVERFLOW only when the magnitudes are added and leave N limbs (R171, R172, R174). -/
def Obligations.IaddAndIsubAddSignedValues : Prop :=
  ∀ (vd va vb : VReg) (s : State), s.wf = true → s.running →
    let a := s.getV va
    let b := s.getV vb
    encodedAs (.iadd vd va vb) .fdab ⟨0x40, vd, 0, va, vb, 0⟩ ∧
    encodedAs (.isub vd va vb) .fdab ⟨0x41, vd, 0, va, vb, 0⟩ ∧
    ((a.sign = b.sign → val a.mag + val b.mag < s.cfg.CAP) →
      ∃ t, exec (.iadd vd va vb) s = .next t ∧ completedWriting [vd] [] s t ∧ magWf s.cfg (t.mag vd) = true ∧
        sval (t.getV vd) = sval a + sval b ∧
        (t.getV vd).sign = if a.sign = b.sign then a.sign else if val a.mag < val b.mag then b.sign else a.sign) ∧
    (a.sign = b.sign → s.cfg.CAP ≤ val a.mag + val b.mag → raisesFault (.iadd vd va vb) .capacityOverflow s) ∧
    ((a.sign ≠ b.sign → val a.mag + val b.mag < s.cfg.CAP) →
      ∃ t, exec (.isub vd va vb) s = .next t ∧ completedWriting [vd] [] s t ∧ magWf s.cfg (t.mag vd) = true ∧
        sval (t.getV vd) = sval a - sval b ∧
        (t.getV vd).sign = if a.sign ≠ b.sign then a.sign else if val a.mag < val b.mag then !b.sign else a.sign) ∧
    (a.sign ≠ b.sign → s.cfg.CAP ≤ val a.mag + val b.mag → raisesFault (.isub vd va vb) .capacityOverflow s)

/-- INEG toggles the flag and copies the magnitude, zero not special-cased (R173). -/
def Obligations.InegTogglesTheFlag : Prop :=
  ∀ (vd va : VReg) (s : State), s.running →
    encodedAs (.ineg vd va) .fda ⟨0x42, vd, 0, va, 0, 0⟩ ∧
    ∃ t, exec (.ineg vd va) s = .next t ∧ completedWriting [vd] [] s t ∧
      (t.getV vd).sign = !(s.getV va).sign ∧ t.mag vd = s.mag va ∧ sval (t.getV vd) = -sval (s.getV va)

/-- IMUL multiplies the magnitudes exactly in two registers; the product's flag is the XOR, the overflow's 0 (R175). -/
def Obligations.ImulMultipliesSignedValues : Prop :=
  ∀ (vd vx va vb : VReg) (s : State), s.wf = true → s.running → vd ≠ vx →
    encodedAs (.imul vd vx va vb) .fdxab ⟨0x43, vd, vx, va, vb, 0⟩ ∧
    ∃ t, exec (.imul vd vx va vb) s = .next t ∧ completedWriting [vd, vx] [] s t ∧
      holds s.cfg ((s.getV va).sign ^^ (s.getV vb).sign) (s.magVal va * s.magVal vb % s.cfg.CAP) (t.getV vd) ∧
      holds s.cfg false (s.magVal va * s.magVal vb / s.cfg.CAP) (t.getV vx) ∧
      s.magVal va * s.magVal vb = t.magVal vx * s.cfg.CAP + t.magVal vd ∧
      (t.magVal vx = 0 → sval (t.getV vd) = sval (s.getV va) * sval (s.getV vb))

/-- IDIV truncates toward zero; the quotient's flag is the XOR, 0 for a zero dividend; the remainder is a magnitude
with flag 0; a zero divisor raises DIVISION_BY_ZERO (R176). -/
def Obligations.IdivDividesSignedValues : Prop :=
  ∀ (vd vx va vb : VReg) (s : State), s.wf = true → s.running → vd ≠ vx →
    encodedAs (.idiv vd vx va vb) .fdxab ⟨0x44, vd, vx, va, vb, 0⟩ ∧
    (s.magVal vb ≠ 0 →
      ∃ t, exec (.idiv vd vx va vb) s = .next t ∧ completedWriting [vd, vx] [] s t ∧
        holds s.cfg (if s.magVal va = 0 then false else (s.getV va).sign ^^ (s.getV vb).sign)
          (s.magVal va / s.magVal vb) (t.getV vd) ∧
        holds s.cfg false (s.magVal va % s.magVal vb) (t.getV vx) ∧
        sval (t.getV vd) = (sval (s.getV va)).tdiv (sval (s.getV vb)) ∧
        s.magVal va = t.magVal vd * s.magVal vb + t.magVal vx) ∧
    (s.magVal vb = 0 → raisesFault (.idiv vd vx va vb) .divisionByZero s)

/-- `icmp` is LT, EQ, GT exactly as the signed values, in which negative zero is zero, compare (R177); IEQ, IGT, ILT, IGE,
ILE answer 1 or 0 by it (R178 to R182). -/
def Obligations.IntegerComparisonsCompareSignedValues : Prop :=
  ∀ (sd : SReg) (va vb : VReg) (s : State), s.wf = true → s.running →
    icmp (s.getV va) (s.getV vb) = compare (sval (s.getV va)) (sval (s.getV vb)) ∧
    (encodedAs (.ieq sd va vb) .fdab ⟨0x48, sd, 0, va, vb, 0⟩ ∧
      ∃ t, exec (.ieq sd va vb) s = .next t ∧ completedWriting [] [sd] s t ∧
      t.word sd = if sval (s.getV va) = sval (s.getV vb) then 1 else 0) ∧
    (encodedAs (.igt sd va vb) .fdab ⟨0x49, sd, 0, va, vb, 0⟩ ∧
      ∃ t, exec (.igt sd va vb) s = .next t ∧ completedWriting [] [sd] s t ∧
      t.word sd = if sval (s.getV va) > sval (s.getV vb) then 1 else 0) ∧
    (encodedAs (.ilt sd va vb) .fdab ⟨0x4A, sd, 0, va, vb, 0⟩ ∧
      ∃ t, exec (.ilt sd va vb) s = .next t ∧ completedWriting [] [sd] s t ∧
      t.word sd = if sval (s.getV va) < sval (s.getV vb) then 1 else 0) ∧
    (encodedAs (.ige sd va vb) .fdab ⟨0x4B, sd, 0, va, vb, 0⟩ ∧
      ∃ t, exec (.ige sd va vb) s = .next t ∧ completedWriting [] [sd] s t ∧
      t.word sd = if sval (s.getV va) ≥ sval (s.getV vb) then 1 else 0) ∧
    (encodedAs (.ile sd va vb) .fdab ⟨0x4C, sd, 0, va, vb, 0⟩ ∧
      ∃ t, exec (.ile sd va vb) s = .next t ∧ completedWriting [] [sd] s t ∧
      t.word sd = if sval (s.getV va) ≤ sval (s.getV vb) then 1 else 0)

/-! ### Decimal layer -/

/-- DPARSE: a text of the grammar R191 gives its number scaled to F fractional digits, flag set exactly when it starts
with `'-'`; any other text is INVALID_FORMAT and changes nothing but CC (R191, R192). -/
def Obligations.DparseReadsTheDecimalGrammar : Prop :=
  ∀ (vd : VReg) (s : State), s.cfg.wf = true → s.running →
    encodedAs (.dparse vd) .fd ⟨0x50, vd, 0, 0, 0, 0⟩ ∧
    (∀ isNeg ip fp, isDecimalText s.cfg s.text isNeg ip fp →
      ∃ t, exec (.dparse vd) s = .next t ∧ completedWriting [vd] [] s t ∧
        holds s.cfg isNeg (digitsValue ip * 10 ^ s.cfg.F + digitsValue fp * 10 ^ (s.cfg.F - fp.length)) (t.getV vd)) ∧
    ((∀ isNeg ip fp, ¬ isDecimalText s.cfg s.text isNeg ip fp) → completesInvalidFormat (.dparse vd) s)

/-- DFORMAT writes the canonical text: `"0"` for a zero magnitude, else sign, integer digits without leading zeros but
at least one, and, only for a number that is not whole, a point and fractional digits without trailing zeros (R193). -/
def Obligations.DformatWritesTheCanonicalText : Prop :=
  ∀ (va : VReg) (s : State), s.wf = true → s.running →
    encodedAs (.dformat va) .fa ⟨0x51, 0, 0, va, 0, 0⟩ ∧
    ∃ t, exec (.dformat va) s = .next t ∧ completedWritingText s t ∧ t.tlen ≤ s.cfg.TMAX ∧
      (s.magVal va = 0 → t.text = [zeroChar]) ∧
      (s.magVal va ≠ 0 → ∃ ip fp, isDecimalText s.cfg t.text (s.getV va).sign ip fp ∧
        t.text = (if (s.getV va).sign then [minusChar] else []) ++ ip ++ (if fp = [] then [] else pointChar :: fp) ∧
        digitsValue ip * 10 ^ s.cfg.F + digitsValue fp * 10 ^ (s.cfg.F - fp.length) = s.magVal va ∧
        (ip = [zeroChar] ∨ ip.head? ≠ some zeroChar) ∧ fp.getLast? ≠ some zeroChar)

/-- DFORMAT then DPARSE gives an equal Decimal, and the same register contents but for a negative zero, which comes
back as positive zero (R193: "`parse(format(a)) == a`"). -/
def Obligations.FormatThenParseGivesTheDecimalBack : Prop :=
  ∀ (va vd : VReg) (s : State), s.wf = true → s.running →
    ∃ t u, exec (.dformat va) s = .next t ∧ exec (.dparse vd) t = .next u ∧
      sval (u.getV vd) = sval (s.getV va) ∧ (s.magVal va ≠ 0 → u.getV vd = s.getV va) ∧
      (s.magVal va = 0 → u.getV vd = Value.zero s.cfg)

/-- DADD has IADD's effect and DSUB ISUB's: each answers the state the other answers where that one completes, and
raises CAPACITY_OVERFLOW where that one does (R194, R195). -/
def Obligations.DaddAndDsubAreIaddAndIsub : Prop :=
  ∀ (vd va vb : VReg) (s : State), s.wf = true → s.running →
    let a := s.getV va
    let b := s.getV vb
    encodedAs (.dadd vd va vb) .fdab ⟨0x52, vd, 0, va, vb, 0⟩ ∧
    encodedAs (.dsub vd va vb) .fdab ⟨0x53, vd, 0, va, vb, 0⟩ ∧
    ((a.sign = b.sign → val a.mag + val b.mag < s.cfg.CAP) →
      ∃ t, exec (.dadd vd va vb) s = .next t ∧ exec (.iadd vd va vb) s = .next t ∧ completedWriting [vd] [] s t ∧
        sval (t.getV vd) = sval a + sval b) ∧
    (a.sign = b.sign → s.cfg.CAP ≤ val a.mag + val b.mag →
      raisesFault (.dadd vd va vb) .capacityOverflow s ∧ raisesFault (.iadd vd va vb) .capacityOverflow s) ∧
    ((a.sign ≠ b.sign → val a.mag + val b.mag < s.cfg.CAP) →
      ∃ t, exec (.dsub vd va vb) s = .next t ∧ exec (.isub vd va vb) s = .next t ∧ completedWriting [vd] [] s t ∧
        sval (t.getV vd) = sval a - sval b) ∧
    (a.sign ≠ b.sign → s.cfg.CAP ≤ val a.mag + val b.mag →
      raisesFault (.dsub vd va vb) .capacityOverflow s ∧ raisesFault (.isub vd va vb) .capacityOverflow s)

/-- DMUL truncates the exact product by F digits; CAPACITY_OVERFLOW exactly when the truncated product leaves N limbs;
the flag is the XOR (R215). -/
def Obligations.DmulTruncatesTheExactProduct : Prop :=
  ∀ (vd va vb : VReg) (s : State), s.running →
    encodedAs (.dmul vd va vb) .fdab ⟨0x54, vd, 0, va, vb, 0⟩ ∧
    (s.magVal va * s.magVal vb / s.cfg.SC < s.cfg.CAP →
      ∃ t, exec (.dmul vd va vb) s = .next t ∧ completedWriting [vd] [] s t ∧
        holds s.cfg ((s.getV va).sign ^^ (s.getV vb).sign) (s.magVal va * s.magVal vb / s.cfg.SC) (t.getV vd)) ∧
    (s.cfg.CAP ≤ s.magVal va * s.magVal vb / s.cfg.SC → raisesFault (.dmul vd va vb) .capacityOverflow s)

/-- DDIV rounds the exact quotient `A·SC / B` half up; DIVISION_BY_ZERO before CAPACITY_OVERFLOW; the flag is the XOR,
0 for a zero dividend (R217). -/
def Obligations.DdivRoundsTheExactQuotientHalfUp : Prop :=
  ∀ (vd va vb : VReg) (s : State), s.running →
    let d := s.magVal va * s.cfg.SC
    let b := s.magVal vb
    let q := if 2 * (d % b) ≥ b then d / b + 1 else d / b
    encodedAs (.ddiv vd va vb) .fdab ⟨0x55, vd, 0, va, vb, 0⟩ ∧
    (b ≠ 0 → q < s.cfg.CAP →
      ∃ t, exec (.ddiv vd va vb) s = .next t ∧ completedWriting [vd] [] s t ∧
        holds s.cfg (if s.magVal va = 0 then false else (s.getV va).sign ^^ (s.getV vb).sign) q (t.getV vd) ∧
        2 * d < (2 * t.magVal vd + 1) * b ∧ 2 * t.magVal vd * b ≤ 2 * d + b) ∧
    (b = 0 → raisesFault (.ddiv vd va vb) .divisionByZero s) ∧
    (b ≠ 0 → s.cfg.CAP ≤ q → raisesFault (.ddiv vd va vb) .capacityOverflow s)

/-- DISZERO tests the magnitude, whatever the flag (R196); DCONST loads zero, one, two or one-half with flag 0, and
raises BAD_INDEX for an index above 3 and for one-half when K = 0 (R210, R33). -/
def Obligations.DiszeroTestsAndDconstLoads : Prop :=
  ∀ (sd : SReg) (vd va : VReg) (idx : Imm) (s : State), s.cfg.wf = true → s.running →
    (encodedAs (.diszero sd va) .fda ⟨0x56, sd, 0, va, 0, 0⟩ ∧
      ∃ t, exec (.diszero sd va) s = .next t ∧ completedWriting [] [sd] s t ∧
      t.word sd = if s.magVal va = 0 then 1 else 0) ∧
    encodedAs (.dconst vd idx) .fdi ⟨0x57, vd, 0, 0, 0, idx⟩ ∧
    (idx.toNat ≤ 3 → (idx.toNat = 3 → s.cfg.K ≠ 0) →
      ∃ t, exec (.dconst vd idx) s = .next t ∧ completedWriting [vd] [] s t ∧ (t.getV vd).sign = false ∧
        magWf s.cfg (t.mag vd) = true ∧
        (idx.toNat ≤ 2 → val (t.mag vd) = idx.toNat * s.cfg.SC) ∧ (idx.toNat = 3 → 2 * val (t.mag vd) = s.cfg.SC) ∧
        ∀ j, j < s.cfg.N → (t.getV vd).limb j =
          if idx.toNat = 3 then (if j = s.cfg.N - s.cfg.K then 500000000000000000 else 0)
          else (if j = s.cfg.N - s.cfg.K - 1 then idx.toNat else 0)) ∧
    (3 < idx.toNat ∨ (idx.toNat = 3 ∧ s.cfg.K = 0) → raisesFault (.dconst vd idx) .badIndex s)

/-- DEQ, DGT, DLT, DGE, DLE are IEQ, IGT, ILT, IGE, ILE: they compare the signed values (R197 to R201). -/
def Obligations.DecimalComparisonsCompareSignedValues : Prop :=
  ∀ (sd : SReg) (va vb : VReg) (s : State), s.wf = true → s.running →
    (encodedAs (.deq sd va vb) .fdab ⟨0x58, sd, 0, va, vb, 0⟩ ∧ ∃ t, exec (.deq sd va vb) s = .next t ∧
      exec (.ieq sd va vb) s = .next t ∧ completedWriting [] [sd] s t ∧
      t.word sd = if sval (s.getV va) = sval (s.getV vb) then 1 else 0) ∧
    (encodedAs (.dgt sd va vb) .fdab ⟨0x59, sd, 0, va, vb, 0⟩ ∧ ∃ t, exec (.dgt sd va vb) s = .next t ∧
      exec (.igt sd va vb) s = .next t ∧ completedWriting [] [sd] s t ∧
      t.word sd = if sval (s.getV va) > sval (s.getV vb) then 1 else 0) ∧
    (encodedAs (.dlt sd va vb) .fdab ⟨0x5A, sd, 0, va, vb, 0⟩ ∧ ∃ t, exec (.dlt sd va vb) s = .next t ∧
      exec (.ilt sd va vb) s = .next t ∧ completedWriting [] [sd] s t ∧
      t.word sd = if sval (s.getV va) < sval (s.getV vb) then 1 else 0) ∧
    (encodedAs (.dge sd va vb) .fdab ⟨0x5B, sd, 0, va, vb, 0⟩ ∧ ∃ t, exec (.dge sd va vb) s = .next t ∧
      exec (.ige sd va vb) s = .next t ∧ completedWriting [] [sd] s t ∧
      t.word sd = if sval (s.getV va) ≥ sval (s.getV vb) then 1 else 0) ∧
    (encodedAs (.dle sd va vb) .fdab ⟨0x5C, sd, 0, va, vb, 0⟩ ∧ ∃ t, exec (.dle sd va vb) s = .next t ∧
      exec (.ile sd va vb) s = .next t ∧ completedWriting [] [sd] s t ∧
      t.word sd = if sval (s.getV va) ≤ sval (s.getV vb) then 1 else 0)

/-! ### Datapaths meet their contracts -/

/-- The half-product scheme of R94 gives MULW's pair, and every intermediate is within the bound the rule gives. -/
def Obligations.HalfProductDatapathMultiplies : Prop :=
  ∀ a b : Nat, a < BASE → b < BASE →
    multiplyWordDatapath a b = multiplyWord a b ∧
    (halfProducts a b).phh < 10 ^ 18 ∧ (halfProducts a b).phl < 10 ^ 18 ∧ (halfProducts a b).plh < 10 ^ 18 ∧
    (halfProducts a b).pll < 10 ^ 18 ∧ (halfProducts a b).mid < 2 * 10 ^ 18 ∧ (halfProducts a b).mh < 2 * 10 ^ 9 ∧
    (halfProducts a b).ml < 10 ^ 9 ∧ (halfProducts a b).low0 < 2 * 10 ^ 18 ∧ 2 * 10 ^ 18 < 2 ^ 61

/-- The normalise, estimate and correct datapath of R101, gives DIV2BY1's quotient and remainder.
That each correction loop is written with a bound of 11 passes is the model's (notes/assumptions/12.md, DEDUCED). -/
def Obligations.EstimateAndCorrectDatapathDivides : Prop :=
  ∀ hi lo d : Nat, lo < BASE → d < BASE → hi < d → divTwoByOneDatapath hi lo d = divTwoByOne hi lo d

/-- The ripple adder of R126 meets NADD's contract and the complement pipeline of R129 meets NSUB's, faults
included. -/
def Obligations.AdderAndComplementPipelineMeetTheirContracts : Prop :=
  ∀ (c : Config) (a b : List Word), magWf c a = true → magWf c b = true →
    addDatapath a b = addMag c a b ∧ subDatapath a b = subMag c a b

/-- The composition of a whole-limb shift with a within-limb shift (R140) gives the numbers of R138 and R139. R140 calls
the right shift's final carry the low digits of the loss; the datapath places it above the limbs shifted out whole, so
that R139 holds: the model's reading (notes/assumptions/12.md, DEDUCED). -/
def Obligations.DigitShiftDatapathsMeetTheirContracts : Prop :=
  ∀ (c : Config) (a : List Word) (k : Nat), magWf c a = true → k ≤ c.ND →
    shiftLeftDatapath c a k = (nat c.N (val a * 10 ^ k % c.CAP), nat c.N (val a * 10 ^ k / c.CAP)) ∧
    shiftRightDatapath c a k = (nat c.N (val a / 10 ^ k), nat c.N (val a % 10 ^ k))

/-- The limb-by-limb multiplier of R146 meets NMULL's contract, and the schoolbook accumulation of R148 NMUL's.
The accumulator `ovf` of R148 is a number, not a limb list: the model's choice (notes/assumptions/12.md, DEDUCED). -/
def Obligations.SchoolbookMultiplierMeetsItsContract : Prop :=
  ∀ (c : Config) (a b : List Word) (w : Nat), magWf c a = true → magWf c b = true → w < BASE →
    mulLimbDatapath w a = (nat c.N (val a * w % c.CAP), val a * w / c.CAP) ∧ mulDatapath c a b = mulMag c a b

/-- Short division (R156) meets NDIVL's contract; the fast paths and the normalised long division (R158, R159)
meet NDIV's. The bound of 11 passes on the correction loop and the running remainder held as a number are the model's
(notes/assumptions/12.md, DEDUCED). -/
def Obligations.LongDivisionMeetsItsContract : Prop :=
  ∀ (c : Config) (a b : List Word) (d : Nat), magWf c a = true → magWf c b = true → 0 < d → d < BASE →
    divLimbDatapath d 0 a = (nat c.N (val a / d), val a % d) ∧ divDatapath c a b = divMag c a b

/-- DMUL's staging of R216 and DDIV's divider of N + K limbs of R218 meet the contracts of R215 and R217, faults
included. DDIV's divider is the model's long division of R159, with the bound and the running remainder of
notes/assumptions/12.md (DEDUCED). -/
def Obligations.DecimalDatapathsMeetTheirContracts : Prop :=
  ∀ (c : Config) (x y : Value), c.wf = true → Value.wf c x = true → Value.wf c y = true →
    mulDecDatapath c x y = mulDec c x y ∧ divDecDatapath c x y = divDec c x y
end

