-- ==== Sys2Proof/Laws/Numbers.lean ====
section
/-! SUPPORT. What `val`, `nat`, `ncmp`, `sval` and `icmp` compute (00_scope.md R10, R11; R113, R177): the lemmas that
turn a statement about limbs into one about numbers. -/

namespace Sys2Proof.Machine

open Sys2Proof

theorem BASE_eq : BASE = 10 ^ LD := by decide

theorem BASE_pos : 0 < BASE := by decide

theorem HB_sq : HB * HB = BASE := by decide

theorem BASE_lt_word : BASE < 2 ^ 64 := by decide

theorem BASE_pow_pos (n : Nat) : 0 < BASE ^ n := Nat.pow_pos BASE_pos

theorem CAP_pos (c : Config) : 0 < c.CAP := BASE_pow_pos _

theorem SC_pos (c : Config) : 0 < c.SC := BASE_pow_pos _

/-- `CAP = 10^ND` (R6). -/
theorem CAP_eq (c : Config) : c.CAP = 10 ^ c.ND := by
  rw [Config.CAP, Config.ND, BASE_eq, ← Nat.pow_mul, Nat.mul_comm]

/-- `SC = 10^F` (R6). -/
theorem SC_eq (c : Config) : c.SC = 10 ^ c.F := by
  rw [Config.SC, Config.F, BASE_eq, ← Nat.pow_mul, Nat.mul_comm]

/-- A number below BASE fits a word unchanged. -/
theorem toNat_ofNat_of_lt_BASE {n : Nat} (h : n < BASE) : (BitVec.ofNat 64 n).toNat = n := by
  rw [BitVec.toNat_ofNat, Nat.mod_eq_of_lt (lt_trans h BASE_lt_word)]

@[simp] theorem val_nil : val [] = 0 := rfl

theorem val_cons (l : Word) (ls : List Word) : val (l :: ls) = l.toNat * BASE ^ ls.length + val ls := rfl

theorem val_append (as bs : List Word) : val (as ++ bs) = val as * BASE ^ bs.length + val bs := by
  induction as with
  | nil => simp
  | cons a as ih => rw [List.cons_append, val_cons, val_cons, ih, List.length_append, Nat.pow_add]; ring

@[simp] theorem val_replicate_zero (n : Nat) : val (List.replicate n 0#64) = 0 := by
  induction n with
  | zero => rfl
  | succ n ih => rw [List.replicate_succ, val_cons, ih]; simp

@[simp] theorem nat_length (n v : Nat) : (nat n v).length = n := by
  induction n with
  | zero => rfl
  | succ n ih => simp [nat, ih]

/-- Every limb of `nat` is below BASE (R22). -/
theorem nat_limb_lt {n v : Nat} {l : Word} (h : l ∈ nat n v) : l.toNat < BASE := by
  induction n with
  | zero => simp [nat] at h
  | succ n ih =>
    rcases List.mem_cons.mp h with rfl | h
    · rw [toNat_ofNat_of_lt_BASE (Nat.mod_lt _ BASE_pos)]; exact Nat.mod_lt _ BASE_pos
    · exact ih h

theorem val_nat_mod (n v : Nat) : val (nat n v) = v % BASE ^ n := by
  induction n with
  | zero => simp [nat, Nat.mod_one]
  | succ n ih =>
    rw [nat, val_cons, ih, nat_length, toNat_ofNat_of_lt_BASE (Nat.mod_lt _ BASE_pos), Nat.pow_succ,
      Nat.mod_mul, Nat.mul_comm]
    ring

/-- "the unique limb sequence with `val(nat(v)) = v`" (R10). -/
theorem val_nat {n v : Nat} (h : v < BASE ^ n) : val (nat n v) = v := by
  rw [val_nat_mod, Nat.mod_eq_of_lt h]

theorem magWf_iff (c : Config) (m : List Word) :
    magWf c m = true ↔ m.length = c.N ∧ ∀ l ∈ m, l.toNat < BASE := by
  simp [magWf]

theorem magWf_nat (c : Config) (v : Nat) : magWf c (nat c.N v) = true :=
  (magWf_iff _ _).mpr ⟨nat_length _ _, fun _ h => nat_limb_lt h⟩

/-- A magnitude within the limb invariant is below `BASE^length` (R10). -/
theorem val_lt_of_limbs {m : List Word} (h : ∀ l ∈ m, l.toNat < BASE) : val m < BASE ^ m.length := by
  induction m with
  | nil => simp
  | cons l ls ih =>
    have hl := h l (by simp)
    have hr := ih (fun x hx => h x (by simp [hx]))
    rw [val_cons, List.length_cons, Nat.pow_succ]
    calc l.toNat * BASE ^ ls.length + val ls < l.toNat * BASE ^ ls.length + BASE ^ ls.length := by omega
      _ = (l.toNat + 1) * BASE ^ ls.length := by ring
      _ ≤ BASE * BASE ^ ls.length := Nat.mul_le_mul_right _ hl
      _ = BASE ^ ls.length * BASE := Nat.mul_comm _ _

theorem val_lt_CAP {c : Config} {m : List Word} (h : magWf c m = true) : val m < c.CAP := by
  obtain ⟨hl, hb⟩ := (magWf_iff _ _).mp h
  rw [Config.CAP, ← hl]; exact val_lt_of_limbs hb

/-- Limbs in range are the limbs of their number (R10). -/
theorem nat_val {m : List Word} (h : ∀ l ∈ m, l.toNat < BASE) : nat m.length (val m) = m := by
  induction m with
  | nil => rfl
  | cons l ls ih =>
    have hl := h l (by simp)
    have hls : ∀ x ∈ ls, x.toNat < BASE := fun x hx => h x (by simp [hx])
    have hv := val_lt_of_limbs hls
    have hd : (l.toNat * BASE ^ ls.length + val ls) / BASE ^ ls.length = l.toNat := by
      rw [Nat.mul_comm, Nat.mul_add_div (BASE_pow_pos _), Nat.div_eq_of_lt hv, Nat.add_zero]
    have hmod : ∀ n v k, nat n (k * BASE ^ n + v) = nat n v := by
      intro n
      induction n with
      | zero => intros; rfl
      | succ n ihn =>
        intro v k
        have e : k * BASE ^ (n + 1) + v = (k * BASE) * BASE ^ n + v := by ring
        rw [nat, nat, e, ihn]
        congr 2
        rw [show (k * BASE) * BASE ^ n + v = BASE ^ n * (k * BASE) + v by ring,
          Nat.mul_add_div (BASE_pow_pos _), Nat.add_comm, Nat.add_mul_mod_self_right]
    rw [List.length_cons, nat, val_cons, hd, hmod, ih hls, Nat.mod_eq_of_lt hl]
    simp

theorem nat_val_of_wf {c : Config} {m : List Word} (h : magWf c m = true) : nat c.N (val m) = m := by
  obtain ⟨hl, hb⟩ := (magWf_iff _ _).mp h
  rw [← hl]; exact nat_val hb

/-- Magnitudes within the limb invariant are equal when their numbers are. -/
theorem mag_eq_of_val_eq {c : Config} {a b : List Word} (ha : magWf c a = true) (hb : magWf c b = true)
    (h : val a = val b) : a = b := by
  rw [← nat_val_of_wf ha, h, nat_val_of_wf hb]

/-- The limb-by-limb comparison is the comparison of the numbers (R113). -/
theorem ncmp_eq_compare {a b : List Word} (hlen : a.length = b.length) (ha : ∀ l ∈ a, l.toNat < BASE)
    (hb : ∀ l ∈ b, l.toNat < BASE) : ncmp a b = compare (val a) (val b) := by
  induction a generalizing b with
  | nil =>
    have : b = [] := List.length_eq_zero_iff.mp (by simpa using hlen.symm)
    subst this; rfl
  | cons x xs ih =>
    cases b with
    | nil => simp at hlen
    | cons y ys =>
      have hl : xs.length = ys.length := by simpa using hlen
      have hxs : ∀ l ∈ xs, l.toNat < BASE := fun l h => ha l (by simp [h])
      have hys : ∀ l ∈ ys, l.toNat < BASE := fun l h => hb l (by simp [h])
      have vx := val_lt_of_limbs hxs
      have vy := val_lt_of_limbs hys
      rw [← hl] at vy
      rw [ncmp, val_cons, val_cons, ← hl]
      by_cases h1 : x.toNat < y.toNat
      · have : (x.toNat + 1) * BASE ^ xs.length ≤ y.toNat * BASE ^ xs.length := Nat.mul_le_mul_right _ h1
        rw [if_pos h1, eq_comm, Nat.compare_eq_lt]
        rw [Nat.add_mul, Nat.one_mul] at this
        omega
      · by_cases h2 : y.toNat < x.toNat
        · have : (y.toNat + 1) * BASE ^ xs.length ≤ x.toNat * BASE ^ xs.length := Nat.mul_le_mul_right _ h2
          rw [if_neg h1, if_pos h2, eq_comm, Nat.compare_eq_gt]
          rw [Nat.add_mul, Nat.one_mul] at this
          omega
        · have e : x.toNat = y.toNat := by omega
          rw [if_neg h1, if_neg h2, ih hl hxs hys, e]
          rcases lt_trichotomy (val xs) (val ys) with h | h | h
          · rw [Nat.compare_eq_lt.mpr h, Nat.compare_eq_lt.mpr (by omega)]
          · rw [h, Nat.compare_eq_eq.mpr rfl, Nat.compare_eq_eq.mpr rfl]
          · rw [Nat.compare_eq_gt.mpr h, Nat.compare_eq_gt.mpr (by omega)]

theorem ncmp_of_wf {c : Config} {a b : List Word} (ha : magWf c a = true) (hb : magWf c b = true) :
    ncmp a b = compare (val a) (val b) := by
  obtain ⟨la, ba⟩ := (magWf_iff _ _).mp ha
  obtain ⟨lb, bb⟩ := (magWf_iff _ _).mp hb
  exact ncmp_eq_compare (la.trans lb.symm) ba bb

theorem compare_natCast (a b : Nat) : compare (a : Int) (b : Int) = compare a b := by
  rcases lt_trichotomy a b with h | h | h
  · rw [Nat.compare_eq_lt.mpr h, compare_lt_iff_lt.mpr (by omega)]
  · rw [Nat.compare_eq_eq.mpr h, compare_eq_iff_eq.mpr (by omega)]
  · rw [Nat.compare_eq_gt.mpr h, compare_gt_iff_gt.mpr (by omega)]

theorem compare_negCast (a b : Nat) : compare (-(a : Int)) (-(b : Int)) = compare b a := by
  rcases lt_trichotomy a b with h | h | h
  · rw [Nat.compare_eq_gt.mpr h, compare_gt_iff_gt.mpr (by omega)]
  · rw [Nat.compare_eq_eq.mpr h.symm, compare_eq_iff_eq.mpr (by omega)]
  · rw [Nat.compare_eq_lt.mpr h, compare_lt_iff_lt.mpr (by omega)]

/-- `neg` is the sign of the value, not of the flag (R170 (c)). -/
theorem neg_iff (x : Value) : neg x = true ↔ x.sign = true ∧ val x.mag ≠ 0 := by simp [neg]

theorem sval_of_neg {x : Value} (h : neg x = true) : sval x = -(val x.mag : Int) := by
  rw [sval, if_pos ((neg_iff x).mp h)]

theorem sval_of_not_neg {x : Value} (h : neg x = false) : sval x = (val x.mag : Int) := by
  rw [sval, if_neg (fun hc => by rw [(neg_iff x).mpr hc] at h; cases h)]

/-- The signed comparison is the comparison of the signed values (R177). -/
theorem icmp_of_wf {c : Config} {x y : Value} (hx : Value.wf c x = true) (hy : Value.wf c y = true) :
    icmp x y = compare (sval x) (sval y) := by
  have hxy := ncmp_of_wf hx hy
  have hyx := ncmp_of_wf hy hx
  cases nx : neg x <;> cases ny : neg y <;> rw [icmp, nx, ny]
  · rw [sval_of_not_neg nx, sval_of_not_neg ny, hxy, compare_natCast]
  · have := ((neg_iff y).mp ny).2
    rw [sval_of_not_neg nx, sval_of_neg ny]
    exact (compare_gt_iff_gt.mpr (by omega)).symm
  · have := ((neg_iff x).mp nx).2
    rw [sval_of_neg nx, sval_of_not_neg ny]
    exact (compare_lt_iff_lt.mpr (by omega)).symm
  · rw [sval_of_neg nx, sval_of_neg ny, hyx, compare_negCast]

end Sys2Proof.Machine
end

