-- ==== Sys2Proof/Laws/State.lean ====
section
/-! SUPPORT. The small lemmas of the register files and of each update of State: one lemma per field per update, so that
no later proof unfolds a record update. -/

namespace Sys2Proof.Machine

open Sys2Proof

@[simp] theorem RegFile.get_const {α : Type} (x : α) (i : BitVec 3) : (RegFile.const x).get i = x := by
  obtain ⟨⟨n, hn⟩⟩ := i
  interval_cases n <;> rfl

@[simp] theorem RegFile.get_set_same {α : Type} (f : RegFile α) (i : BitVec 3) (x : α) : (f.set i x).get i = x := by
  obtain ⟨⟨n, hn⟩⟩ := i
  interval_cases n <;> rfl

@[simp] theorem RegFile.get_set_ne {α : Type} (f : RegFile α) {i j : BitVec 3} (x : α) (h : j ≠ i) :
    (f.set i x).get j = f.get j := by
  obtain ⟨⟨n, hn⟩⟩ := i
  obtain ⟨⟨m, hm⟩⟩ := j
  interval_cases n <;> interval_cases m <;> first | rfl | exact absurd rfl h

/-- A read after a write, whichever registers they name. -/
theorem RegFile.get_set {α : Type} (f : RegFile α) (i j : BitVec 3) (x : α) :
    (f.set i x).get j = if j = i then x else f.get j := by
  by_cases h : j = i
  · subst h; simp
  · simp [h]

/-- Two files with the same register contents are the same file. -/
theorem RegFile.ext_get {α : Type} {f g : RegFile α} (h : ∀ i, f.get i = g.get i) : f = g := by
  cases f; cases g
  have h0 := h 0; have h1 := h 1; have h2 := h 2; have h3 := h 3
  have h4 := h 4; have h5 := h 5; have h6 := h 6; have h7 := h 7
  simp only [RegFile.mk.injEq]
  exact ⟨h0, h1, h2, h3, h4, h5, h6, h7⟩

/-- `RegFile.all` is a statement about every register number. -/
theorem RegFile.all_iff {α : Type} (f : RegFile α) (p : α → Bool) : f.all p = true ↔ ∀ i, p (f.get i) = true := by
  constructor
  · intro h i
    simp only [RegFile.all, Bool.and_eq_true] at h
    obtain ⟨⟨n, hn⟩⟩ := i
    interval_cases n <;> simp_all [RegFile.get]
  · intro h
    have h0 := h 0; have h1 := h 1; have h2 := h 2; have h3 := h 3
    have h4 := h 4; have h5 := h 5; have h6 := h 6; have h7 := h 7
    simp [RegFile.get] at h0 h1 h2 h3 h4 h5 h6 h7
    simp [RegFile.all, *]

@[simp] theorem State.setV_cfg (s : State) (i : VReg) (x : Value) : (s.setV i x).cfg = s.cfg := rfl
@[simp] theorem State.setV_v (s : State) (i : VReg) (x : Value) : (s.setV i x).v = s.v.set i x := rfl
@[simp] theorem State.setV_s (s : State) (i : VReg) (x : Value) : (s.setV i x).s = s.s := rfl
@[simp] theorem State.setV_text (s : State) (i : VReg) (x : Value) : (s.setV i x).text = s.text := rfl
@[simp] theorem State.setV_status (s : State) (i : VReg) (x : Value) : (s.setV i x).status = s.status := rfl
@[simp] theorem State.setV_inbox (s : State) (i : VReg) (x : Value) : (s.setV i x).inbox = s.inbox := rfl
@[simp] theorem State.setV_reply (s : State) (i : VReg) (x : Value) : (s.setV i x).reply = s.reply := rfl

@[simp] theorem State.setS_cfg (s : State) (i : SReg) (w : Word) : (s.setS i w).cfg = s.cfg := rfl
@[simp] theorem State.setS_v (s : State) (i : SReg) (w : Word) : (s.setS i w).v = s.v := rfl
@[simp] theorem State.setS_s (s : State) (i : SReg) (w : Word) : (s.setS i w).s = s.s.set i w := rfl
@[simp] theorem State.setS_text (s : State) (i : SReg) (w : Word) : (s.setS i w).text = s.text := rfl
@[simp] theorem State.setS_status (s : State) (i : SReg) (w : Word) : (s.setS i w).status = s.status := rfl
@[simp] theorem State.setS_inbox (s : State) (i : SReg) (w : Word) : (s.setS i w).inbox = s.inbox := rfl
@[simp] theorem State.setS_reply (s : State) (i : SReg) (w : Word) : (s.setS i w).reply = s.reply := rfl

@[simp] theorem State.setText_cfg (s : State) (t : List Byte) : (s.setText t).cfg = s.cfg := rfl
@[simp] theorem State.setText_v (s : State) (t : List Byte) : (s.setText t).v = s.v := rfl
@[simp] theorem State.setText_s (s : State) (t : List Byte) : (s.setText t).s = s.s := rfl
@[simp] theorem State.setText_text (s : State) (t : List Byte) : (s.setText t).text = t := rfl
@[simp] theorem State.setText_status (s : State) (t : List Byte) : (s.setText t).status = s.status := rfl
@[simp] theorem State.setText_inbox (s : State) (t : List Byte) : (s.setText t).inbox = s.inbox := rfl
@[simp] theorem State.setText_reply (s : State) (t : List Byte) : (s.setText t).reply = s.reply := rfl

@[simp] theorem State.setCC_cfg (s : State) (cc : CompletionCode) : (s.setCC cc).cfg = s.cfg := rfl
@[simp] theorem State.setCC_v (s : State) (cc : CompletionCode) : (s.setCC cc).v = s.v := rfl
@[simp] theorem State.setCC_s (s : State) (cc : CompletionCode) : (s.setCC cc).s = s.s := rfl
@[simp] theorem State.setCC_text (s : State) (cc : CompletionCode) : (s.setCC cc).text = s.text := rfl
@[simp] theorem State.setCC_status (s : State) (cc : CompletionCode) : (s.setCC cc).status = { s.status with cc := cc } := rfl
@[simp] theorem State.setCC_inbox (s : State) (cc : CompletionCode) : (s.setCC cc).inbox = s.inbox := rfl
@[simp] theorem State.setCC_reply (s : State) (cc : CompletionCode) : (s.setCC cc).reply = s.reply := rfl

@[simp] theorem State.latchFault_cfg (s : State) (cmd : CmdWord) (c : Cause) : (s.latchFault cmd c).cfg = s.cfg := rfl
@[simp] theorem State.latchFault_v (s : State) (cmd : CmdWord) (c : Cause) : (s.latchFault cmd c).v = s.v := rfl
@[simp] theorem State.latchFault_s (s : State) (cmd : CmdWord) (c : Cause) : (s.latchFault cmd c).s = s.s := rfl
@[simp] theorem State.latchFault_text (s : State) (cmd : CmdWord) (c : Cause) : (s.latchFault cmd c).text = s.text := rfl
@[simp] theorem State.latchFault_status (s : State) (cmd : CmdWord) (c : Cause) : (s.latchFault cmd c).status = { frozen := true, cause := c, cc := .fault, fcmd := cmd } := rfl
@[simp] theorem State.latchFault_inbox (s : State) (cmd : CmdWord) (c : Cause) : (s.latchFault cmd c).inbox = s.inbox := rfl
@[simp] theorem State.latchFault_reply (s : State) (cmd : CmdWord) (c : Cause) : (s.latchFault cmd c).reply = s.reply := rfl

@[simp] theorem State.taken_cfg (s : State) (rest : List HostOp) : (s.taken rest).cfg = s.cfg := rfl
@[simp] theorem State.taken_v (s : State) (rest : List HostOp) : (s.taken rest).v = s.v := rfl
@[simp] theorem State.taken_s (s : State) (rest : List HostOp) : (s.taken rest).s = s.s := rfl
@[simp] theorem State.taken_text (s : State) (rest : List HostOp) : (s.taken rest).text = s.text := rfl
@[simp] theorem State.taken_status (s : State) (rest : List HostOp) : (s.taken rest).status = s.status := rfl
@[simp] theorem State.taken_inbox (s : State) (rest : List HostOp) : (s.taken rest).inbox = rest := rfl
@[simp] theorem State.taken_reply (s : State) (rest : List HostOp) : (s.taken rest).reply = .nothing := rfl

@[simp] theorem State.presenting_cfg (s : State) (cmd : CmdWord) : (s.presenting cmd).cfg = s.cfg := rfl
@[simp] theorem State.presenting_v (s : State) (cmd : CmdWord) : (s.presenting cmd).v = s.v := rfl
@[simp] theorem State.presenting_s (s : State) (cmd : CmdWord) : (s.presenting cmd).s = s.s := rfl
@[simp] theorem State.presenting_text (s : State) (cmd : CmdWord) : (s.presenting cmd).text = s.text := rfl
@[simp] theorem State.presenting_status (s : State) (cmd : CmdWord) : (s.presenting cmd).status = s.status := rfl
@[simp] theorem State.presenting_inbox (s : State) (cmd : CmdWord) : (s.presenting cmd).inbox = .issue cmd :: s.inbox := rfl
@[simp] theorem State.presenting_reply (s : State) (cmd : CmdWord) : (s.presenting cmd).reply = s.reply := rfl

@[simp] theorem State.getS_setV (s : State) (i : VReg) (x : Value) (r : SReg) : (s.setV i x).getS r = s.getS r := rfl
@[simp] theorem State.word_setV (s : State) (i : VReg) (x : Value) (r : SReg) : (s.setV i x).word r = s.word r := rfl
@[simp] theorem State.getV_setS (s : State) (i : SReg) (w : Word) (r : VReg) : (s.setS i w).getV r = s.getV r := rfl
@[simp] theorem State.mag_setS (s : State) (i : SReg) (w : Word) (r : VReg) : (s.setS i w).mag r = s.mag r := rfl
@[simp] theorem State.magVal_setS (s : State) (i : SReg) (w : Word) (r : VReg) : (s.setS i w).magVal r = s.magVal r := rfl
@[simp] theorem State.getV_setText (s : State) (t : List Byte) (r : VReg) : (s.setText t).getV r = s.getV r := rfl
@[simp] theorem State.mag_setText (s : State) (t : List Byte) (r : VReg) : (s.setText t).mag r = s.mag r := rfl
@[simp] theorem State.magVal_setText (s : State) (t : List Byte) (r : VReg) : (s.setText t).magVal r = s.magVal r := rfl
@[simp] theorem State.getS_setText (s : State) (t : List Byte) (r : SReg) : (s.setText t).getS r = s.getS r := rfl
@[simp] theorem State.word_setText (s : State) (t : List Byte) (r : SReg) : (s.setText t).word r = s.word r := rfl
@[simp] theorem State.getV_setCC (s : State) (cc : CompletionCode) (r : VReg) : (s.setCC cc).getV r = s.getV r := rfl
@[simp] theorem State.mag_setCC (s : State) (cc : CompletionCode) (r : VReg) : (s.setCC cc).mag r = s.mag r := rfl
@[simp] theorem State.magVal_setCC (s : State) (cc : CompletionCode) (r : VReg) : (s.setCC cc).magVal r = s.magVal r := rfl
@[simp] theorem State.getS_setCC (s : State) (cc : CompletionCode) (r : SReg) : (s.setCC cc).getS r = s.getS r := rfl
@[simp] theorem State.word_setCC (s : State) (cc : CompletionCode) (r : SReg) : (s.setCC cc).word r = s.word r := rfl
@[simp] theorem State.getV_latchFault (s : State) (cmd : CmdWord) (c : Cause) (r : VReg) : (s.latchFault cmd c).getV r = s.getV r := rfl
@[simp] theorem State.mag_latchFault (s : State) (cmd : CmdWord) (c : Cause) (r : VReg) : (s.latchFault cmd c).mag r = s.mag r := rfl
@[simp] theorem State.magVal_latchFault (s : State) (cmd : CmdWord) (c : Cause) (r : VReg) : (s.latchFault cmd c).magVal r = s.magVal r := rfl
@[simp] theorem State.getS_latchFault (s : State) (cmd : CmdWord) (c : Cause) (r : SReg) : (s.latchFault cmd c).getS r = s.getS r := rfl
@[simp] theorem State.word_latchFault (s : State) (cmd : CmdWord) (c : Cause) (r : SReg) : (s.latchFault cmd c).word r = s.word r := rfl
@[simp] theorem State.getV_taken (s : State) (rest : List HostOp) (r : VReg) : (s.taken rest).getV r = s.getV r := rfl
@[simp] theorem State.mag_taken (s : State) (rest : List HostOp) (r : VReg) : (s.taken rest).mag r = s.mag r := rfl
@[simp] theorem State.magVal_taken (s : State) (rest : List HostOp) (r : VReg) : (s.taken rest).magVal r = s.magVal r := rfl
@[simp] theorem State.getS_taken (s : State) (rest : List HostOp) (r : SReg) : (s.taken rest).getS r = s.getS r := rfl
@[simp] theorem State.word_taken (s : State) (rest : List HostOp) (r : SReg) : (s.taken rest).word r = s.word r := rfl
@[simp] theorem State.getV_presenting (s : State) (cmd : CmdWord) (r : VReg) : (s.presenting cmd).getV r = s.getV r := rfl
@[simp] theorem State.mag_presenting (s : State) (cmd : CmdWord) (r : VReg) : (s.presenting cmd).mag r = s.mag r := rfl
@[simp] theorem State.magVal_presenting (s : State) (cmd : CmdWord) (r : VReg) : (s.presenting cmd).magVal r = s.magVal r := rfl
@[simp] theorem State.getS_presenting (s : State) (cmd : CmdWord) (r : SReg) : (s.presenting cmd).getS r = s.getS r := rfl
@[simp] theorem State.word_presenting (s : State) (cmd : CmdWord) (r : SReg) : (s.presenting cmd).word r = s.word r := rfl

@[simp] theorem State.getV_setV_same (s : State) (i : VReg) (x : Value) : (s.setV i x).getV i = x := by
  simp [State.getV, State.setV]

@[simp] theorem State.getV_setV_ne (s : State) {i r : VReg} (x : Value) (h : r ≠ i) :
    (s.setV i x).getV r = s.getV r := by
  simp [State.getV, State.setV, h]

@[simp] theorem State.getS_setS_same (s : State) (i : SReg) (w : Word) : (s.setS i w).getS i = w := by
  simp [State.getS, State.setS]

@[simp] theorem State.getS_setS_ne (s : State) {i r : SReg} (w : Word) (h : r ≠ i) :
    (s.setS i w).getS r = s.getS r := by
  simp [State.getS, State.setS, h]

@[simp] theorem State.putV_eq (s : State) (i : VReg) (v : Nat) : s.putV i v = s.setV i (natural s.cfg v) := rfl
@[simp] theorem natural_sign (c : Config) (v : Nat) : (natural c v).sign = false := rfl
@[simp] theorem natural_mag (c : Config) (v : Nat) : (natural c v).mag = nat c.N v := rfl

@[simp] theorem State.putS_eq (s : State) (i : SReg) (n : Nat) : s.putS i n = s.setS i (BitVec.ofNat 64 n) := rfl

@[simp] theorem State.putS2_eq (s : State) (i j : SReg) (p : Nat × Nat) :
    s.putS2 i j p = (s.setS i (BitVec.ofNat 64 p.1)).setS j (BitVec.ofNat 64 p.2) := rfl

@[simp] theorem State.resetWith_getV (c : Config) (r : VReg) : (State.resetWith c).getV r = Value.zero c := by
  simp [State.getV, State.resetWith]

@[simp] theorem State.resetWith_getS (c : Config) (r : SReg) : (State.resetWith c).getS r = 0#64 := by
  simp [State.getS, State.resetWith]

@[simp] theorem State.hostReset_cfg (s : State) : s.hostReset.cfg = s.cfg := rfl
@[simp] theorem State.hostReset_v (s : State) : s.hostReset.v = .const (Value.zero s.cfg) := rfl
@[simp] theorem State.hostReset_s (s : State) : s.hostReset.s = .const 0#64 := rfl
@[simp] theorem State.hostReset_text (s : State) : s.hostReset.text = [] := rfl
@[simp] theorem State.hostReset_status (s : State) : s.hostReset.status = .clear := rfl
@[simp] theorem State.hostReset_inbox (s : State) : s.hostReset.inbox = s.inbox := rfl
@[simp] theorem State.hostReset_reply (s : State) : s.hostReset.reply = .nothing := rfl

end Sys2Proof.Machine
end

