-- ==== Sys2Proof/Laws/Ops.lean ====
section
/-! SUPPORT. What the shared way of ending a command can do (40_host_and_move.md R80; 60_exceptions.md R234 to R239),
and when a command has written its destinations and nothing else. -/

namespace Sys2Proof.Machine

open Sys2Proof

@[simp] theorem Completion.finish_done (s s' : State) (cmd : CmdWord) :
    Completion.finish s cmd (.done s') = s'.setCC .ok := rfl

@[simp] theorem Completion.finish_invalidFormat (s : State) (cmd : CmdWord) :
    Completion.finish s cmd .invalidFormat = s.setCC .invalidFormat := rfl

@[simp] theorem Completion.finish_fault (s : State) (cmd : CmdWord) (c : Cause) :
    Completion.finish s cmd (.fault c) = s.latchFault cmd c := rfl

@[simp] theorem Completion.writing_ok {α : Type} (x : α) (write : α → State) :
    Completion.writing (.ok x) write = .done (write x) := rfl

@[simp] theorem Completion.writing_error {α : Type} (c : Cause) (write : α → State) :
    Completion.writing (.error c) write = .fault c := rfl

/-- A frozen unit refuses every command (R238). -/
theorem runCommand_frozen {s : State} (i : Instr) (c : Completion) (h : s.status.frozen = true) :
    runCommand i s c = .next (s.setCC .refused) := by simp [runCommand, h]

/-- A term that names one register as both destinations is an illegal command (R68). -/
theorem runCommand_ill_formed {s : State} {i : Instr} (c : Completion) (h : s.running) (hi : i.wf = false) :
    runCommand i s c = .next (s.latchFault (encode i) .illegalCommand) := by
  simp [runCommand, State.running] at *; simp [h, hi]

/-- A command on a running unit ends as its rule says. -/
theorem runCommand_running {s : State} {i : Instr} (c : Completion) (h : s.running) (hi : i.wf = true) :
    runCommand i s c = .next (c.finish s (encode i)) := by
  simp [runCommand, State.running] at *; simp [h, hi]

/-- Everything the shared ending of a command can do: refuse, reject an ill-formed term, or end in one of R13's three
ways. -/
theorem runCommand_cases {s t : State} {i : Instr} {c : Completion} (h : runCommand i s c = .next t) :
    (s.status.frozen = true ∧ t = s.setCC .refused) ∨
    (s.running ∧ i.wf = false ∧ t = s.latchFault (encode i) .illegalCommand) ∨
    (s.running ∧ i.wf = true ∧
      ((∃ s', c = .done s' ∧ t = s'.setCC .ok) ∨ (c = .invalidFormat ∧ t = s.setCC .invalidFormat) ∨
        ∃ cause, c = .fault cause ∧ t = s.latchFault (encode i) cause)) := by
  cases hf : s.status.frozen
  · cases hi : i.wf
    · rw [runCommand_ill_formed c hf hi] at h
      injection h with h
      exact .inr (.inl ⟨hf, rfl, h.symm⟩)
    · rw [runCommand_running c hf hi] at h
      injection h with h
      refine .inr (.inr ⟨hf, rfl, ?_⟩)
      cases c with
      | done s' => exact .inl ⟨s', rfl, h.symm⟩
      | invalidFormat => exact .inr (.inl ⟨rfl, h.symm⟩)
      | fault cause => exact .inr (.inr ⟨cause, rfl, h.symm⟩)
  · rw [runCommand_frozen i c hf] at h
    injection h with h
    exact .inl ⟨rfl, h.symm⟩

/-- The fault entry changes STATUS and nothing else (R236). -/
theorem faultedWith_latchFault (s : State) (cmd : CmdWord) (c : Cause) : faultedWith cmd c s (s.latchFault cmd c) :=
  ⟨rfl, rfl, rfl, rfl, rfl, rfl, rfl⟩

/-- A recoverable or refused completion changes CC and nothing else (R235, R238). -/
theorem onlyCompletionCode_setCC (s : State) (cc : CompletionCode) : onlyCompletionCode cc s (s.setCC cc) :=
  ⟨rfl, rfl, rfl, rfl, rfl, rfl, rfl⟩

/-- A command whose completion is a fault raises it. -/
theorem raisesFault_of {i : Instr} {s : State} {c : Cause} (h : s.running) (hi : i.wf = true)
    (he : exec i s = runCommand i s (.fault c)) : raisesFault i c s :=
  ⟨_, he.trans (runCommand_running _ h hi), faultedWith_latchFault s (encode i) c⟩

/-- A command whose completion is INVALID_FORMAT completes so. -/
theorem completesInvalidFormat_of {i : Instr} {s : State} (h : s.running) (hi : i.wf = true)
    (he : exec i s = runCommand i s .invalidFormat) : completesInvalidFormat i s :=
  ⟨_, he.trans (runCommand_running _ h hi), onlyCompletionCode_setCC s .invalidFormat⟩

/-- A command whose completion is done ends with its destinations written and CC = OK (R234). -/
theorem exec_done {i : Instr} {s s' : State} (h : s.running) (hi : i.wf = true)
    (he : exec i s = runCommand i s (.done s')) : exec i s = .next (s'.setCC .ok) :=
  he.trans (runCommand_running _ h hi)

/-- A command that writes nothing. -/
theorem completedWriting_none (s : State) : completedWriting [] [] s (s.setCC .ok) :=
  ⟨rfl, rfl, rfl, rfl, rfl, fun _ _ => rfl, fun _ _ => rfl⟩

/-- A command that writes one value register. -/
theorem completedWriting_setV (s : State) (i : VReg) (x : Value) :
    completedWriting [i] [] s ((s.setV i x).setCC .ok) :=
  ⟨rfl, rfl, rfl, rfl, rfl, fun r hr => by simp at hr; simp [hr], fun _ _ => rfl⟩

/-- A command that writes one scalar register. -/
theorem completedWriting_setS (s : State) (i : SReg) (w : Word) :
    completedWriting [] [i] s ((s.setS i w).setCC .ok) :=
  ⟨rfl, rfl, rfl, rfl, rfl, fun _ _ => rfl, fun r hr => by simp at hr; simp [hr]⟩

/-- A command that writes two scalar registers. -/
theorem completedWriting_setS_setS (s : State) (i j : SReg) (w x : Word) :
    completedWriting [] [i, j] s (((s.setS i w).setS j x).setCC .ok) :=
  ⟨rfl, rfl, rfl, rfl, rfl, fun _ _ => rfl, fun r hr => by simp at hr; simp [hr]⟩

/-- A command that writes two value registers. -/
theorem completedWriting_setV_setV (s : State) (i j : VReg) (x y : Value) :
    completedWriting [i, j] [] s (((s.setV i x).setV j y).setCC .ok) :=
  ⟨rfl, rfl, rfl, rfl, rfl, fun r hr => by simp at hr; simp [hr], fun _ _ => rfl⟩

/-- A command that writes a value register and a scalar register. -/
theorem completedWriting_setV_setS (s : State) (i : VReg) (j : SReg) (x : Value) (w : Word) :
    completedWriting [i] [j] s (((s.setV i x).setS j w).setCC .ok) :=
  ⟨rfl, rfl, rfl, rfl, rfl, fun r hr => by simp at hr; simp [hr], fun r hr => by simp at hr; simp [hr]⟩

/-- A command that writes the text buffer. -/
theorem completedWritingText_setText (s : State) (str : List Byte) :
    completedWritingText s ((s.setText str).setCC .ok) := ⟨rfl, rfl, rfl, rfl, rfl, rfl⟩

/-- The number read back from a scalar register that took a number below `2^64`. -/
theorem State.word_setS_same {n : Nat} (s : State) (i : SReg) (h : n < 2 ^ 64) :
    (s.setS i (BitVec.ofNat 64 n)).word i = n := by
  rw [State.word, State.getS_setS_same, BitVec.toNat_ofNat, Nat.mod_eq_of_lt h]

theorem State.word_setS_ne (s : State) {i r : SReg} (w : Word) (h : r ≠ i) : (s.setS i w).word r = s.word r := by
  simp [State.word, h]

theorem State.word_lt (s : State) (i : SReg) : s.word i < 2 ^ 64 := (s.getS i).isLt

/-- What a Natural command writes holds its number (R110 (b)). -/
theorem holds_natural {c : Config} {v : Nat} (h : v < c.CAP) : holds c false v (natural c v) :=
  ⟨rfl, magWf_nat c v, val_nat h⟩

theorem holds_nat {c : Config} {v : Nat} (b : Bool) (h : v < c.CAP) : holds c b v { sign := b, mag := nat c.N v } :=
  ⟨rfl, magWf_nat c v, val_nat h⟩

end Sys2Proof.Machine
end

