-- ==== Sys2Proof/Laws/Arithmetic.lean ====
section
/-! SUPPORT. What each shared arithmetic operation answers, once and for all operands: the lemmas that a proof about a
command cites instead of unfolding the operation. -/

namespace Sys2Proof.Machine

open Sys2Proof

/-- Natural `add` (R125). -/
theorem addMag_of_lt {c : Config} {a b : List Word} (h : val a + val b < c.CAP) :
    addMag c a b = .ok (nat c.N (val a + val b)) := by simp [addMag, Nat.not_le.mpr h]

theorem addMag_of_ge {c : Config} {a b : List Word} (h : c.CAP ≤ val a + val b) :
    addMag c a b = .error .capacityOverflow := by simp [addMag, h]

/-- Natural `subtract` (R128). -/
theorem subMag_of_le {c : Config} {a b : List Word} (h : val b ≤ val a) :
    subMag c a b = .ok (nat c.N (val a - val b)) := by simp [subMag, Nat.not_lt.mpr h]

theorem subMag_of_lt {c : Config} {a b : List Word} (h : val a < val b) :
    subMag c a b = .error .subUnderflow := by simp [subMag, h]

/-- Natural `divide` (R157). -/
theorem divMag_of_pos {c : Config} {a b : List Word} (h : val b ≠ 0) :
    divMag c a b = .ok (nat c.N (val a / val b), nat c.N (val a % val b)) := by simp [divMag, h]

theorem divMag_of_zero {c : Config} {a b : List Word} (h : val b = 0) :
    divMag c a b = .error .divisionByZero := by simp [divMag, h]

/-- The nines' complement of one limb (R127). -/
theorem complement_limb (l : Word) : (BitVec.ofNat 64 (BASE - 1 - l.toNat)).toNat = BASE - 1 - l.toNat :=
  toNat_ofNat_of_lt_BASE (by have := BASE_pos; omega)

theorem complementMag_length (a : List Word) : (complementMag a).length = a.length := by simp [complementMag]

/-- The complement keeps the limb invariant, whatever its operand. -/
theorem complementMag_limb_lt {a : List Word} {l : Word} (h : l ∈ complementMag a) : l.toNat < BASE := by
  obtain ⟨x, -, rfl⟩ := List.mem_map.mp h
  rw [complement_limb]; have := BASE_pos; omega

/-- The complement of a magnitude and the magnitude add up to `BASE^n − 1` (R127). -/
theorem val_complementMag {a : List Word} (h : ∀ l ∈ a, l.toNat < BASE) :
    val (complementMag a) + val a + 1 = BASE ^ a.length := by
  induction a with
  | nil => rfl
  | cons l ls ih =>
    have hl := h l (by simp)
    have hr := ih (fun x hx => h x (by simp [hx]))
    have e : complementMag (l :: ls) = BitVec.ofNat 64 (BASE - 1 - l.toNat) :: complementMag ls := rfl
    have hs : BASE - 1 - l.toNat + (l.toNat + 1) = BASE := by omega
    rw [e, val_cons, val_cons, complement_limb, complementMag_length, List.length_cons, Nat.pow_succ]
    calc (BASE - 1 - l.toNat) * BASE ^ ls.length + val (complementMag ls) + (l.toNat * BASE ^ ls.length + val ls) + 1
        = (BASE - 1 - l.toNat) * BASE ^ ls.length + l.toNat * BASE ^ ls.length
            + (val (complementMag ls) + val ls + 1) := by ring
      _ = (BASE - 1 - l.toNat + (l.toNat + 1)) * BASE ^ ls.length := by rw [hr]; ring
      _ = BASE ^ ls.length * BASE := by rw [hs]; ring

/-- A product of two magnitudes fits in `2N` limbs (R147). -/
theorem product_div_lt {c : Config} {x y : Nat} (hx : x < c.CAP) (hy : y < c.CAP) : x * y / c.CAP < c.CAP := by
  rw [Nat.div_lt_iff_lt_mul (CAP_pos c)]
  exact Nat.mul_lt_mul'' hx hy

/-- Integer `add` with equal stored flags (R171). -/
theorem addInt_same {c : Config} {x y : Value} (h : x.sign = y.sign) :
    addInt c x y = if c.CAP ≤ val x.mag + val y.mag then .error .capacityOverflow
      else .ok { sign := x.sign, mag := nat c.N (val x.mag + val y.mag) } := by
  rw [addInt, if_pos h, addMag]
  split <;> rfl

/-- Integer `add` with different stored flags never faults (R172). -/
theorem addInt_diff {c : Config} {x y : Value} (hx : Value.wf c x = true) (hy : Value.wf c y = true)
    (h : x.sign ≠ y.sign) :
    addInt c x y = .ok (if val x.mag < val y.mag then { sign := y.sign, mag := nat c.N (val y.mag - val x.mag) }
      else { sign := x.sign, mag := nat c.N (val x.mag - val y.mag) }) := by
  rw [addInt, if_neg h, ncmp_of_wf hx hy]
  by_cases hlt : val x.mag < val y.mag
  · rw [if_pos (Nat.compare_eq_lt.mpr hlt), subMag_of_le hlt.le, if_pos hlt]; rfl
  · rw [if_neg (by rw [Nat.compare_eq_lt]; exact hlt), subMag_of_le (Nat.not_lt.mp hlt), if_neg hlt]; rfl

/-- Integer `add`: it answers the signed sum, or CAPACITY_OVERFLOW exactly when equal flags meet and the magnitudes
leave the capacity (R171, R172). -/
theorem addInt_spec {c : Config} {x y : Value} (hx : Value.wf c x = true) (hy : Value.wf c y = true) :
    ((x.sign = y.sign ∧ c.CAP ≤ val x.mag + val y.mag) ∧ addInt c x y = .error .capacityOverflow) ∨
    ((x.sign = y.sign → val x.mag + val y.mag < c.CAP) ∧ ∃ z, addInt c x y = .ok z ∧ Value.wf c z = true ∧
      sval z = sval x + sval y ∧
      z.sign = if x.sign = y.sign then x.sign else if val x.mag < val y.mag then y.sign else x.sign) := by
  have hX := val_lt_CAP hx
  have hY := val_lt_CAP hy
  by_cases h : x.sign = y.sign
  · rw [addInt_same h]
    by_cases ho : c.CAP ≤ val x.mag + val y.mag
    · exact .inl ⟨⟨h, ho⟩, if_pos ho⟩
    · refine .inr ⟨fun _ => Nat.not_le.mp ho, _, if_neg ho, magWf_nat c _, ?_, by rw [if_pos h]⟩
      simp only [sval, val_nat (Nat.not_le.mp ho), ← h]
      cases x.sign <;> simp
      · split_ifs <;> omega
  · rw [addInt_diff hx hy h]
    refine .inr ⟨fun hc => absurd hc h, _, rfl, by split <;> exact magWf_nat c _, ?_, by rw [if_neg h]; split <;> rfl⟩
    by_cases hlt : val x.mag < val y.mag
    · simp only [if_pos hlt, sval, val_nat (n := c.N) (show val y.mag - val x.mag < BASE ^ c.N from lt_of_le_of_lt (Nat.sub_le _ _) hY)]
      cases hxs : x.sign <;> cases hys : y.sign <;> simp_all <;> split_ifs <;> omega
    · simp only [if_neg hlt, sval, val_nat (n := c.N) (show val x.mag - val y.mag < BASE ^ c.N from lt_of_le_of_lt (Nat.sub_le _ _) hX)]
      cases hxs : x.sign <;> cases hys : y.sign <;> simp_all <;> split_ifs <;> omega

/-- Negation keeps the magnitude (R173). -/
@[simp] theorem negate_mag (x : Value) : (negate x).mag = x.mag := rfl
@[simp] theorem negate_sign (x : Value) : (negate x).sign = !x.sign := rfl

/-- Negation negates the value, negative zero included (R173). -/
theorem sval_negate (x : Value) : sval (negate x) = -sval x := by
  obtain ⟨b, m⟩ := x
  by_cases h : val m = 0 <;> cases b <;> simp [sval, negate, h]

/-- Decimal `multiply` (R215). -/
theorem mulDec_of_lt {c : Config} {x y : Value} (h : val x.mag * val y.mag / c.SC < c.CAP) :
    mulDec c x y = .ok { sign := productSign x y, mag := nat c.N (val x.mag * val y.mag / c.SC) } := by
  simp [mulDec, Nat.not_le.mpr h]

theorem mulDec_of_ge {c : Config} {x y : Value} (h : c.CAP ≤ val x.mag * val y.mag / c.SC) :
    mulDec c x y = .error .capacityOverflow := by simp [mulDec, h]

/-- Decimal `divide` (R217). -/
theorem divDec_of_lt {c : Config} {x y : Value} (hy : val y.mag ≠ 0)
    (h : roundedQuotient (val x.mag * c.SC) (val y.mag) < c.CAP) :
    divDec c x y = .ok
      { sign := quotientSign x y, mag := nat c.N (roundedQuotient (val x.mag * c.SC) (val y.mag)) } := by
  simp [divDec, hy, Nat.not_le.mpr h]

theorem divDec_of_ge {c : Config} {x y : Value} (hy : val y.mag ≠ 0)
    (h : c.CAP ≤ roundedQuotient (val x.mag * c.SC) (val y.mag)) :
    divDec c x y = .error .capacityOverflow := by simp [divDec, hy, h]

theorem divDec_of_zero {c : Config} {x y : Value} (hy : val y.mag = 0) :
    divDec c x y = .error .divisionByZero := by simp [divDec, hy]

/-- The rounded quotient is the nearest whole number, the larger of two equally near (R217). -/
theorem roundedQuotient_nearest (d : Nat) {b : Nat} (hb : b ≠ 0) :
    2 * d < (2 * roundedQuotient d b + 1) * b ∧ 2 * roundedQuotient d b * b ≤ 2 * d + b := by
  have hd := Nat.div_add_mod d b
  have hr := Nat.mod_lt d (Nat.pos_of_ne_zero hb)
  generalize hq : d / b = q at *
  generalize hm : d % b = r at *
  have e : b * q = q * b := Nat.mul_comm _ _
  rw [roundedQuotient, hm, hq]
  split
  · constructor
    · calc 2 * d = 2 * (q * b) + 2 * r := by rw [← hd, e]; ring
        _ < 2 * (q * b) + 3 * b := by omega
        _ = (2 * (q + 1) + 1) * b := by ring
    · calc 2 * (q + 1) * b = 2 * (q * b) + 2 * b := by ring
        _ ≤ 2 * d + b := by rw [← hd, e]; omega
  · constructor
    · calc 2 * d = 2 * (q * b) + 2 * r := by rw [← hd, e]; ring
        _ < 2 * (q * b) + b := by omega
        _ = (2 * q + 1) * b := by ring
    · calc 2 * q * b = 2 * (q * b) := by ring
        _ ≤ 2 * d + b := by rw [← hd, e]; omega

/-- A word below `10^(d + fuel)` has its digit count found within `fuel` steps from `d` (R95). -/
theorem leastDigits_spec (fuel d w : Nat) (hw : w < 10 ^ (d + fuel)) (hd : w ≠ 0 → d = 0 ∨ 10 ^ (d - 1) ≤ w) :
    d ≤ leastDigits fuel d w ∧ leastDigits fuel d w ≤ d + fuel ∧ w < 10 ^ leastDigits fuel d w ∧
      (w ≠ 0 → leastDigits fuel d w = 0 ∨ 10 ^ (leastDigits fuel d w - 1) ≤ w) := by
  induction fuel generalizing d with
  | zero => exact ⟨le_rfl, le_rfl, hw, hd⟩
  | succ fuel ih =>
    rw [leastDigits]
    by_cases h : w < 10 ^ d
    · rw [if_pos h]; exact ⟨le_rfl, by omega, h, hd⟩
    · rw [if_neg h]
      obtain ⟨h1, h2, h3, h4⟩ := ih (d + 1) (by rw [show d + 1 + fuel = d + (fuel + 1) by omega]; exact hw)
        (fun _ => .inr (Nat.not_lt.mp h))
      exact ⟨by omega, by omega, h3, h4⟩

end Sys2Proof.Machine
end

