-- ==== Sys2Proof/Laws/Encoding.lean ====
section
/-! SUPPORT. The bit layout of a command word (30_encoding.md R60, R62): fields and words are one to one. -/

namespace Sys2Proof

/-- The fields of a word built from fields are those fields (R60). -/
theorem Fields.ofWord_toWord (f : Fields) : Fields.ofWord f.toWord = f := by
  obtain ⟨op, rd, rx, ra, rb, imm⟩ := f
  simp only [Fields.ofWord, Fields.toWord, Fields.mk.injEq]
  refine ⟨?_, ?_, ?_, ?_, ?_, ?_⟩ <;> apply BitVec.eq_of_getLsbD_eq <;> intro i hi <;>
    simp only [BitVec.getLsbD_extractLsb', BitVec.getLsbD_append, hi, decide_true, Bool.true_and] <;>
    interval_cases i <;> simp

/-- The word built from the fields of a word is that word (R60). -/
theorem Fields.toWord_ofWord (w : CmdWord) : (Fields.ofWord w).toWord = w := by
  apply BitVec.eq_of_getLsbD_eq
  intro i hi
  simp only [Fields.ofWord, Fields.toWord, BitVec.getLsbD_append, BitVec.getLsbD_extractLsb']
  interval_cases i <;> simp

/-- A word with every field but the opcode zero is the opcode shifted to bit 24 (R62). -/
theorem Fields.toWord_opcode (op : BitVec 8) : Fields.toWord ⟨op, 0, 0, 0, 0, 0⟩ = op ++ 0#24 := by
  revert op; decide

/-- Masking a word masks its fields (R62). -/
theorem Fields.toWord_and (f g : Fields) :
    f.toWord &&& g.toWord =
      Fields.toWord ⟨f.op &&& g.op, f.rd &&& g.rd, f.rx &&& g.rx, f.ra &&& g.ra, f.rb &&& g.rb, f.imm &&& g.imm⟩ := by
  simp only [Fields.toWord]
  iterate 5 rw [BitVec.and_append]

/-- A mask by its fields: the opcode and every field the format does not use (R62). -/
def Format.maskFields : Format → Fields
  | .f0 => ⟨0xFF#8, 7#3, 7#3, 7#3, 7#3, 0xFFF#12⟩
  | .fd => ⟨0xFF#8, 0#3, 7#3, 7#3, 7#3, 0xFFF#12⟩
  | .fa => ⟨0xFF#8, 7#3, 7#3, 0#3, 7#3, 0xFFF#12⟩
  | .fdi => ⟨0xFF#8, 0#3, 7#3, 7#3, 7#3, 0#12⟩
  | .fda => ⟨0xFF#8, 0#3, 7#3, 0#3, 7#3, 0xFFF#12⟩
  | .fdai => ⟨0xFF#8, 0#3, 7#3, 0#3, 7#3, 0#12⟩
  | .fdbi => ⟨0xFF#8, 0#3, 7#3, 7#3, 0#3, 0#12⟩
  | .fdxa => ⟨0xFF#8, 0#3, 0#3, 0#3, 7#3, 0xFFF#12⟩
  | .fdab => ⟨0xFF#8, 0#3, 7#3, 0#3, 0#3, 0xFFF#12⟩
  | .fdxab => ⟨0xFF#8, 0#3, 0#3, 0#3, 0#3, 0xFFF#12⟩
  | .fdxabc => ⟨0xFF#8, 0#3, 0#3, 0#3, 0#3, 0xFF8#12⟩

theorem Format.mask_eq (fmt : Format) : fmt.mask = fmt.maskFields.toWord := by cases fmt <;> decide

/-- The fields of a command's word (R60). -/
@[simp] theorem ofWord_encode (i : Instr) : Fields.ofWord (encode i) = i.fields := Fields.ofWord_toWord i.fields

/-- The six fields of a command's word stand at the bits of R60. -/
theorem encode_fields (i : Instr) :
    (encode i).extractLsb' 24 8 = i.fields.op ∧ (encode i).extractLsb' 21 3 = i.fields.rd ∧
      (encode i).extractLsb' 18 3 = i.fields.rx ∧ (encode i).extractLsb' 15 3 = i.fields.ra ∧
      (encode i).extractLsb' 12 3 = i.fields.rb ∧ (encode i).extractLsb' 0 12 = i.fields.imm :=
  Fields.mk.inj (ofWord_encode i)

/-- Masking by a format keeps the opcode and what stands in the fields the format does not use (R62). -/
theorem toWord_and_mask (f : Fields) (fmt : Format) :
    f.toWord &&& fmt.mask =
      Fields.toWord ⟨f.op &&& fmt.maskFields.op, f.rd &&& fmt.maskFields.rd, f.rx &&& fmt.maskFields.rx,
        f.ra &&& fmt.maskFields.ra, f.rb &&& fmt.maskFields.rb, f.imm &&& fmt.maskFields.imm⟩ := by
  rw [Format.mask_eq, Fields.toWord_and]

/-- A word matches a format when the fields the format does not use are zero (R62, R66). -/
theorem toWord_and_mask_of {f : Fields} {fmt : Format} (hop : f.op &&& fmt.maskFields.op = f.op)
    (hd : f.rd &&& fmt.maskFields.rd = 0#3) (hx : f.rx &&& fmt.maskFields.rx = 0#3)
    (ha : f.ra &&& fmt.maskFields.ra = 0#3) (hb : f.rb &&& fmt.maskFields.rb = 0#3)
    (hi : f.imm &&& fmt.maskFields.imm = 0#12) : f.toWord &&& fmt.mask = f.op ++ 0#24 := by
  rw [toWord_and_mask, hop, hd, hx, ha, hb, hi]
  exact Fields.toWord_opcode f.op

end Sys2Proof
end

