-- ==== Sys2Proof/Laws/Text.lean ====
section
/-! SUPPORT. Digit strings: their lengths, the numbers they spell, and the walk over a Decimal text (20_memory.md R43,
R44; R111, R112, R191 to R193). -/

namespace Sys2Proof.Machine

open Sys2Proof

theorem digitChar_toNat {d : Nat} (h : d < 10) : (digitChar d).toNat = 0x30 + d := by
  rw [digitChar, BitVec.toNat_ofNat, Nat.mod_eq_of_lt (by omega)]

theorem digitValue_digitChar {d : Nat} (h : d < 10) : digitValue (digitChar d) = d := by
  rw [digitValue, digitChar_toNat h]; omega

theorem isDigit_digitChar {d : Nat} (h : d < 10) : isDigit (digitChar d) = true := by
  simp [isDigit, digitChar_toNat h]; omega

theorem digitValue_lt {b : Byte} (h : isDigit b = true) : digitValue b < 10 := by
  simp [isDigit] at h; rw [digitValue]; omega

/-- A digit character is the character of its number. -/
theorem digitChar_digitValue {b : Byte} (h : isDigit b = true) : digitChar (digitValue b) = b := by
  have hv := digitValue_lt h
  simp [isDigit] at h
  apply BitVec.eq_of_toNat_eq
  rw [digitChar_toNat hv, digitValue]; omega

@[simp] theorem digitsValue_nil : digitsValue [] = 0 := rfl

theorem digitsValue_append (a b : List Byte) :
    digitsValue (a ++ b) = digitsValue a * 10 ^ b.length + digitsValue b := by
  induction a with
  | nil => simp
  | cons x a ih => simp only [List.cons_append, digitsValue, ih, List.length_append, Nat.pow_add]; ring

theorem digitsValue_lt {t : List Byte} (h : t.all isDigit = true) : digitsValue t < 10 ^ t.length := by
  induction t with
  | nil => simp
  | cons b t ih =>
    rw [List.all_cons, Bool.and_eq_true] at h
    have hb := digitValue_lt h.1
    have ht := ih h.2
    calc digitValue b * 10 ^ t.length + digitsValue t < (digitValue b + 1) * 10 ^ t.length := by
          rw [Nat.add_mul]; omega
      _ ≤ 10 * 10 ^ t.length := Nat.mul_le_mul_right _ hb
      _ = 10 ^ (t.length + 1) := by ring

@[simp] theorem digitsValue_replicate_zero (n : Nat) : digitsValue (List.replicate n zeroChar) = 0 := by
  induction n with
  | zero => rfl
  | succ n ih => rw [List.replicate_succ, digitsValue, ih]; simp [digitValue, zeroChar]

theorem all_isDigit_replicate_zero (n : Nat) : (List.replicate n zeroChar).all isDigit = true := by
  simp [List.all_replicate, isDigit, zeroChar]

@[simp] theorem digitString_length (n v : Nat) : (digitString n v).length = n := by
  induction n with
  | zero => rfl
  | succ n ih => simp [digitString, ih]

theorem digitString_all (n v : Nat) : (digitString n v).all isDigit = true := by
  induction n with
  | zero => rfl
  | succ n ih => rw [digitString, List.all_cons, isDigit_digitChar (Nat.mod_lt _ (by decide)), ih]; rfl

/-- The digit string of a number spells it modulo `10^n`. -/
theorem digitsValue_digitString (n v : Nat) : digitsValue (digitString n v) = v % 10 ^ n := by
  induction n with
  | zero => simp [digitString, Nat.mod_one]
  | succ n ih =>
    rw [digitString, digitsValue, ih, digitString_length, digitValue_digitChar (Nat.mod_lt _ (by decide)), Nat.pow_succ,
      Nat.mod_mul, Nat.mul_comm]
    ring

/-- Two digit strings of one length that spell one number are the same string. -/
theorem digits_eq_of_value_eq {a b : List Byte} (hl : a.length = b.length) (ha : a.all isDigit = true)
    (hb : b.all isDigit = true) (hv : digitsValue a = digitsValue b) : a = b := by
  induction a generalizing b with
  | nil => exact (List.length_eq_zero_iff.mp hl.symm).symm
  | cons x a ih =>
    cases b with
    | nil => simp at hl
    | cons y b =>
      rw [List.all_cons, Bool.and_eq_true] at ha hb
      have hl' : a.length = b.length := by simpa using hl
      have hA := digitsValue_lt ha.2
      have hB := digitsValue_lt hb.2
      rw [hl'] at hA
      rw [digitsValue, digitsValue, hl'] at hv
      have hq : digitValue x = digitValue y := by
        have e1 := Nat.mul_add_div (Nat.pow_pos (n := b.length) (by decide : 0 < 10)) (digitValue x) (digitsValue a)
        have e2 := Nat.mul_add_div (Nat.pow_pos (n := b.length) (by decide : 0 < 10)) (digitValue y) (digitsValue b)
        rw [Nat.div_eq_of_lt hA, Nat.mul_comm, hv] at e1
        rw [Nat.div_eq_of_lt hB, Nat.mul_comm] at e2
        omega
      rw [hq] at hv
      have hxy : x = y := by rw [← digitChar_digitValue ha.1, hq, digitChar_digitValue hb.1]
      rw [hxy, ih hl' ha.2 hb.2 (by omega)]

@[simp] theorem parseLimbs_length (n : Nat) (t : List Byte) : (parseLimbs n t).length = n := by
  induction n generalizing t with
  | zero => rfl
  | succ n ih => simp [parseLimbs, ih]

theorem all_take {t : List Byte} (h : t.all isDigit = true) (n : Nat) : (t.take n).all isDigit = true :=
  List.all_eq_true.mpr fun _ hx => List.all_eq_true.mp h _ (List.mem_of_mem_take hx)

theorem all_drop {t : List Byte} (h : t.all isDigit = true) (n : Nat) : (t.drop n).all isDigit = true :=
  List.all_eq_true.mpr fun _ hx => List.all_eq_true.mp h _ (List.mem_of_mem_drop hx)

/-- A chunk of at most 18 digits is below BASE (R111). -/
theorem chunk_lt {t : List Byte} (h : t.all isDigit = true) : digitsValue (t.take LD) < BASE := by
  have h1 := digitsValue_lt (all_take h LD)
  have h2 : (t.take LD).length ≤ LD := by simp
  rw [BASE_eq]
  exact h1.trans_le (Nat.pow_le_pow_right (by decide) h2)

/-- The limbs parsed from digits are below BASE (R111, R22). -/
theorem parseLimbs_limb_lt {n : Nat} {t : List Byte} (h : t.all isDigit = true) {l : Word} (hl : l ∈ parseLimbs n t) :
    l.toNat < BASE := by
  induction n generalizing t with
  | zero => simp [parseLimbs] at hl
  | succ n ih =>
    rcases List.mem_cons.mp hl with rfl | hl
    · rw [toNat_ofNat_of_lt_BASE (chunk_lt h)]; exact chunk_lt h
    · exact ih (all_drop h LD) hl

theorem magWf_parseLimbs {c : Config} {t : List Byte} (h : t.all isDigit = true) :
    magWf c (parseLimbs c.N t) = true :=
  (magWf_iff _ _).mpr ⟨parseLimbs_length _ _, fun _ hl => parseLimbs_limb_lt h hl⟩

/-- The limbs parsed from `18·n` digits hold the number the digits spell (R43, R111). -/
theorem val_parseLimbs {n : Nat} {t : List Byte} (h : t.all isDigit = true) (hl : t.length = n * LD) :
    val (parseLimbs n t) = digitsValue t := by
  induction n generalizing t with
  | zero =>
    have ht : t = [] := by simpa using hl
    rw [ht]; rfl
  | succ n ih =>
    have hd : (t.drop LD).length = n * LD := by rw [List.length_drop, hl, Nat.add_mul]; omega
    conv_rhs => rw [← List.take_append_drop LD t, digitsValue_append, hd]
    rw [parseLimbs, val_cons, ih (all_drop h LD) hd, toNat_ofNat_of_lt_BASE (chunk_lt h), parseLimbs_length, BASE_eq,
      ← Nat.pow_mul, Nat.mul_comm LD n]

theorem digits_cons (l : Word) (ls : List Word) : digits (l :: ls) = digitString LD l.toNat ++ digits ls := rfl

@[simp] theorem digits_length (m : List Word) : (digits m).length = m.length * LD := by
  induction m with
  | nil => simp [digits]
  | cons l ls ih => rw [digits_cons, List.length_append, ih, digitString_length, List.length_cons]; ring

theorem digits_all (m : List Word) : (digits m).all isDigit = true := by
  induction m with
  | nil => rfl
  | cons l ls ih => rw [digits_cons, List.all_append, ih, digitString_all]; rfl

/-- The digits of a magnitude spell its number (R10, R112). -/
theorem digitsValue_digits {m : List Word} (h : ∀ l ∈ m, l.toNat < BASE) : digitsValue (digits m) = val m := by
  induction m with
  | nil => rfl
  | cons l ls ih =>
    rw [digits_cons, digitsValue_append, digitsValue_digitString, ih (fun x hx => h x (by simp [hx])), digits_length,
      val_cons, ← BASE_eq, Nat.mod_eq_of_lt (h l (by simp)), BASE_eq, ← Nat.pow_mul, Nat.mul_comm LD]

/-- Parsing the digits of a magnitude gives it back (R111, R112). -/
theorem parseLimbs_digits {m : List Word} (h : ∀ l ∈ m, l.toNat < BASE) : parseLimbs m.length (digits m) = m := by
  have h1 : val (parseLimbs m.length (digits m)) = val m := by
    rw [val_parseLimbs (digits_all m) (digits_length m), digitsValue_digits h]
  have h2 := nat_val (m := parseLimbs m.length (digits m)) (fun l hl => parseLimbs_limb_lt (digits_all m) hl)
  rw [h1, parseLimbs_length, nat_val h] at h2
  exact h2.symm

/-- Stripping leading zeros keeps the number. -/
theorem digitsValue_stripLeading (t : List Byte) : digitsValue (stripLeading t) = digitsValue t := by
  induction t with
  | nil => rfl
  | cons b t ih =>
    rw [stripLeading, List.dropWhile_cons]
    split
    · rename_i hb
      rw [beq_iff_eq.mp hb, ← stripLeading, ih, digitsValue]; simp [digitValue, zeroChar]
    · rfl

theorem stripLeading_length_le (t : List Byte) : (stripLeading t).length ≤ t.length :=
  (List.dropWhile_suffix _).length_le

theorem stripLeading_all {t : List Byte} (h : t.all isDigit = true) : (stripLeading t).all isDigit = true :=
  List.all_eq_true.mpr fun _ hx => List.all_eq_true.mp h _ ((List.dropWhile_suffix _).subset hx)

/-- What stripping leaves does not start with `'0'`. -/
theorem stripLeading_head (t : List Byte) : (stripLeading t).head? ≠ some zeroChar := by
  induction t with
  | nil => simp [stripLeading]
  | cons b t ih =>
    rw [stripLeading, List.dropWhile_cons]
    split
    · exact ih
    · rename_i hb; simpa using hb

/-- Stripping trailing zeros removes a run of zeros at the end. -/
theorem stripTrailing_append (t : List Byte) :
    t = stripTrailing t ++ List.replicate (t.length - (stripTrailing t).length) zeroChar := by
  have h : t.reverse = t.reverse.takeWhile (· == zeroChar) ++ t.reverse.dropWhile (· == zeroChar) :=
    List.takeWhile_append_dropWhile.symm
  have hz : t.reverse.takeWhile (· == zeroChar) =
      List.replicate (t.reverse.takeWhile (· == zeroChar)).length zeroChar := by
    refine List.eq_replicate_iff.mpr ⟨rfl, fun b hb => ?_⟩
    have := List.all_takeWhile (p := (· == zeroChar)) (l := t.reverse)
    exact beq_iff_eq.mp (List.all_eq_true.mp this b hb)
  have hr := congrArg List.reverse h
  rw [List.reverse_reverse, List.reverse_append, hz, List.reverse_replicate] at hr
  have hl := congrArg List.length hr
  rw [List.length_append, List.length_replicate] at hl
  rw [stripTrailing]
  conv_lhs => rw [hr]
  congr 2
  omega

theorem stripTrailing_length_le (t : List Byte) : (stripTrailing t).length ≤ t.length := by
  have h := congrArg List.length (stripTrailing_append t)
  rw [List.length_append] at h; omega

theorem stripTrailing_all {t : List Byte} (h : t.all isDigit = true) : (stripTrailing t).all isDigit = true := by
  rw [stripTrailing_append t, List.all_append, Bool.and_eq_true] at h
  exact h.1

/-- The digits stripped at the end scale the number by their count. -/
theorem digitsValue_stripTrailing (t : List Byte) :
    digitsValue (stripTrailing t) * 10 ^ (t.length - (stripTrailing t).length) = digitsValue t := by
  conv_rhs => rw [stripTrailing_append t, digitsValue_append]
  simp

/-- What stripping leaves does not end with `'0'`. -/
theorem stripTrailing_getLast (t : List Byte) : (stripTrailing t).getLast? ≠ some zeroChar := by
  rw [stripTrailing, List.getLast?_reverse]
  exact stripLeading_head t.reverse

/-- The padded digit string has ND characters (R192). -/
theorem padDecimal_length {c : Config} {ip fp : List Byte} (hN : c.K ≤ c.N) (hi : ip.length ≤ c.I)
    (hf : fp.length ≤ c.F) : (padDecimal c ip fp).length = c.ND := by
  have : c.I + c.F = c.ND := by rw [Config.I, Config.F, Config.ND, ← Nat.add_mul]; congr 1; omega
  simp [padDecimal]; omega

theorem padDecimal_all {c : Config} {ip fp : List Byte} (hi : ip.all isDigit = true) (hf : fp.all isDigit = true) :
    (padDecimal c ip fp).all isDigit = true := by
  simp only [padDecimal, List.all_append, hi, hf, all_isDigit_replicate_zero, Bool.and_true]

/-- The padded digit string spells the number scaled to F fractional digits (R192). -/
theorem digitsValue_padDecimal {c : Config} {ip fp : List Byte} (hf : fp.length ≤ c.F) :
    digitsValue (padDecimal c ip fp) = digitsValue ip * 10 ^ c.F + digitsValue fp * 10 ^ (c.F - fp.length) := by
  rw [padDecimal, digitsValue_append, digitsValue_append, digitsValue_append]
  simp only [digitsValue_replicate_zero, List.length_replicate, Nat.zero_mul, Nat.zero_add, Nat.add_zero]
  conv_rhs => rw [show c.F = fp.length + (c.F - fp.length) by omega, Nat.pow_add]
  rw [Nat.add_sub_cancel_left]; ring

end Sys2Proof.Machine
end

