-- ==== Sys2Proof/Laws/Invariant.lean ====
section
/-! SUPPORT. The invariant of the machine (10_state.md R22, R26, R27) by its parts, and the updates that keep it. -/

namespace Sys2Proof.Machine

open Sys2Proof

/-- The invariant, part by part. -/
theorem State.wf_iff (s : State) : s.wf = true ↔
    s.cfg.wf = true ∧ (∀ r, Value.wf s.cfg (s.getV r) = true) ∧ s.text.length ≤ s.cfg.TMAX ∧ s.status.wf = true := by
  simp [State.wf, RegFile.all_iff, State.getV, and_assoc]

theorem State.magWf_mag {s : State} (h : s.wf = true) (r : VReg) : magWf s.cfg (s.mag r) = true :=
  ((State.wf_iff s).mp h).2.1 r

theorem State.magVal_lt {s : State} (h : s.wf = true) (r : VReg) : s.magVal r < s.cfg.CAP :=
  val_lt_CAP (State.magWf_mag h r)

theorem Config.wf_iff (c : Config) : c.wf = true ↔ 1 ≤ c.N ∧ c.K < c.N ∧ c.N ≤ 255 := by simp [Config.wf]

theorem Config.SC_lt_CAP {c : Config} (h : c.wf = true) : c.SC < c.CAP :=
  Nat.pow_lt_pow_right (by decide) ((Config.wf_iff c).mp h).2.1

/-- Writing a value within the limb invariant keeps the invariant (R22). -/
theorem State.wf_setV {s : State} (h : s.wf = true) (i : VReg) {x : Value} (hx : Value.wf s.cfg x = true) :
    (s.setV i x).wf = true := by
  rw [State.wf_iff] at *
  refine ⟨h.1, fun r => ?_, h.2.2.1, h.2.2.2⟩
  by_cases hr : r = i
  · rw [hr, State.getV_setV_same]; exact hx
  · rw [State.getV_setV_ne s x hr]; exact h.2.1 r

/-- A scalar register may hold any word (R25). -/
theorem State.wf_setS {s : State} (h : s.wf = true) (i : SReg) (w : Word) : (s.setS i w).wf = true := h

theorem State.wf_setText {s : State} (h : s.wf = true) {t : List Byte} (ht : t.length ≤ s.cfg.TMAX) :
    (s.setText t).wf = true := by
  rw [State.wf_iff] at *
  exact ⟨h.1, h.2.1, ht, h.2.2.2⟩

theorem State.wf_taken {s : State} (h : s.wf = true) (rest : List HostOp) : (s.taken rest).wf = true := h

/-- A fault latches a cause that is not 0 (R27, R236). -/
theorem State.wf_latchFault {s : State} (h : s.wf = true) (cmd : CmdWord) {c : Cause} (hc : c ≠ .none) :
    (s.latchFault cmd c).wf = true := by
  rw [State.wf_iff] at *
  exact ⟨h.1, h.2.1, h.2.2.1, by simp [Status.wf, hc]⟩

/-- OK and INVALID_FORMAT are set on a running unit only (R234, R235). -/
theorem State.wf_setCC_running {s : State} (h : s.wf = true) (hr : s.running) {cc : CompletionCode}
    (hcc : cc = .ok ∨ cc = .invalidFormat) : (s.setCC cc).wf = true := by
  rw [State.wf_iff] at *
  refine ⟨h.1, h.2.1, h.2.2.1, ?_⟩
  have hs := h.2.2.2
  rcases hcc with rfl | rfl <;> simp_all [Status.wf, State.running]

/-- REFUSED is set on a frozen unit only (R238). -/
theorem State.wf_setCC_refused {s : State} (h : s.wf = true) (hf : s.status.frozen = true) :
    (s.setCC .refused).wf = true := by
  rw [State.wf_iff] at *
  refine ⟨h.1, h.2.1, h.2.2.1, ?_⟩
  have hs := h.2.2.2
  simp_all [Status.wf]

theorem Value.wf_zero (c : Config) : Value.wf c (Value.zero c) = true := by
  simp [Value.wf, magWf, Value.zero, BASE]

/-- The shared ending of a command keeps the invariant when its completion does: a done state within the invariant and
still running, a fault with a cause (R13). -/
theorem runCommand_keeps_wf {s t : State} {i : Instr} {c : Completion} (h : s.wf = true)
    (hd : ∀ s', s.running → c = .done s' → s'.wf = true ∧ s'.running) (hf : ∀ cause, c = .fault cause → cause ≠ .none)
    (he : runCommand i s c = .next t) : t.wf = true := by
  rcases runCommand_cases he with ⟨hfr, rfl⟩ | ⟨_, _, rfl⟩ | ⟨hr, _, ⟨s', hc, rfl⟩ | ⟨_, rfl⟩ | ⟨cause, hc, rfl⟩⟩
  · exact State.wf_setCC_refused h hfr
  · exact State.wf_latchFault h _ (by decide)
  · exact State.wf_setCC_running (hd s' hr hc).1 (hd s' hr hc).2 (.inl rfl)
  · exact State.wf_setCC_running h hr (.inr rfl)
  · exact State.wf_latchFault h _ (hf cause hc)

/-- What a Natural command writes is within the limb invariant (R22). -/
theorem Value.wf_natural (c : Config) (v : Nat) : Value.wf c (natural c v) = true := magWf_nat c v

theorem Value.wf_nat (c : Config) (b : Bool) (v : Nat) : Value.wf c { sign := b, mag := nat c.N v } = true :=
  magWf_nat c v

theorem Value.wf_constRom (c : Config) (idx : Nat) : Value.wf c (constRom c idx) = true := by
  unfold constRom; split <;> exact Value.wf_natural c _

/-- The complement of a magnitude within the limb invariant is within it (R127). -/
theorem magWf_complementMag {c : Config} {a : List Word} (h : magWf c a = true) : magWf c (complementMag a) = true :=
  (magWf_iff _ _).mpr ⟨(complementMag_length a).trans ((magWf_iff _ _).mp h).1, fun _ hl => complementMag_limb_lt hl⟩

theorem natural_digits_fit (c : Config) {m : List Word} (h : magWf c m = true) : (digits m).length ≤ c.TMAX := by
  rw [digits_length, ((magWf_iff _ _).mp h).1, Config.TMAX, Config.ND]; omega

/-- The text of a Decimal fits the text buffer (R193, R8). -/
theorem formatDecimal_length_le {c : Config} (hc : c.wf = true) {x : Value} (hx : Value.wf c x = true) :
    (formatDecimal c x).length ≤ c.TMAX := by
  have hN := (Config.wf_iff c).mp hc
  have hl : (digits x.mag).length = c.ND := by rw [digits_length, ((magWf_iff _ _).mp hx).1, Config.ND]
  have hIF : c.I + c.F = c.ND := by rw [Config.I, Config.F, Config.ND, ← Nat.add_mul]; congr 1; omega
  have hI : 18 ≤ c.I := Nat.mul_le_mul_right LD (show 1 ≤ c.N - c.K by omega)
  have hip := stripLeading_length_le ((digits x.mag).take c.I)
  have hfp := stripTrailing_length_le ((digits x.mag).drop c.I)
  rw [List.length_take] at hip
  rw [List.length_drop] at hfp
  rw [formatDecimal, Config.TMAX]
  split
  · simp
  · simp only [List.length_append]
    have hs : (if x.sign then [minusChar] else ([] : List Byte)).length ≤ 1 := by split <;> simp
    have hi : (if stripLeading ((digits x.mag).take c.I) = [] then [zeroChar]
        else stripLeading ((digits x.mag).take c.I)).length ≤ c.I := by
      split
      · simp; omega
      · omega
    have hf : (if stripTrailing ((digits x.mag).drop c.I) = [] then []
        else pointChar :: stripTrailing ((digits x.mag).drop c.I)).length ≤ c.F + 1 := by
      split
      · simp
      · simp only [List.length_cons]; omega
    omega

/-- A walk that accepts a text has cut it into the parts of the grammar (R191). -/
theorem parseDecimal_some {c : Config} {t : List Byte} {b : Bool} {ip fp : List Byte}
    (h : parseDecimal c t = some (b, ip, fp)) : isDecimalText c t b ip fp := by
  have hall : ∀ l : List Byte, (l.takeWhile isDigit).all isDigit = true := fun l => List.all_takeWhile
  have hmin : t = (if (t.head? == some minusChar) = true then [minusChar] else []) ++
      (if (t.head? == some minusChar) = true then t.tail else t) := by
    cases t with
    | nil => rfl
    | cons x t => by_cases hx : x = minusChar <;> simp [hx]
  have hcut : ∀ l : List Byte, l = l.takeWhile isDigit ++ l.dropWhile isDigit := fun l =>
    List.takeWhile_append_dropWhile.symm
  revert h
  rw [parseDecimal]
  generalize ht : (if (t.head? == some minusChar) = true then t.tail else t) = body at *
  generalize hm : (t.head? == some minusChar) = m at *
  simp only
  intro h
  split at h
  · cases h
  · rename_i hlen
    split at h
    · rename_i hnil
      simp only [Option.some.injEq, Prod.mk.injEq] at h
      obtain ⟨rfl, rfl, rfl⟩ := h
      refine ⟨⟨by omega, by omega, hall _⟩, ⟨by simp, rfl⟩, .inl ⟨rfl, ?_⟩⟩
      conv_lhs => rw [hmin, hcut body, hnil, List.append_nil]
    · rename_i ch rest hcons
      split at h
      · rename_i hch
        split at h
        · cases h
        · rename_i hF
          split at h
          · rename_i hrest
            simp only [Option.some.injEq, Prod.mk.injEq] at h
            obtain ⟨rfl, rfl, rfl⟩ := h
            refine ⟨⟨by omega, by omega, hall _⟩, ⟨by omega, hall _⟩, .inr ?_⟩
            have hr := hcut rest
            rw [hrest, List.append_nil] at hr
            rw [← hr]
            conv_lhs => rw [hmin, hcut body, hcons, hch]
            simp
          · cases h
      · cases h

/-- A text of the grammar is accepted, and cut as the grammar says (R191). -/
theorem parseDecimal_of {c : Config} {t : List Byte} {b : Bool} {ip fp : List Byte}
    (h : isDecimalText c t b ip fp) : parseDecimal c t = some (b, ip, fp) := by
  obtain ⟨⟨h1, h2, h3⟩, ⟨h4, h5⟩, h6⟩ := h
  have hip : ip ≠ [] := by rintro rfl; simp at h1
  have hne : ∀ rest, (ip ++ rest).head? ≠ some minusChar := by
    intro rest hh
    cases ip with
    | nil => exact hip rfl
    | cons x ip =>
      simp only [List.cons_append, List.head?_cons, Option.some.injEq] at hh
      subst hh; simp [isDigit, minusChar] at h3
  have hall3 : ∀ x ∈ ip, isDigit x = true := List.all_eq_true.mp h3
  have hall5 : ∀ x ∈ fp, isDigit x = true := List.all_eq_true.mp h5
  have hpt : isDigit pointChar = false := by decide
  have key : ∀ rest, t = (if b then [minusChar] else []) ++ (ip ++ rest) →
      (t.head? == some minusChar) = b ∧ (if (t.head? == some minusChar) = true then t.tail else t) = ip ++ rest := by
    intro rest ht
    cases b
    · simp only [Bool.false_eq_true, if_false, List.nil_append] at ht
      have hh := hne rest
      rw [← ht] at hh
      have hm : (t.head? == some minusChar) = false := by simpa using hh
      rw [hm]; exact ⟨rfl, ht⟩
    · simp [ht]
  rw [parseDecimal]
  rcases h6 with ⟨hfp, ht⟩ | ht
  · obtain ⟨k1, k2⟩ := key [] (by rw [ht, List.append_nil])
    simp only [k2, List.append_nil, List.takeWhile_eq_self_iff.mpr hall3, List.dropWhile_eq_nil_iff.mpr hall3]
    rw [if_neg (by omega), k1, hfp]
  · obtain ⟨k1, k2⟩ := key (pointChar :: fp) (by rw [ht, List.append_assoc])
    have htw : (ip ++ pointChar :: fp).takeWhile isDigit = ip := by
      rw [List.takeWhile_append_of_pos hall3]; simp [hpt]
    have hdw : (ip ++ pointChar :: fp).dropWhile isDigit = pointChar :: fp := by
      rw [List.dropWhile_append_of_pos hall3]; simp [hpt]
    simp only [k2, htw, hdw, List.takeWhile_eq_self_iff.mpr hall5, List.dropWhile_eq_nil_iff.mpr hall5]
    rw [if_neg (by omega), if_pos trivial, if_neg (by omega), if_pos trivial, k1]

end Sys2Proof.Machine
end

