-- ==== Sys2Proof/Laws/PerInstr.lean ====
section
/-! SUPPORT. Statements made per instruction: the word of every command holds its opcode and operands in the fields of
R60, the opcode has the command's format in the map of R65, and every field the format does not use is zero
(30_encoding.md R60, R62, R65, R66). -/

/-- The word of the command holds its fields and matches its row of R65 (R60, R62). -/
def Sys2Proof.Laws.MaskMatch.Statement (i : Sys2Proof.Instr) : Prop :=
  Sys2Proof.Machine.encodedAs i i.format i.fields

namespace Sys2Proof.Laws

open Sys2Proof Sys2Proof.Machine

theorem unused3 : 0#3 &&& 7#3 = 0#3 := by decide

theorem unused12 : 0#12 &&& 0xFFF#12 = 0#12 := by decide

/-- The parts of the statement, the unused fields one by one. -/
theorem MaskMatch_of {i : Instr} (hr : (i.fields.op, i.format) ∈ opcodeFormats)
    (hop : i.fields.op &&& i.format.maskFields.op = i.fields.op) (hd : i.fields.rd &&& i.format.maskFields.rd = 0#3)
    (hx : i.fields.rx &&& i.format.maskFields.rx = 0#3) (ha : i.fields.ra &&& i.format.maskFields.ra = 0#3)
    (hb : i.fields.rb &&& i.format.maskFields.rb = 0#3) (hi : i.fields.imm &&& i.format.maskFields.imm = 0#12) :
    MaskMatch.Statement i :=
  ⟨encode_fields i, hr, toWord_and_mask_of hop hd hx ha hb hi⟩

theorem MaskMatch.nop : MaskMatch.Statement .nop :=
  MaskMatch_of (show (0x00#8, Format.f0) ∈ opcodeFormats by decide) (show 0x00#8 &&& 0xFF#8 = 0x00#8 by decide)
    unused3 unused3 unused3 unused3 unused12

theorem MaskMatch.sli (sd : SReg) (imm : Imm) : MaskMatch.Statement (.sli sd imm) :=
  MaskMatch_of (show (0x01#8, Format.fdi) ∈ opcodeFormats by decide) (show 0x01#8 &&& 0xFF#8 = 0x01#8 by decide)
    BitVec.and_zero unused3 unused3 unused3 BitVec.and_zero

theorem MaskMatch.vmov (vd : VReg) (va : VReg) : MaskMatch.Statement (.vmov vd va) :=
  MaskMatch_of (show (0x02#8, Format.fda) ∈ opcodeFormats by decide) (show 0x02#8 &&& 0xFF#8 = 0x02#8 by decide)
    BitVec.and_zero unused3 BitVec.and_zero unused3 unused12

theorem MaskMatch.vgetl (sd : SReg) (va : VReg) (idx : Imm) : MaskMatch.Statement (.vgetl sd va idx) :=
  MaskMatch_of (show (0x03#8, Format.fdai) ∈ opcodeFormats by decide) (show 0x03#8 &&& 0xFF#8 = 0x03#8 by decide)
    BitVec.and_zero unused3 BitVec.and_zero unused3 BitVec.and_zero

theorem MaskMatch.vsetl (vd : VReg) (idx : Imm) (sb : SReg) : MaskMatch.Statement (.vsetl vd idx sb) :=
  MaskMatch_of (show (0x04#8, Format.fdbi) ∈ opcodeFormats by decide) (show 0x04#8 &&& 0xFF#8 = 0x04#8 by decide)
    BitVec.and_zero unused3 unused3 BitVec.and_zero BitVec.and_zero

theorem MaskMatch.vgets (sd : SReg) (va : VReg) : MaskMatch.Statement (.vgets sd va) :=
  MaskMatch_of (show (0x05#8, Format.fda) ∈ opcodeFormats by decide) (show 0x05#8 &&& 0xFF#8 = 0x05#8 by decide)
    BitVec.and_zero unused3 BitVec.and_zero unused3 unused12

theorem MaskMatch.rebal (sd : SReg) (sx : SReg) (sa : SReg) (sb : SReg) : MaskMatch.Statement (.rebal sd sx sa sb) :=
  MaskMatch_of (show (0x10#8, Format.fdxab) ∈ opcodeFormats by decide) (show 0x10#8 &&& 0xFF#8 = 0x10#8 by decide)
    BitVec.and_zero BitVec.and_zero BitVec.and_zero BitVec.and_zero unused12

theorem MaskMatch.splith (sd : SReg) (sx : SReg) (sa : SReg) : MaskMatch.Statement (.splith sd sx sa) :=
  MaskMatch_of (show (0x11#8, Format.fdxa) ∈ opcodeFormats by decide) (show 0x11#8 &&& 0xFF#8 = 0x11#8 by decide)
    BitVec.and_zero BitVec.and_zero BitVec.and_zero unused3 unused12

theorem MaskMatch.mulw (sd : SReg) (sx : SReg) (sa : SReg) (sb : SReg) : MaskMatch.Statement (.mulw sd sx sa sb) :=
  MaskMatch_of (show (0x12#8, Format.fdxab) ∈ opcodeFormats by decide) (show 0x12#8 &&& 0xFF#8 = 0x12#8 by decide)
    BitVec.and_zero BitVec.and_zero BitVec.and_zero BitVec.and_zero unused12

theorem MaskMatch.digcnt (sd : SReg) (sa : SReg) : MaskMatch.Statement (.digcnt sd sa) :=
  MaskMatch_of (show (0x13#8, Format.fda) ∈ opcodeFormats by decide) (show 0x13#8 &&& 0xFF#8 = 0x13#8 by decide)
    BitVec.and_zero unused3 BitVec.and_zero unused3 unused12

theorem MaskMatch.pow10 (sd : SReg) (sa : SReg) : MaskMatch.Statement (.pow10 sd sa) :=
  MaskMatch_of (show (0x14#8, Format.fda) ∈ opcodeFormats by decide) (show 0x14#8 &&& 0xFF#8 = 0x14#8 by decide)
    BitVec.and_zero unused3 BitVec.and_zero unused3 unused12

theorem MaskMatch.shlw (sd : SReg) (sx : SReg) (sa : SReg) (sb : SReg) : MaskMatch.Statement (.shlw sd sx sa sb) :=
  MaskMatch_of (show (0x15#8, Format.fdxab) ∈ opcodeFormats by decide) (show 0x15#8 &&& 0xFF#8 = 0x15#8 by decide)
    BitVec.and_zero BitVec.and_zero BitVec.and_zero BitVec.and_zero unused12

theorem MaskMatch.shrw (sd : SReg) (sx : SReg) (sa : SReg) (sb : SReg) : MaskMatch.Statement (.shrw sd sx sa sb) :=
  MaskMatch_of (show (0x16#8, Format.fdxab) ∈ opcodeFormats by decide) (show 0x16#8 &&& 0xFF#8 = 0x16#8 by decide)
    BitVec.and_zero BitVec.and_zero BitVec.and_zero BitVec.and_zero unused12

theorem MaskMatch.div2by1 (sd : SReg) (sx : SReg) (sa : SReg) (sb : SReg) (sc : SReg) : MaskMatch.Statement (.div2by1 sd sx sa sb sc) :=
  MaskMatch_of (show (0x17#8, Format.fdxabc) ∈ opcodeFormats by decide) (show 0x17#8 &&& 0xFF#8 = 0x17#8 by decide)
    BitVec.and_zero BitVec.and_zero BitVec.and_zero BitVec.and_zero (show (0#9 ++ sc) &&& 0xFF8#12 = 0#12 by revert sc; decide)

theorem MaskMatch.nparse (vd : VReg) : MaskMatch.Statement (.nparse vd) :=
  MaskMatch_of (show (0x20#8, Format.fd) ∈ opcodeFormats by decide) (show 0x20#8 &&& 0xFF#8 = 0x20#8 by decide)
    BitVec.and_zero unused3 unused3 unused3 unused12

theorem MaskMatch.nformat (va : VReg) : MaskMatch.Statement (.nformat va) :=
  MaskMatch_of (show (0x21#8, Format.fa) ∈ opcodeFormats by decide) (show 0x21#8 &&& 0xFF#8 = 0x21#8 by decide)
    unused3 unused3 BitVec.and_zero unused3 unused12

theorem MaskMatch.nadd (vd : VReg) (va : VReg) (vb : VReg) : MaskMatch.Statement (.nadd vd va vb) :=
  MaskMatch_of (show (0x22#8, Format.fdab) ∈ opcodeFormats by decide) (show 0x22#8 &&& 0xFF#8 = 0x22#8 by decide)
    BitVec.and_zero unused3 BitVec.and_zero BitVec.and_zero unused12

theorem MaskMatch.nsub (vd : VReg) (va : VReg) (vb : VReg) : MaskMatch.Statement (.nsub vd va vb) :=
  MaskMatch_of (show (0x23#8, Format.fdab) ∈ opcodeFormats by decide) (show 0x23#8 &&& 0xFF#8 = 0x23#8 by decide)
    BitVec.and_zero unused3 BitVec.and_zero BitVec.and_zero unused12

theorem MaskMatch.ncompl (vd : VReg) (va : VReg) : MaskMatch.Statement (.ncompl vd va) :=
  MaskMatch_of (show (0x24#8, Format.fda) ∈ opcodeFormats by decide) (show 0x24#8 &&& 0xFF#8 = 0x24#8 by decide)
    BitVec.and_zero unused3 BitVec.and_zero unused3 unused12

theorem MaskMatch.nshll (vd : VReg) (vx : VReg) (va : VReg) (sb : SReg) : MaskMatch.Statement (.nshll vd vx va sb) :=
  MaskMatch_of (show (0x25#8, Format.fdxab) ∈ opcodeFormats by decide) (show 0x25#8 &&& 0xFF#8 = 0x25#8 by decide)
    BitVec.and_zero BitVec.and_zero BitVec.and_zero BitVec.and_zero unused12

theorem MaskMatch.nshrl (vd : VReg) (vx : VReg) (va : VReg) (sb : SReg) : MaskMatch.Statement (.nshrl vd vx va sb) :=
  MaskMatch_of (show (0x26#8, Format.fdxab) ∈ opcodeFormats by decide) (show 0x26#8 &&& 0xFF#8 = 0x26#8 by decide)
    BitVec.and_zero BitVec.and_zero BitVec.and_zero BitVec.and_zero unused12

theorem MaskMatch.nshld (vd : VReg) (vx : VReg) (va : VReg) (sb : SReg) : MaskMatch.Statement (.nshld vd vx va sb) :=
  MaskMatch_of (show (0x27#8, Format.fdxab) ∈ opcodeFormats by decide) (show 0x27#8 &&& 0xFF#8 = 0x27#8 by decide)
    BitVec.and_zero BitVec.and_zero BitVec.and_zero BitVec.and_zero unused12

theorem MaskMatch.nshrd (vd : VReg) (vx : VReg) (va : VReg) (sb : SReg) : MaskMatch.Statement (.nshrd vd vx va sb) :=
  MaskMatch_of (show (0x28#8, Format.fdxab) ∈ opcodeFormats by decide) (show 0x28#8 &&& 0xFF#8 = 0x28#8 by decide)
    BitVec.and_zero BitVec.and_zero BitVec.and_zero BitVec.and_zero unused12

theorem MaskMatch.nmull (vd : VReg) (sx : SReg) (va : VReg) (sb : SReg) : MaskMatch.Statement (.nmull vd sx va sb) :=
  MaskMatch_of (show (0x29#8, Format.fdxab) ∈ opcodeFormats by decide) (show 0x29#8 &&& 0xFF#8 = 0x29#8 by decide)
    BitVec.and_zero BitVec.and_zero BitVec.and_zero BitVec.and_zero unused12

theorem MaskMatch.nmul (vd : VReg) (vx : VReg) (va : VReg) (vb : VReg) : MaskMatch.Statement (.nmul vd vx va vb) :=
  MaskMatch_of (show (0x2A#8, Format.fdxab) ∈ opcodeFormats by decide) (show 0x2A#8 &&& 0xFF#8 = 0x2A#8 by decide)
    BitVec.and_zero BitVec.and_zero BitVec.and_zero BitVec.and_zero unused12

theorem MaskMatch.ndivl (vd : VReg) (sx : SReg) (va : VReg) (sb : SReg) : MaskMatch.Statement (.ndivl vd sx va sb) :=
  MaskMatch_of (show (0x2B#8, Format.fdxab) ∈ opcodeFormats by decide) (show 0x2B#8 &&& 0xFF#8 = 0x2B#8 by decide)
    BitVec.and_zero BitVec.and_zero BitVec.and_zero BitVec.and_zero unused12

theorem MaskMatch.ndiv (vd : VReg) (vx : VReg) (va : VReg) (vb : VReg) : MaskMatch.Statement (.ndiv vd vx va vb) :=
  MaskMatch_of (show (0x2C#8, Format.fdxab) ∈ opcodeFormats by decide) (show 0x2C#8 &&& 0xFF#8 = 0x2C#8 by decide)
    BitVec.and_zero BitVec.and_zero BitVec.and_zero BitVec.and_zero unused12

theorem MaskMatch.neq (sd : SReg) (va : VReg) (vb : VReg) : MaskMatch.Statement (.neq sd va vb) :=
  MaskMatch_of (show (0x30#8, Format.fdab) ∈ opcodeFormats by decide) (show 0x30#8 &&& 0xFF#8 = 0x30#8 by decide)
    BitVec.and_zero unused3 BitVec.and_zero BitVec.and_zero unused12

theorem MaskMatch.ngt (sd : SReg) (va : VReg) (vb : VReg) : MaskMatch.Statement (.ngt sd va vb) :=
  MaskMatch_of (show (0x31#8, Format.fdab) ∈ opcodeFormats by decide) (show 0x31#8 &&& 0xFF#8 = 0x31#8 by decide)
    BitVec.and_zero unused3 BitVec.and_zero BitVec.and_zero unused12

theorem MaskMatch.nlt (sd : SReg) (va : VReg) (vb : VReg) : MaskMatch.Statement (.nlt sd va vb) :=
  MaskMatch_of (show (0x32#8, Format.fdab) ∈ opcodeFormats by decide) (show 0x32#8 &&& 0xFF#8 = 0x32#8 by decide)
    BitVec.and_zero unused3 BitVec.and_zero BitVec.and_zero unused12

theorem MaskMatch.nge (sd : SReg) (va : VReg) (vb : VReg) : MaskMatch.Statement (.nge sd va vb) :=
  MaskMatch_of (show (0x33#8, Format.fdab) ∈ opcodeFormats by decide) (show 0x33#8 &&& 0xFF#8 = 0x33#8 by decide)
    BitVec.and_zero unused3 BitVec.and_zero BitVec.and_zero unused12

theorem MaskMatch.nle (sd : SReg) (va : VReg) (vb : VReg) : MaskMatch.Statement (.nle sd va vb) :=
  MaskMatch_of (show (0x34#8, Format.fdab) ∈ opcodeFormats by decide) (show 0x34#8 &&& 0xFF#8 = 0x34#8 by decide)
    BitVec.and_zero unused3 BitVec.and_zero BitVec.and_zero unused12

theorem MaskMatch.iadd (vd : VReg) (va : VReg) (vb : VReg) : MaskMatch.Statement (.iadd vd va vb) :=
  MaskMatch_of (show (0x40#8, Format.fdab) ∈ opcodeFormats by decide) (show 0x40#8 &&& 0xFF#8 = 0x40#8 by decide)
    BitVec.and_zero unused3 BitVec.and_zero BitVec.and_zero unused12

theorem MaskMatch.isub (vd : VReg) (va : VReg) (vb : VReg) : MaskMatch.Statement (.isub vd va vb) :=
  MaskMatch_of (show (0x41#8, Format.fdab) ∈ opcodeFormats by decide) (show 0x41#8 &&& 0xFF#8 = 0x41#8 by decide)
    BitVec.and_zero unused3 BitVec.and_zero BitVec.and_zero unused12

theorem MaskMatch.ineg (vd : VReg) (va : VReg) : MaskMatch.Statement (.ineg vd va) :=
  MaskMatch_of (show (0x42#8, Format.fda) ∈ opcodeFormats by decide) (show 0x42#8 &&& 0xFF#8 = 0x42#8 by decide)
    BitVec.and_zero unused3 BitVec.and_zero unused3 unused12

theorem MaskMatch.imul (vd : VReg) (vx : VReg) (va : VReg) (vb : VReg) : MaskMatch.Statement (.imul vd vx va vb) :=
  MaskMatch_of (show (0x43#8, Format.fdxab) ∈ opcodeFormats by decide) (show 0x43#8 &&& 0xFF#8 = 0x43#8 by decide)
    BitVec.and_zero BitVec.and_zero BitVec.and_zero BitVec.and_zero unused12

theorem MaskMatch.idiv (vd : VReg) (vx : VReg) (va : VReg) (vb : VReg) : MaskMatch.Statement (.idiv vd vx va vb) :=
  MaskMatch_of (show (0x44#8, Format.fdxab) ∈ opcodeFormats by decide) (show 0x44#8 &&& 0xFF#8 = 0x44#8 by decide)
    BitVec.and_zero BitVec.and_zero BitVec.and_zero BitVec.and_zero unused12

theorem MaskMatch.ieq (sd : SReg) (va : VReg) (vb : VReg) : MaskMatch.Statement (.ieq sd va vb) :=
  MaskMatch_of (show (0x48#8, Format.fdab) ∈ opcodeFormats by decide) (show 0x48#8 &&& 0xFF#8 = 0x48#8 by decide)
    BitVec.and_zero unused3 BitVec.and_zero BitVec.and_zero unused12

theorem MaskMatch.igt (sd : SReg) (va : VReg) (vb : VReg) : MaskMatch.Statement (.igt sd va vb) :=
  MaskMatch_of (show (0x49#8, Format.fdab) ∈ opcodeFormats by decide) (show 0x49#8 &&& 0xFF#8 = 0x49#8 by decide)
    BitVec.and_zero unused3 BitVec.and_zero BitVec.and_zero unused12

theorem MaskMatch.ilt (sd : SReg) (va : VReg) (vb : VReg) : MaskMatch.Statement (.ilt sd va vb) :=
  MaskMatch_of (show (0x4A#8, Format.fdab) ∈ opcodeFormats by decide) (show 0x4A#8 &&& 0xFF#8 = 0x4A#8 by decide)
    BitVec.and_zero unused3 BitVec.and_zero BitVec.and_zero unused12

theorem MaskMatch.ige (sd : SReg) (va : VReg) (vb : VReg) : MaskMatch.Statement (.ige sd va vb) :=
  MaskMatch_of (show (0x4B#8, Format.fdab) ∈ opcodeFormats by decide) (show 0x4B#8 &&& 0xFF#8 = 0x4B#8 by decide)
    BitVec.and_zero unused3 BitVec.and_zero BitVec.and_zero unused12

theorem MaskMatch.ile (sd : SReg) (va : VReg) (vb : VReg) : MaskMatch.Statement (.ile sd va vb) :=
  MaskMatch_of (show (0x4C#8, Format.fdab) ∈ opcodeFormats by decide) (show 0x4C#8 &&& 0xFF#8 = 0x4C#8 by decide)
    BitVec.and_zero unused3 BitVec.and_zero BitVec.and_zero unused12

theorem MaskMatch.dparse (vd : VReg) : MaskMatch.Statement (.dparse vd) :=
  MaskMatch_of (show (0x50#8, Format.fd) ∈ opcodeFormats by decide) (show 0x50#8 &&& 0xFF#8 = 0x50#8 by decide)
    BitVec.and_zero unused3 unused3 unused3 unused12

theorem MaskMatch.dformat (va : VReg) : MaskMatch.Statement (.dformat va) :=
  MaskMatch_of (show (0x51#8, Format.fa) ∈ opcodeFormats by decide) (show 0x51#8 &&& 0xFF#8 = 0x51#8 by decide)
    unused3 unused3 BitVec.and_zero unused3 unused12

theorem MaskMatch.dadd (vd : VReg) (va : VReg) (vb : VReg) : MaskMatch.Statement (.dadd vd va vb) :=
  MaskMatch_of (show (0x52#8, Format.fdab) ∈ opcodeFormats by decide) (show 0x52#8 &&& 0xFF#8 = 0x52#8 by decide)
    BitVec.and_zero unused3 BitVec.and_zero BitVec.and_zero unused12

theorem MaskMatch.dsub (vd : VReg) (va : VReg) (vb : VReg) : MaskMatch.Statement (.dsub vd va vb) :=
  MaskMatch_of (show (0x53#8, Format.fdab) ∈ opcodeFormats by decide) (show 0x53#8 &&& 0xFF#8 = 0x53#8 by decide)
    BitVec.and_zero unused3 BitVec.and_zero BitVec.and_zero unused12

theorem MaskMatch.dmul (vd : VReg) (va : VReg) (vb : VReg) : MaskMatch.Statement (.dmul vd va vb) :=
  MaskMatch_of (show (0x54#8, Format.fdab) ∈ opcodeFormats by decide) (show 0x54#8 &&& 0xFF#8 = 0x54#8 by decide)
    BitVec.and_zero unused3 BitVec.and_zero BitVec.and_zero unused12

theorem MaskMatch.ddiv (vd : VReg) (va : VReg) (vb : VReg) : MaskMatch.Statement (.ddiv vd va vb) :=
  MaskMatch_of (show (0x55#8, Format.fdab) ∈ opcodeFormats by decide) (show 0x55#8 &&& 0xFF#8 = 0x55#8 by decide)
    BitVec.and_zero unused3 BitVec.and_zero BitVec.and_zero unused12

theorem MaskMatch.diszero (sd : SReg) (va : VReg) : MaskMatch.Statement (.diszero sd va) :=
  MaskMatch_of (show (0x56#8, Format.fda) ∈ opcodeFormats by decide) (show 0x56#8 &&& 0xFF#8 = 0x56#8 by decide)
    BitVec.and_zero unused3 BitVec.and_zero unused3 unused12

theorem MaskMatch.dconst (vd : VReg) (idx : Imm) : MaskMatch.Statement (.dconst vd idx) :=
  MaskMatch_of (show (0x57#8, Format.fdi) ∈ opcodeFormats by decide) (show 0x57#8 &&& 0xFF#8 = 0x57#8 by decide)
    BitVec.and_zero unused3 unused3 unused3 BitVec.and_zero

theorem MaskMatch.deq (sd : SReg) (va : VReg) (vb : VReg) : MaskMatch.Statement (.deq sd va vb) :=
  MaskMatch_of (show (0x58#8, Format.fdab) ∈ opcodeFormats by decide) (show 0x58#8 &&& 0xFF#8 = 0x58#8 by decide)
    BitVec.and_zero unused3 BitVec.and_zero BitVec.and_zero unused12

theorem MaskMatch.dgt (sd : SReg) (va : VReg) (vb : VReg) : MaskMatch.Statement (.dgt sd va vb) :=
  MaskMatch_of (show (0x59#8, Format.fdab) ∈ opcodeFormats by decide) (show 0x59#8 &&& 0xFF#8 = 0x59#8 by decide)
    BitVec.and_zero unused3 BitVec.and_zero BitVec.and_zero unused12

theorem MaskMatch.dlt (sd : SReg) (va : VReg) (vb : VReg) : MaskMatch.Statement (.dlt sd va vb) :=
  MaskMatch_of (show (0x5A#8, Format.fdab) ∈ opcodeFormats by decide) (show 0x5A#8 &&& 0xFF#8 = 0x5A#8 by decide)
    BitVec.and_zero unused3 BitVec.and_zero BitVec.and_zero unused12

theorem MaskMatch.dge (sd : SReg) (va : VReg) (vb : VReg) : MaskMatch.Statement (.dge sd va vb) :=
  MaskMatch_of (show (0x5B#8, Format.fdab) ∈ opcodeFormats by decide) (show 0x5B#8 &&& 0xFF#8 = 0x5B#8 by decide)
    BitVec.and_zero unused3 BitVec.and_zero BitVec.and_zero unused12

theorem MaskMatch.dle (sd : SReg) (va : VReg) (vb : VReg) : MaskMatch.Statement (.dle sd va vb) :=
  MaskMatch_of (show (0x5C#8, Format.fdab) ∈ opcodeFormats by decide) (show 0x5C#8 &&& 0xFF#8 = 0x5C#8 by decide)
    BitVec.and_zero unused3 BitVec.and_zero BitVec.and_zero unused12

end Sys2Proof.Laws
end

