-- ==== Sys2Proof/Tests/Slice0.lean ====
section
/-! SUPPORT. Named tests: the well-formedness checks, words written out from 30_encoding.md, one step of every command
with the results of 95_test_vectors.md, and a witness for the hypotheses of every statement. -/

namespace Sys2Proof.Machine.Tests

open Sys2Proof Sys2Proof.Machine

set_option Elab.async false

/-- The small configuration, N = 2, K = 1. -/
def small : Config := { N := 2, K := 1, dc0 := false }

/-- The smallest configuration, N = 1, K = 0. -/
def smallest : Config := { N := 1, K := 0, dc0 := false }

/-- N = 2, K = 0: no fraction digits. -/
def noFraction : Config := { N := 2, K := 0, dc0 := false }

/-- A register's contents by its numbers. -/
def value (sign : Bool) (limbs : List Nat) : Value := { sign := sign, mag := limbs.map (BitVec.ofNat 64) }

/-- Text by its characters. -/
def txt (cs : List Char) : List Byte := cs.map (fun ch => BitVec.ofNat 8 ch.toNat)

/-- Number `i` of a list as a word, 0 where the list has ended. -/
def at_ (w : List Nat) (i : Nat) : Word := BitVec.ofNat 64 (w.getD i 0)

/-- A unit after reset with V0, V1 and the scalar registers from S0 on loaded. -/
def unit (c : Config) (a b : Value) (w : List Nat) : State :=
  { (State.resetWith c).setV 0 a |>.setV 1 b with
    s := ⟨at_ w 0, at_ w 1, at_ w 2, at_ w 3, at_ w 4, at_ w 5, at_ w 6, at_ w 7⟩ }

/-- The state with one port operation presented. -/
def presentingOp (s : State) (op : HostOp) : State := { s with inbox := [op] }

/-- The state after one step, where it answers one. -/
def afterStep (s : State) : State :=
  match step s with
  | .next t => t
  | .fault _ => s
  | .refused _ => s

/-- One step with a command word presented. -/
def run (w : Nat) (s : State) : State := afterStep (s.withFetchWord 32 w)

/-- One step with a port operation presented. -/
def port (op : HostOp) (s : State) : State := afterStep (presentingOp s op)

theorem test_wf_refuses_rebal :
    (Instr.rebal 1 1 2 3).wf = false := by decide

theorem test_wf_refuses_splith :
    (Instr.splith 1 1 2).wf = false := by decide

theorem test_wf_refuses_mulw :
    (Instr.mulw 0 0 2 3).wf = false := by decide

theorem test_wf_refuses_shlw :
    (Instr.shlw 7 7 2 3).wf = false := by decide

theorem test_wf_refuses_shrw :
    (Instr.shrw 2 2 2 3).wf = false := by decide

theorem test_wf_refuses_div2by1 :
    (Instr.div2by1 0 0 1 2 3).wf = false := by decide

theorem test_wf_refuses_nshll :
    (Instr.nshll 1 1 0 0).wf = false := by decide

theorem test_wf_refuses_nshrl :
    (Instr.nshrl 1 1 0 0).wf = false := by decide

theorem test_wf_refuses_nshld :
    (Instr.nshld 1 1 0 0).wf = false := by decide

theorem test_wf_refuses_nshrd :
    (Instr.nshrd 1 1 0 0).wf = false := by decide

theorem test_wf_refuses_nmul :
    (Instr.nmul 2 2 0 1).wf = false := by decide

theorem test_wf_refuses_ndiv :
    (Instr.ndiv 2 2 0 1).wf = false := by decide

theorem test_wf_refuses_imul :
    (Instr.imul 2 2 0 1).wf = false := by decide

theorem test_wf_refuses_idiv :
    (Instr.idiv 2 2 0 1).wf = false := by decide

/-- R68 applies within one register file only. -/
theorem test_wf_two_files :
    (Instr.nmull 1 1 0 0).wf = true ∧ (Instr.ndivl 1 1 0 0).wf = true := by decide

/-- Words of 95_test_vectors.md section 2. -/
theorem test_decode_move :
    decode 0x00000000#32 = .ok .nop ∧
      decode 0x01600012#32 = .ok (.sli 3 18) ∧
      decode 0x02200000#32 = .ok (.vmov 1 0) ∧
      decode 0x03208003#32 = .ok (.vgetl 1 1 3) ∧
      decode 0x04202000#32 = .ok (.vsetl 1 0 2) ∧
      decode 0x05000000#32 = .ok (.vgets 0 0) := by decide

/-- Words of 95_test_vectors.md section 2. -/
theorem test_decode_limb :
    decode 0x10053000#32 = .ok (.rebal 0 1 2 3) ∧
      decode 0x11050000#32 = .ok (.splith 0 1 2) ∧
      decode 0x12053000#32 = .ok (.mulw 0 1 2 3) ∧
      decode 0x13008000#32 = .ok (.digcnt 0 1) ∧
      decode 0x14008000#32 = .ok (.pow10 0 1) ∧
      decode 0x15053000#32 = .ok (.shlw 0 1 2 3) ∧
      decode 0x16053000#32 = .ok (.shrw 0 1 2 3) ∧
      decode 0x17053004#32 = .ok (.div2by1 0 1 2 3 4) := by decide

/-- Words of 95_test_vectors.md section 2. -/
theorem test_decode_natural :
    decode 0x20000000#32 = .ok (.nparse 0) ∧
      decode 0x21008000#32 = .ok (.nformat 1) ∧
      decode 0x22401000#32 = .ok (.nadd 2 0 1) ∧
      decode 0x23401000#32 = .ok (.nsub 2 0 1) ∧
      decode 0x24200000#32 = .ok (.ncompl 1 0) ∧
      decode 0x25280000#32 = .ok (.nshll 1 2 0 0) ∧
      decode 0x26280000#32 = .ok (.nshrl 1 2 0 0) ∧
      decode 0x27280000#32 = .ok (.nshld 1 2 0 0) ∧
      decode 0x28280000#32 = .ok (.nshrd 1 2 0 0) ∧
      decode 0x29240000#32 = .ok (.nmull 1 1 0 0) ∧
      decode 0x2A4C1000#32 = .ok (.nmul 2 3 0 1) ∧
      decode 0x2B240000#32 = .ok (.ndivl 1 1 0 0) ∧
      decode 0x2C4C1000#32 = .ok (.ndiv 2 3 0 1) := by decide

/-- Words of 95_test_vectors.md section 2. -/
theorem test_decode_natural_comparisons :
    decode 0x3000A000#32 = .ok (.neq 0 1 2) ∧
      decode 0x3100A000#32 = .ok (.ngt 0 1 2) ∧
      decode 0x3200A000#32 = .ok (.nlt 0 1 2) ∧
      decode 0x3300A000#32 = .ok (.nge 0 1 2) ∧
      decode 0x3400A000#32 = .ok (.nle 0 1 2) := by decide

/-- Words of 95_test_vectors.md section 2. -/
theorem test_decode_integer :
    decode 0x40401000#32 = .ok (.iadd 2 0 1) ∧
      decode 0x41401000#32 = .ok (.isub 2 0 1) ∧
      decode 0x42200000#32 = .ok (.ineg 1 0) ∧
      decode 0x434C1000#32 = .ok (.imul 2 3 0 1) ∧
      decode 0x444C1000#32 = .ok (.idiv 2 3 0 1) ∧
      decode 0x4800A000#32 = .ok (.ieq 0 1 2) ∧
      decode 0x4900A000#32 = .ok (.igt 0 1 2) ∧
      decode 0x4A00A000#32 = .ok (.ilt 0 1 2) ∧
      decode 0x4B00A000#32 = .ok (.ige 0 1 2) ∧
      decode 0x4C00A000#32 = .ok (.ile 0 1 2) := by decide

/-- Words of 95_test_vectors.md section 2. -/
theorem test_decode_decimal :
    decode 0x50000000#32 = .ok (.dparse 0) ∧
      decode 0x51010000#32 = .ok (.dformat 2) ∧
      decode 0x52401000#32 = .ok (.dadd 2 0 1) ∧
      decode 0x53401000#32 = .ok (.dsub 2 0 1) ∧
      decode 0x54401000#32 = .ok (.dmul 2 0 1) ∧
      decode 0x55401000#32 = .ok (.ddiv 2 0 1) ∧
      decode 0x56008000#32 = .ok (.diszero 0 1) ∧
      decode 0x57000003#32 = .ok (.dconst 0 3) ∧
      decode 0x5800A000#32 = .ok (.deq 0 1 2) ∧
      decode 0x5900A000#32 = .ok (.dgt 0 1 2) ∧
      decode 0x5A00A000#32 = .ok (.dlt 0 1 2) ∧
      decode 0x5B00A000#32 = .ok (.dge 0 1 2) ∧
      decode 0x5C00A000#32 = .ok (.dle 0 1 2) := by decide

/-- Words built field by field from R60 and R63. -/
theorem test_decode_bit_by_bit :
    decode (0b00010111#8 ++ 0b000#3 ++ 0b001#3 ++ 0b010#3 ++ 0b011#3 ++ 0b000000000100#12) = .ok (.div2by1 0 1 2 3 4) ∧
      decode (0b00000001#8 ++ 0b111#3 ++ 0b000#3 ++ 0b000#3 ++ 0b000#3 ++ 0b111111111111#12) = .ok (.sli 7 4095) ∧
      decode (0b00000011#8 ++ 0b101#3 ++ 0b000#3 ++ 0b110#3 ++ 0b000#3 ++ 0b000000000010#12) = .ok (.vgetl 5 6 2) ∧
      decode (0b00100101#8 ++ 0b100#3 ++ 0b101#3 ++ 0b110#3 ++ 0b111#3 ++ 0b000000000000#12) = .ok (.nshll 4 5 6 7) := by decide

/-- Illegal words of 95_test_vectors.md section 2. -/
theorem test_decode_illegal :
    decode 0x06000000#32 = .error .unassignedOpcode ∧
      decode 0x18000000#32 = .error .unassignedOpcode ∧
      decode 0x2D000000#32 = .error .unassignedOpcode ∧
      decode 0x35000000#32 = .error .unassignedOpcode ∧
      decode 0x45000000#32 = .error .unassignedOpcode ∧
      decode 0x5D000000#32 = .error .unassignedOpcode ∧
      decode 0xFF000000#32 = .error .unassignedOpcode ∧
      decode 0x00000001#32 = .error .unusedFieldNotZero ∧
      decode 0x22401001#32 = .error .unusedFieldNotZero ∧
      decode 0x22441000#32 = .error .unusedFieldNotZero ∧
      decode 0x01640012#32 = .error .unusedFieldNotZero ∧
      decode 0x1705300C#32 = .error .unusedFieldNotZero ∧
      decode 0x02200001#32 = .error .unusedFieldNotZero ∧
      decode 0x17013004#32 = .error .sameDestination ∧
      decode 0x2A481000#32 = .error .sameDestination ∧
      decode 0x28240000#32 = .error .sameDestination := by decide

/-- R65, R67. -/
theorem test_opcode_map_has_55_rows :
    opcodeFormats.length = 55 ∧ (opcodeFormats.map Prod.fst).Nodup := by decide

/-! ### Instructions: 95_test_vectors.md sections 3 to 9, each theorem one step -/

theorem test_nop :
    (run 0x00000000 (unit small (Value.zero small) (Value.zero small) [])) = (unit small (Value.zero small) (Value.zero small) []) := by decide +kernel

theorem test_sli :
    (run 0x01000FFF (unit small (Value.zero small) (Value.zero small) [])).word 0 = 4095 ∧
      (run 0x01600012 (unit small (Value.zero small) (Value.zero small) [])).word 3 = 18 := by decide +kernel

theorem test_vmov :
    (run 0x02200000 (unit small (value true [0, 0]) (Value.zero small) [])).getV 1 = value true [0, 0] := by decide +kernel

theorem test_vgetl :
    (run 0x03208003 (unit Config.reference (Value.zero Config.reference) (value false [1, 2, 3, 4]) [])).word 1 = 4 ∧
      (run 0x03208000 (unit Config.reference (Value.zero Config.reference) (value false [1, 2, 3, 4]) [])).word 1 = 1 := by decide +kernel

theorem test_vgetl_bad_index :
    (run 0x03208004 (unit Config.reference (Value.zero Config.reference) (value false [1, 2, 3, 4]) [])).status.toWord = 0x032080040000004F#64 := by decide +kernel

theorem test_vsetl :
    (run 0x04202000 (unit Config.reference (Value.zero Config.reference) (value true [1, 2, 3, 4]) [0, 0, 7])).getV 1 = value true [7, 2, 3, 4] := by decide +kernel

theorem test_vsetl_faults :
    (run 0x04202000 (unit Config.reference (Value.zero Config.reference) (Value.zero Config.reference) [0, 0, 1000000000000000000])).status.toWord = 0x042020000000004D#64 ∧
      (run 0x04202004 (unit Config.reference (Value.zero Config.reference) (Value.zero Config.reference) [0, 0, 1000000000000000000])).status.toWord = 0x042020040000004F#64 := by decide +kernel

theorem test_vgets :
    (run 0x05000000 (unit small (value true [0, 0]) (Value.zero small) [])).word 0 = 1 := by decide +kernel

theorem test_rebal :
    (run 0x10053000 (unit small (Value.zero small) (Value.zero small) [0, 0, 18446744073709551615, 18446744073709551597])).word 0 = 446744073709551615 ∧
      (run 0x10053000 (unit small (Value.zero small) (Value.zero small) [0, 0, 18446744073709551615, 18446744073709551597])).word 1 = 18446744073709551615 := by decide +kernel

theorem test_rebal_word_overflow :
    (run 0x10053000 (unit small (Value.zero small) (Value.zero small) [0, 0, 18446744073709551615, 18446744073709551598])).status.toWord = 0x1005300000000051#64 := by decide +kernel

theorem test_splith :
    (run 0x11050000 (unit small (Value.zero small) (Value.zero small) [0, 0, 123456789012345678])).word 0 = 123456789 ∧
      (run 0x11050000 (unit small (Value.zero small) (Value.zero small) [0, 0, 123456789012345678])).word 1 = 12345678 := by decide +kernel

theorem test_splith_limb_range :
    (run 0x11050000 (unit small (Value.zero small) (Value.zero small) [0, 0, 1000000000000000000])).status.toWord = 0x110500000000004D#64 := by decide +kernel

theorem test_mulw_reads_before_writes :
    (run 0x124D3000 (unit small (Value.zero small) (Value.zero small) [0, 0, 7, 6])).word 2 = 42 ∧
      (run 0x124D3000 (unit small (Value.zero small) (Value.zero small) [0, 0, 7, 6])).word 3 = 0 := by decide +kernel

theorem test_mulw_limbs :
    (run 0x12053000 (unit small (Value.zero small) (Value.zero small) [0, 0, 999999999999999999, 999999999999999999])).word 0 = 1 ∧
      (run 0x12053000 (unit small (Value.zero small) (Value.zero small) [0, 0, 999999999999999999, 999999999999999999])).word 1 = 999999999999999998 ∧
      (run 0x12053000 (unit small (Value.zero small) (Value.zero small) [0, 0, 1000000000000000000, 1])).status.toWord = 0x120530000000004D#64 := by decide +kernel

theorem test_digcnt :
    (run 0x13008000 (unit small (Value.zero small) (Value.zero small) [0, 0])).word 0 = 0 ∧
      (run 0x13008000 (unit small (Value.zero small) (Value.zero small) [0, 9])).word 0 = 1 ∧
      (run 0x13008000 (unit small (Value.zero small) (Value.zero small) [0, 10])).word 0 = 2 ∧
      (run 0x13008000 (unit small (Value.zero small) (Value.zero small) [0, 999999999999999999])).word 0 = 18 ∧
      (run 0x13008000 (unit small (Value.zero small) (Value.zero small) [0, 1000000000000000000])).word 0 = 19 ∧
      (run 0x13008000 (unit small (Value.zero small) (Value.zero small) [0, 10000000000000000000])).word 0 = 20 ∧
      (run 0x13008000 (unit small (Value.zero small) (Value.zero small) [0, 18446744073709551615])).word 0 = 20 := by decide +kernel

theorem test_digcnt_of_zero_is_dc0 :
    (run 0x13008000 (unit (Config.mk 2 1 true) (Value.zero (Config.mk 2 1 true)) (Value.zero (Config.mk 2 1 true)) [])).word 0 = 1 := by decide +kernel

theorem test_pow10 :
    (run 0x14008000 (unit small (Value.zero small) (Value.zero small) [0, 18])).word 0 = 1000000000000000000 ∧
      (run 0x14008000 (unit small (Value.zero small) (Value.zero small) [0, 19])).status.toWord = 0x140080000000004B#64 := by decide +kernel

theorem test_shlw :
    (run 0x15053000 (unit small (Value.zero small) (Value.zero small) [0, 0, 123456789012345678, 5])).word 0 = 678901234567800000 ∧
      (run 0x15053000 (unit small (Value.zero small) (Value.zero small) [0, 0, 123456789012345678, 5])).word 1 = 12345 ∧
      (run 0x15053000 (unit small (Value.zero small) (Value.zero small) [0, 0, 123456789012345678, 18])).word 1 = 123456789012345678 := by decide +kernel

theorem test_shlw_faults :
    (run 0x15053000 (unit small (Value.zero small) (Value.zero small) [0, 0, 123456789012345678, 19])).status.toWord = 0x150530000000004B#64 ∧
      (run 0x15053000 (unit small (Value.zero small) (Value.zero small) [0, 0, 1000000000000000000, 19])).status.toWord = 0x150530000000004D#64 := by decide +kernel

theorem test_shrw :
    (run 0x16053000 (unit small (Value.zero small) (Value.zero small) [0, 0, 123456789012345678, 5])).word 0 = 1234567890123 ∧
      (run 0x16053000 (unit small (Value.zero small) (Value.zero small) [0, 0, 123456789012345678, 5])).word 1 = 45678 ∧
      (run 0x16053000 (unit small (Value.zero small) (Value.zero small) [0, 0, 123456789012345678, 19])).status.toWord = 0x160530000000004B#64 := by decide +kernel

theorem test_div2by1 :
    (run 0x1705A007 (unit small (Value.zero small) (Value.zero small) [0, 0, 1, 999999999999999998, 0, 0, 0, 999999999999999999])).word 0 = 999999999999999999 ∧
      (run 0x1705A007 (unit small (Value.zero small) (Value.zero small) [0, 0, 1, 999999999999999998, 0, 0, 0, 999999999999999999])).word 1 = 0 := by decide +kernel

theorem test_div2by1_quotient_too_large :
    (run 0x17053004 (unit small (Value.zero small) (Value.zero small) [0, 0, 17, 17, 5])).status.toWord = 0x1705300400000047#64 := by decide +kernel

theorem test_nparse :
    (run 0x20000000 ((unit small (value true [7, 7]) (Value.zero small) []).setText (txt ['0', '0', '0', '0', '0', '0', '0', '0', '0', '0', '0', '0', '0', '0', '0', '0', '0', '1', '0', '0', '0', '0', '0', '0', '0', '0', '0', '0', '0', '0', '0', '0', '0', '0', '0', '2']))).getV 0 = value false [1, 2] := by decide +kernel

theorem test_nparse_invalid :
    (run 0x20000000 ((unit small (Value.zero small) (Value.zero small) []).setText (txt ['0', '0', '0', '0', '0', '0', '0', '0', '0', '0', '0', '0', '0', '0', '0', '0', '0', '-', '0', '0', '0', '0', '0', '0', '0', '0', '0', '0', '0', '0', '0', '0', '0', '0', '0', '2']))).status.toWord = 0x0000000000000020#64 ∧
      (run 0x20000000 ((unit small (value true [7, 7]) (Value.zero small) []).setText (txt ['0', '0', '0', '0', '0', '0', '0', '0', '0', '0', '0', '0', '0', '0', '0', '0', '0', '0', '0', '0', '0', '0', '0', '0', '0', '0', '0', '0', '0', '0', '0', '0', '0', '0', '0']))).getV 0 = value true [7, 7] := by decide +kernel

theorem test_nformat :
    (run 0x21008000 (unit small (Value.zero small) (value true [1, 2]) [])).text = txt ['0', '0', '0', '0', '0', '0', '0', '0', '0', '0', '0', '0', '0', '0', '0', '0', '0', '1', '0', '0', '0', '0', '0', '0', '0', '0', '0', '0', '0', '0', '0', '0', '0', '0', '0', '2'] := by decide +kernel

theorem test_nadd :
    (run 0x22401000 (unit small (value false [0, 999999999999999999]) (value false [0, 1]) [])).getV 2 = value false [1, 0] ∧
      (run 0x22401000 (unit small (value true [999999999999999999, 999999999999999998]) (value true [0, 1]) [])).getV 2 = value false [999999999999999999, 999999999999999999] := by decide +kernel

theorem test_nadd_overflow :
    (run 0x22401000 (unit small (value false [999999999999999999, 999999999999999999]) (value false [0, 1]) [])).status.toWord = 0x2240100000000045#64 := by decide +kernel

theorem test_nsub :
    (run 0x23401000 (unit small (value false [1, 0]) (value false [0, 1]) [])).getV 2 = value false [0, 999999999999999999] ∧
      (run 0x23401000 (unit small (value false [0, 1]) (value false [1, 0]) [])).status.toWord = 0x2340100000000049#64 := by decide +kernel

theorem test_ncompl :
    (run 0x24200000 (unit small (value true [123456789012345678, 999999999999999999]) (Value.zero small) [])).getV 1 = value false [876543210987654321, 0] := by decide +kernel

theorem test_nshll :
    (run 0x25280000 (unit Config.reference (value false [1, 2, 3, 4]) (Value.zero Config.reference) [1])).getV 1 = value false [2, 3, 4, 0] ∧
      (run 0x25280000 (unit Config.reference (value false [1, 2, 3, 4]) (Value.zero Config.reference) [1])).getV 2 = value false [0, 0, 0, 1] := by decide +kernel

theorem test_nshll_bad_shift :
    (run 0x25280000 (unit Config.reference (Value.zero Config.reference) (Value.zero Config.reference) [5])).status.toWord = 0x252800000000004B#64 := by decide +kernel

theorem test_nshrl :
    (run 0x26280000 (unit Config.reference (value false [1, 2, 3, 4]) (Value.zero Config.reference) [1])).getV 1 = value false [0, 1, 2, 3] ∧
      (run 0x26280000 (unit Config.reference (value false [1, 2, 3, 4]) (Value.zero Config.reference) [1])).getV 2 = value false [0, 0, 0, 4] := by decide +kernel

theorem test_nshrl_bad_shift :
    (run 0x26280000 (unit Config.reference (Value.zero Config.reference) (Value.zero Config.reference) [5])).status.toWord = 0x262800000000004B#64 := by decide +kernel

theorem test_nshld :
    (run 0x27280000 (unit Config.reference (value false [123456789012345678, 0, 0, 9]) (Value.zero Config.reference) [5])).getV 1 = value false [678901234567800000, 0, 0, 900000] ∧
      (run 0x27280000 (unit Config.reference (value false [123456789012345678, 0, 0, 9]) (Value.zero Config.reference) [5])).getV 2 = value false [0, 0, 0, 12345] := by decide +kernel

theorem test_nshld_bad_shift :
    (run 0x27280000 (unit Config.reference (Value.zero Config.reference) (Value.zero Config.reference) [73])).status.toWord = 0x272800000000004B#64 := by decide +kernel

theorem test_nshrd :
    (run 0x28280000 (unit Config.reference (value false [1, 2, 3, 123456789012345678]) (Value.zero Config.reference) [23])).getV 1 = value false [0, 0, 10000000000000, 20000000000000] ∧
      (run 0x28280000 (unit Config.reference (value false [1, 2, 3, 123456789012345678]) (Value.zero Config.reference) [23])).getV 2 = value false [0, 0, 3, 123456789012345678] := by decide +kernel

theorem test_nshrd_bad_shift :
    (run 0x28280000 (unit Config.reference (Value.zero Config.reference) (Value.zero Config.reference) [73])).status.toWord = 0x282800000000004B#64 := by decide +kernel

theorem test_nmull :
    (run 0x29240000 (unit small (value false [999999999999999999, 999999999999999999]) (Value.zero small) [999999999999999999])).getV 1 = value false [999999999999999999, 1] ∧
      (run 0x29240000 (unit small (value false [999999999999999999, 999999999999999999]) (Value.zero small) [999999999999999999])).word 1 = 999999999999999998 ∧
      (run 0x29240000 (unit small (value false [999999999999999999, 999999999999999999]) (Value.zero small) [1000000000000000000])).status.toWord = 0x292400000000004D#64 := by decide +kernel

theorem test_nmul :
    (run 0x2A4C1000 (unit Config.reference (value false [1, 2, 3, 4]) (value false [5, 6, 7, 8]) [])).getV 2 = value false [60, 61, 52, 32] ∧
      (run 0x2A4C1000 (unit Config.reference (value false [1, 2, 3, 4]) (value false [5, 6, 7, 8]) [])).getV 3 = value false [0, 5, 16, 34] := by decide +kernel

theorem test_ndivl :
    (run 0x2B240000 (unit small (value false [1, 0]) (Value.zero small) [3])).getV 1 = value false [0, 333333333333333333] ∧
      (run 0x2B240000 (unit small (value false [1, 0]) (Value.zero small) [3])).word 1 = 1 := by decide +kernel

theorem test_ndivl_faults :
    (run 0x2B240000 (unit small (value false [1, 0]) (Value.zero small) [])).status.toWord = 0x2B24000000000047#64 ∧
      (run 0x2B240000 (unit small (value false [1, 0]) (Value.zero small) [1000000000000000000])).status.toWord = 0x2B2400000000004D#64 := by decide +kernel

theorem test_ndiv :
    (run 0x2C4C1000 (unit Config.reference (value false [999999999999999999, 999999999999999999, 999999999999999999, 999999999999999999]) (value false [0, 0, 100000000000000000, 1]) [])).getV 2 = value false [0, 9, 999999999999999999, 999999999999999900] ∧
      (run 0x2C4C1000 (unit Config.reference (value false [999999999999999999, 999999999999999999, 999999999999999999, 999999999999999999]) (value false [0, 0, 100000000000000000, 1]) [])).getV 3 = value false [0, 0, 0, 99] := by decide +kernel

theorem test_ndiv_by_zero :
    (run 0x2C4C1000 (unit small (value false [4, 4]) (Value.zero small) [])).status.toWord = 0x2C4C100000000047#64 := by decide +kernel

theorem test_neq :
    (run 0x30001000 (unit small (value false [1, 0]) (value false [0, 999999999999999999]) [])).word 0 = 0 ∧
      (run 0x30001000 (unit small (value true [0, 5]) (value false [0, 5]) [])).word 0 = 1 ∧
      (run 0x30001000 (unit small (value false [0, 4]) (value false [0, 5]) [])).word 0 = 0 := by decide +kernel

theorem test_ngt :
    (run 0x31001000 (unit small (value false [1, 0]) (value false [0, 999999999999999999]) [])).word 0 = 1 ∧
      (run 0x31001000 (unit small (value true [0, 5]) (value false [0, 5]) [])).word 0 = 0 ∧
      (run 0x31001000 (unit small (value false [0, 4]) (value false [0, 5]) [])).word 0 = 0 := by decide +kernel

theorem test_nlt :
    (run 0x32001000 (unit small (value false [1, 0]) (value false [0, 999999999999999999]) [])).word 0 = 0 ∧
      (run 0x32001000 (unit small (value true [0, 5]) (value false [0, 5]) [])).word 0 = 0 ∧
      (run 0x32001000 (unit small (value false [0, 4]) (value false [0, 5]) [])).word 0 = 1 := by decide +kernel

theorem test_nge :
    (run 0x33001000 (unit small (value false [1, 0]) (value false [0, 999999999999999999]) [])).word 0 = 1 ∧
      (run 0x33001000 (unit small (value true [0, 5]) (value false [0, 5]) [])).word 0 = 1 ∧
      (run 0x33001000 (unit small (value false [0, 4]) (value false [0, 5]) [])).word 0 = 0 := by decide +kernel

theorem test_nle :
    (run 0x34001000 (unit small (value false [1, 0]) (value false [0, 999999999999999999]) [])).word 0 = 0 ∧
      (run 0x34001000 (unit small (value true [0, 5]) (value false [0, 5]) [])).word 0 = 1 ∧
      (run 0x34001000 (unit small (value false [0, 4]) (value false [0, 5]) [])).word 0 = 1 := by decide +kernel

theorem test_iadd :
    (run 0x40401000 (unit small (value false [0, 7]) (value true [0, 9]) [])).getV 2 = value true [0, 2] ∧
      (run 0x40401000 (unit small (value true [0, 5]) (value false [0, 5]) [])).getV 2 = value true [0, 0] ∧
      (run 0x40401000 (unit small (value true [0, 7]) (value true [0, 9]) [])).getV 2 = value true [0, 16] := by decide +kernel

theorem test_iadd_overflow :
    (run 0x40401000 (unit small (value true [999999999999999999, 999999999999999999]) (value true [0, 1]) [])).status.toWord = 0x4040100000000045#64 := by decide +kernel

theorem test_isub :
    (run 0x41401000 (unit small (value true [0, 3]) (value true [0, 10]) [])).getV 2 = value false [0, 7] ∧
      (run 0x41400000 (unit small (value true [4, 4]) (Value.zero small) [])).getV 2 = value true [0, 0] ∧
      (run 0x41401000 (unit small (value false [999999999999999999, 999999999999999999]) (value true [0, 1]) [])).status.toWord = 0x4140100000000045#64 := by decide +kernel

theorem test_ineg :
    (run 0x42200000 (unit small (Value.zero small) (Value.zero small) [])).getV 1 = value true [0, 0] ∧
      (run 0x42000000 (unit small (value true [2, 2]) (Value.zero small) [])).getV 0 = value false [2, 2] := by decide +kernel

theorem test_imul :
    (run 0x434C1000 (unit small (value true [999999999999999999, 999999999999999999]) (value true [999999999999999999, 999999999999999999]) [])).getV 2 = value false [0, 1] ∧
      (run 0x434C1000 (unit small (value true [999999999999999999, 999999999999999999]) (value true [999999999999999999, 999999999999999999]) [])).getV 3 = value false [999999999999999999, 999999999999999998] ∧
      (run 0x434C1000 (unit small (value true [0, 3]) (Value.zero small) [])).getV 2 = value true [0, 0] := by decide +kernel

theorem test_idiv :
    (run 0x444C1000 (unit small (value true [0, 7]) (value false [0, 2]) [])).getV 2 = value true [0, 3] ∧
      (run 0x444C1000 (unit small (value true [0, 7]) (value false [0, 2]) [])).getV 3 = value false [0, 1] ∧
      (run 0x444C1000 (unit small (value true [0, 0]) (value false [0, 3]) [])).getV 2 = value false [0, 0] ∧
      (run 0x444C1000 (unit small (value true [0, 1]) (value false [0, 3]) [])).getV 2 = value true [0, 0] := by decide +kernel

theorem test_idiv_by_zero :
    (run 0x444C1000 (unit small (value false [0, 7]) (value true [0, 0]) [])).status.toWord = 0x444C100000000047#64 := by decide +kernel

theorem test_ieq :
    (run 0x48001000 (unit small (value true [0, 0]) (value false [0, 0]) [])).word 0 = 1 ∧
      (run 0x48001000 (unit small (value true [0, 2]) (value true [0, 3]) [])).word 0 = 0 ∧
      (run 0x48001000 (unit small (value true [0, 3]) (value false [0, 3]) [])).word 0 = 0 := by decide +kernel

theorem test_igt :
    (run 0x49001000 (unit small (value true [0, 0]) (value false [0, 0]) [])).word 0 = 0 ∧
      (run 0x49001000 (unit small (value true [0, 2]) (value true [0, 3]) [])).word 0 = 1 ∧
      (run 0x49001000 (unit small (value true [0, 3]) (value false [0, 3]) [])).word 0 = 0 := by decide +kernel

theorem test_ilt :
    (run 0x4A001000 (unit small (value true [0, 0]) (value false [0, 0]) [])).word 0 = 0 ∧
      (run 0x4A001000 (unit small (value true [0, 2]) (value true [0, 3]) [])).word 0 = 0 ∧
      (run 0x4A001000 (unit small (value true [0, 3]) (value false [0, 3]) [])).word 0 = 1 := by decide +kernel

theorem test_ige :
    (run 0x4B001000 (unit small (value true [0, 0]) (value false [0, 0]) [])).word 0 = 1 ∧
      (run 0x4B001000 (unit small (value true [0, 2]) (value true [0, 3]) [])).word 0 = 1 ∧
      (run 0x4B001000 (unit small (value true [0, 3]) (value false [0, 3]) [])).word 0 = 0 := by decide +kernel

theorem test_ile :
    (run 0x4C001000 (unit small (value true [0, 0]) (value false [0, 0]) [])).word 0 = 1 ∧
      (run 0x4C001000 (unit small (value true [0, 2]) (value true [0, 3]) [])).word 0 = 0 ∧
      (run 0x4C001000 (unit small (value true [0, 3]) (value false [0, 3]) [])).word 0 = 1 := by decide +kernel

theorem test_dparse :
    (run 0x50000000 ((unit Config.reference (Value.zero Config.reference) (Value.zero Config.reference) []).setText (txt ['1', '.', '5', '0']))).getV 0 = value false [0, 0, 1, 500000000000000000] ∧
      (run 0x50000000 ((unit Config.reference (Value.zero Config.reference) (Value.zero Config.reference) []).setText (txt ['5', '.']))).getV 0 = value false [0, 0, 5, 0] ∧
      (run 0x50000000 ((unit Config.reference (Value.zero Config.reference) (Value.zero Config.reference) []).setText (txt ['-', '0', '.', '0']))).getV 0 = value true [0, 0, 0, 0] := by decide +kernel

theorem test_dparse_invalid :
    (run 0x50000000 ((unit Config.reference (Value.zero Config.reference) (Value.zero Config.reference) []).setText (txt ['.', '5']))).status.toWord = 0x0000000000000020#64 ∧
      (run 0x50000000 ((unit Config.reference (Value.zero Config.reference) (Value.zero Config.reference) []).setText (txt ['+', '5']))).status.toWord = 0x0000000000000020#64 ∧
      (run 0x50000000 ((unit Config.reference (Value.zero Config.reference) (Value.zero Config.reference) []).setText (txt ['1', '.', '2', '.', '3']))).status.toWord = 0x0000000000000020#64 ∧
      (run 0x50000000 ((unit Config.reference (Value.zero Config.reference) (Value.zero Config.reference) []).setText (txt ['-', '-', '1']))).status.toWord = 0x0000000000000020#64 ∧
      (run 0x50000000 ((unit Config.reference (Value.zero Config.reference) (Value.zero Config.reference) []).setText (txt ['1', ',', '5']))).status.toWord = 0x0000000000000020#64 ∧
      (run 0x50000000 ((unit Config.reference (Value.zero Config.reference) (Value.zero Config.reference) []).setText (txt ['0', '.', '1', '1', '1', '1', '1', '1', '1', '1', '1', '1', '1', '1', '1', '1', '1', '1', '1', '1', '1']))).status.toWord = 0x0000000000000020#64 := by decide +kernel

theorem test_dformat :
    (run 0x51008000 (unit Config.reference (Value.zero Config.reference) (value true [0, 0, 12, 340000000000000000]) [])).text = txt ['-', '1', '2', '.', '3', '4'] ∧
      (run 0x51008000 (unit Config.reference (Value.zero Config.reference) (value true [0, 0, 0, 0]) [])).text = txt ['0'] ∧
      (run 0x51008000 (unit Config.reference (Value.zero Config.reference) (value false [0, 0, 0, 500000000000000000]) [])).text = txt ['0', '.', '5'] := by decide +kernel

theorem test_dformat_longest :
    (run 0x51008000 (unit Config.reference (Value.zero Config.reference) (value true [999999999999999999, 999999999999999999, 999999999999999999, 999999999999999999]) [])).tlen = 74 := by decide +kernel

theorem test_dadd :
    (run 0x52401000 (unit Config.reference (value false [0, 0, 1, 500000000000000000]) (value false [0, 0, 2, 250000000000000000]) [])).getV 2 = value false [0, 0, 3, 750000000000000000] ∧
      (run 0x52401000 (unit Config.reference (value false [999999999999999999, 999999999999999999, 999999999999999999, 0]) (value false [0, 0, 1, 0]) [])).status.toWord = 0x5240100000000045#64 := by decide +kernel

theorem test_dsub :
    (run 0x53401000 (unit Config.reference (value false [0, 0, 1, 0]) (value false [0, 0, 3, 0]) [])).getV 2 = value true [0, 0, 2, 0] ∧
      (run 0x53401000 (unit Config.reference (value true [0, 0, 1, 0]) (value true [0, 0, 1, 0]) [])).getV 2 = value true [0, 0, 0, 0] := by decide +kernel

theorem test_dmul :
    (run 0x54401000 (unit Config.reference (value false [0, 0, 0, 3]) (value false [0, 0, 0, 500000000000000000]) [])).getV 2 = value false [0, 0, 0, 1] ∧
      (run 0x54401000 (unit Config.reference (value false [10000, 10000, 10000, 10000]) (value false [0, 0, 0, 999999999999999999]) [])).getV 2 = value false [9999, 999999999999999999, 999999999999999999, 999999999999999999] ∧
      (run 0x54401000 (unit Config.reference (value false [0, 0, 0, 0]) (value true [0, 0, 7, 0]) [])).getV 2 = value true [0, 0, 0, 0] := by decide +kernel

theorem test_dmul_overflow :
    (run 0x54401000 (unit Config.reference (value false [0, 1000000000, 0, 0]) (value false [0, 1000000000, 0, 0]) [])).status.toWord = 0x5440100000000045#64 := by decide +kernel

theorem test_ddiv :
    (run 0x55401000 (unit Config.reference (value false [0, 0, 2, 0]) (value false [0, 0, 3, 0]) [])).getV 2 = value false [0, 0, 0, 666666666666666667] ∧
      (run 0x55401000 (unit Config.reference (value true [0, 0, 0, 1]) (value false [0, 0, 2, 0]) [])).getV 2 = value true [0, 0, 0, 1] ∧
      (run 0x55401000 (unit Config.reference (value true [0, 0, 0, 0]) (value false [0, 0, 3, 0]) [])).getV 2 = value false [0, 0, 0, 0] := by decide +kernel

theorem test_ddiv_faults :
    (run 0x55401000 (unit Config.reference (Value.zero Config.reference) (value true [0, 0, 0, 0]) [])).status.toWord = 0x5540100000000047#64 ∧
      (run 0x55401000 (unit Config.reference (value false [1, 0, 0, 0]) (value false [0, 0, 0, 1]) [])).status.toWord = 0x5540100000000045#64 := by decide +kernel

theorem test_diszero :
    (run 0x56000000 (unit Config.reference (value true [0, 0, 0, 0]) (Value.zero Config.reference) [])).word 0 = 1 ∧
      (run 0x56000000 (unit Config.reference (value false [0, 0, 0, 1]) (Value.zero Config.reference) [])).word 0 = 0 := by decide +kernel

theorem test_dconst :
    (run 0x57000001 (unit Config.reference (Value.zero Config.reference) (Value.zero Config.reference) [])).getV 0 = value false [0, 0, 1, 0] ∧
      (run 0x57000002 (unit Config.reference (Value.zero Config.reference) (Value.zero Config.reference) [])).getV 0 = value false [0, 0, 2, 0] ∧
      (run 0x57000003 (unit Config.reference (Value.zero Config.reference) (Value.zero Config.reference) [])).getV 0 = value false [0, 0, 0, 500000000000000000] := by decide +kernel

theorem test_dconst_bad_index :
    (run 0x57000004 (unit Config.reference (Value.zero Config.reference) (Value.zero Config.reference) [])).status.toWord = 0x570000040000004F#64 ∧
      (run 0x57000003 (unit noFraction (Value.zero noFraction) (Value.zero noFraction) [])).status.toWord = 0x570000030000004F#64 := by decide +kernel

theorem test_deq :
    (run 0x58001000 (unit Config.reference (value true [0, 0, 0, 0]) (value false [0, 0, 0, 0]) [])).word 0 = 1 ∧
      (run 0x58001000 (unit Config.reference (value false [0, 0, 0, 300000000000000000]) (value false [0, 0, 0, 250000000000000000]) [])).word 0 = 0 ∧
      (run 0x58001000 (unit Config.reference (value true [0, 0, 0, 500000000000000000]) (value false [0, 0, 0, 0]) [])).word 0 = 0 := by decide +kernel

theorem test_dgt :
    (run 0x59001000 (unit Config.reference (value true [0, 0, 0, 0]) (value false [0, 0, 0, 0]) [])).word 0 = 0 ∧
      (run 0x59001000 (unit Config.reference (value false [0, 0, 0, 300000000000000000]) (value false [0, 0, 0, 250000000000000000]) [])).word 0 = 1 ∧
      (run 0x59001000 (unit Config.reference (value true [0, 0, 0, 500000000000000000]) (value false [0, 0, 0, 0]) [])).word 0 = 0 := by decide +kernel

theorem test_dlt :
    (run 0x5A001000 (unit Config.reference (value true [0, 0, 0, 0]) (value false [0, 0, 0, 0]) [])).word 0 = 0 ∧
      (run 0x5A001000 (unit Config.reference (value false [0, 0, 0, 300000000000000000]) (value false [0, 0, 0, 250000000000000000]) [])).word 0 = 0 ∧
      (run 0x5A001000 (unit Config.reference (value true [0, 0, 0, 500000000000000000]) (value false [0, 0, 0, 0]) [])).word 0 = 1 := by decide +kernel

theorem test_dge :
    (run 0x5B001000 (unit Config.reference (value true [0, 0, 0, 0]) (value false [0, 0, 0, 0]) [])).word 0 = 1 ∧
      (run 0x5B001000 (unit Config.reference (value false [0, 0, 0, 300000000000000000]) (value false [0, 0, 0, 250000000000000000]) [])).word 0 = 1 ∧
      (run 0x5B001000 (unit Config.reference (value true [0, 0, 0, 500000000000000000]) (value false [0, 0, 0, 0]) [])).word 0 = 0 := by decide +kernel

theorem test_dle :
    (run 0x5C001000 (unit Config.reference (value true [0, 0, 0, 0]) (value false [0, 0, 0, 0]) [])).word 0 = 1 ∧
      (run 0x5C001000 (unit Config.reference (value false [0, 0, 0, 300000000000000000]) (value false [0, 0, 0, 250000000000000000]) [])).word 0 = 0 ∧
      (run 0x5C001000 (unit Config.reference (value true [0, 0, 0, 500000000000000000]) (value false [0, 0, 0, 0]) [])).word 0 = 1 := by decide +kernel

theorem test_smallest_configuration :
    (run 0x55401000 (unit smallest (value false [1]) (value false [2]) [])).getV 2 = value false [1] ∧
      (run 0x27280000 (unit smallest (value false [123456789012345678]) (Value.zero smallest) [5])).getV 2 = value false [12345] ∧
      (run 0x54401000 (unit smallest (value false [3]) (value true [4]) [])).getV 2 = value true [12] := by decide +kernel

/-! ### Host ports, the frozen state and reset: 95_test_vectors.md program P4 -/

/-- A unit frozen by the division of program P4, step 5. -/
def frozenUnit : State := run 0x55401000 (((unit Config.reference (value false [0, 0, 7, 0]) (Value.zero Config.reference) [0, 0, 0, 99]).setText (txt ['7'])))

theorem test_fault_freezes :
    frozenUnit.status.toWord = 0x5540100000000047#64 := by decide +kernel

theorem test_frozen_refuses :
    (run 0x00000000 frozenUnit).status.toWord = 0x5540100000000067#64 ∧
      (run 0x51000000 frozenUnit).text = txt ['7'] := by decide +kernel

theorem test_frozen_ignores_host_writes :
    (port (.writeS 3 5#64) frozenUnit).word 3 = 99 ∧
      (port (.writeT (txt ['1'])) frozenUnit).text = txt ['7'] ∧
      (port (.readS 3) frozenUnit).reply = .word 99#64 ∧
      (port .readT frozenUnit).reply = .text (txt ['7']) := by decide +kernel

theorem test_host_reset :
    port .reset frozenUnit = (unit Config.reference (Value.zero Config.reference) (Value.zero Config.reference) []) ∧
      (run 0x00000000 (port .reset frozenUnit)).status.toWord = 0#64 := by decide +kernel

theorem test_host_reads :
    (port .readConfig (unit Config.reference (Value.zero Config.reference) (Value.zero Config.reference) [])).reply = .word 0x0104#64 ∧
      (port .readStatus frozenUnit).reply = .word 0x5540100000000047#64 := by decide +kernel

theorem test_text_too_long_cannot_be_presented :
    (match step (presentingOp ((unit smallest (Value.zero smallest) (Value.zero smallest) [])) (.writeT (List.replicate 21 zeroChar))) with | .fault .textCannotBePresented => true | _ => false) = true := by decide +kernel

theorem test_decode_table_word :
    decodeTableWord 32 0x22401000 = some (.nadd 2 0 1) ∧
      decodeTableWord 32 0x06000000 = none := by decide +kernel

/-! ### Witnesses: for each statement with hypotheses a state and operands that meet all of them, each clause at a boundary -/

theorem witness_DecodeEncodeRoundTrip :
    (Instr.div2by1 7 6 5 4 3).wf = true ∧
      (Instr.nmull 1 1 0 0).wf = true ∧
      (Instr.sli 7 4095).wf = true := by decide +kernel

theorem witness_EncodeOfDecodedWordIsTheWord :
    decode 0x2A4C1000#32 = .ok (.nmul 2 3 0 1) := by decide +kernel

theorem witness_StepRunsTheDecodedCommand :
    (presentingOp (unit Config.reference (Value.zero Config.reference) (Value.zero Config.reference) []) (.issue 0x22401000#32)).inbox = [.issue 0x22401000#32] ∧
      (presentingOp (unit Config.reference (Value.zero Config.reference) (Value.zero Config.reference) []) (.issue 0x22401000#32)).running ∧
      decode 0x22401000#32 = .ok (.nadd 2 0 1) := by decide +kernel

theorem witness_StepFaultsOnIllegalWord :
    (presentingOp (unit Config.reference (Value.zero Config.reference) (Value.zero Config.reference) []) (.issue 0x06000000#32)).inbox = [.issue 0x06000000#32] ∧
      (presentingOp (unit Config.reference (Value.zero Config.reference) (Value.zero Config.reference) []) (.issue 0x06000000#32)).running ∧
      ∀ i, decode 0x06000000#32 ≠ .ok i :=
  ⟨by decide +kernel, by decide +kernel, fun i h => by
    have e : decode 0x06000000#32 = .error .unassignedOpcode := by decide
    rw [e] at h; cases h⟩

theorem witness_StepRefusesWhileFrozen :
    (presentingOp frozenUnit (.issue 0xFFFFFFFF#32)).inbox = [.issue 0xFFFFFFFF#32] ∧
      (presentingOp frozenUnit (.issue 0xFFFFFFFF#32)).status.frozen = true := by decide +kernel

theorem witness_HostPortsReadAndWrite :
    (presentingOp (unit Config.reference (Value.zero Config.reference) (Value.zero Config.reference) []) (.writeS 7 5#64)).inbox = [(.writeS 7 5#64)] ∧
      (presentingOp frozenUnit (.writeS 0 5#64)).inbox = [(.writeS 0 5#64)] ∧
      (presentingOp (unit smallest (Value.zero smallest) (Value.zero smallest) []) (.writeT (List.replicate 20 zeroChar))).inbox = [(.writeT (List.replicate 20 zeroChar))] ∧
      (presentingOp frozenUnit (.writeT [])).inbox = [(.writeT [])] ∧
      (presentingOp frozenUnit (.readS 3)).inbox = [(.readS 3)] ∧
      (presentingOp frozenUnit .readT).inbox = [.readT] ∧
      (presentingOp frozenUnit .readStatus).inbox = [.readStatus] ∧
      (presentingOp frozenUnit .readConfig).inbox = [.readConfig] ∧
      (presentingOp (unit Config.reference (Value.zero Config.reference) (Value.zero Config.reference) []) (.writeS 7 5#64)).running ∧
      frozenUnit.status.frozen = true ∧
      (List.replicate 20 zeroChar).length ≤ smallest.TMAX := by decide +kernel

theorem witness_ResetLeavesTheResetValues :
    (presentingOp frozenUnit .reset).inbox = [.reset] := by decide +kernel

theorem witness_StepKeepsTheInvariant :
    (presentingOp (unit Config.reference (Value.zero Config.reference) (Value.zero Config.reference) []) (.issue 0x57000003#32)).wf = true ∧ ∃ t, step (presentingOp (unit Config.reference (Value.zero Config.reference) (Value.zero Config.reference) []) (.issue 0x57000003#32)) = .next t := ⟨by decide +kernel, _, rfl⟩

theorem witness_ResetHasTheInvariant :
    smallest.wf = true ∧
      (Config.mk 255 254 true).wf = true := by decide +kernel

theorem witness_FrozenUnitKeepsEverythingUntilReset :
    frozenUnit.status.frozen = true ∧ HostOp.reset ∉ (presentingOp frozenUnit (.writeS 0 5#64)).inbox ∧
      ∃ t, Host.Core.run Sys2Proof.core 2 (presentingOp frozenUnit (.writeS 0 5#64)) = .next t :=
  ⟨by decide +kernel, by decide +kernel, _, rfl⟩

theorem witness_ExecEndsInOneOfThreeWays :
    frozenUnit.status.frozen = true ∧
      (unit Config.reference (Value.zero Config.reference) (Value.zero Config.reference) []).running ∧
      (Instr.nmul 2 2 0 1).wf = false ∧
      (Instr.nmul 2 3 0 1).wf = true := by decide +kernel

theorem witness_CommandsRaiseOnlyTheirListedCauses :
    (unit small (value false [999999999999999999, 999999999999999999]) (value false [0, 1]) []).wf = true ∧ (unit small (value false [999999999999999999, 999999999999999999]) (value false [0, 1]) []).running ∧ (Instr.nadd 2 0 1).wf = true ∧
      ∃ t, exec (.nadd 2 0 1) (unit small (value false [999999999999999999, 999999999999999999]) (value false [0, 1]) []) = .next t ∧ t.status.frozen = true :=
  ⟨by decide +kernel, by decide +kernel, rfl, _, rfl, by decide +kernel⟩

theorem witness_StatusAndConfigWordLayout :
    (Config.mk 255 254 true).wf = true := by decide +kernel

theorem witness_HostPortsNeverWriteValueRegisters :
    ∃ t, step (presentingOp (unit Config.reference (Value.zero Config.reference) (Value.zero Config.reference) []) (.writeS 0 5#64)) = .next t := ⟨_, rfl⟩

theorem witness_NaturalCommandsIgnoreSignFlags :
    isNaturalCommand (.nadd 2 0 1) = true ∧ sameButSignFlags (unit small (value true [0, 5]) (Value.zero small) []) (unit small (value false [0, 5]) (Value.zero small) []) ∧
      (∃ t, exec (.nadd 2 0 1) (unit small (value true [0, 5]) (Value.zero small) []) = .next t ∧ t.status.cc = .ok ∧ 2 ∈ valueDestinations (.nadd 2 0 1)) ∧
      ∃ t, exec (.nadd 2 0 1) (unit small (value false [0, 5]) (Value.zero small) []) = .next t :=
  ⟨rfl, by unfold sameButSignFlags; decide +kernel, ⟨_, rfl, by decide +kernel, by decide⟩, _, rfl⟩

theorem witness_NopAndSliComplete :
    (unit Config.reference (Value.zero Config.reference) (Value.zero Config.reference) []).running := by decide +kernel

theorem witness_VmovCopiesAndVgetsReadsTheFlag :
    (unit Config.reference (Value.zero Config.reference) (Value.zero Config.reference) []).running := by decide +kernel

theorem witness_VgetlReadsOneLimb :
    (unit Config.reference (Value.zero Config.reference) (Value.zero Config.reference) []).wf = true ∧
      (unit Config.reference (Value.zero Config.reference) (Value.zero Config.reference) []).running ∧
      (3#12).toNat < Config.reference.N ∧
      Config.reference.N ≤ (4#12).toNat := by decide +kernel

theorem witness_VsetlWritesOneLimb :
    (unit Config.reference (Value.zero Config.reference) (Value.zero Config.reference) [999999999999999999, 1000000000000000000]).wf = true ∧
      (unit Config.reference (Value.zero Config.reference) (Value.zero Config.reference) [999999999999999999, 1000000000000000000]).running ∧
      (3#12).toNat < Config.reference.N ∧
      Config.reference.N ≤ (4#12).toNat ∧
      (unit Config.reference (Value.zero Config.reference) (Value.zero Config.reference) [999999999999999999, 1000000000000000000]).word 0 < BASE ∧
      BASE ≤ (unit Config.reference (Value.zero Config.reference) (Value.zero Config.reference) [999999999999999999, 1000000000000000000]).word 1 := by decide +kernel

theorem witness_RebalRestoresTheLimb :
    (unit small (Value.zero small) (Value.zero small) [18446744073709551615, 18446744073709551597]).running ∧
      (unit small (Value.zero small) (Value.zero small) [18446744073709551615, 18446744073709551597]).word 1 + (unit small (Value.zero small) (Value.zero small) [18446744073709551615, 18446744073709551597]).word 0 / BASE < 2 ^ 64 ∧
      (unit small (Value.zero small) (Value.zero small) [18446744073709551615, 18446744073709551598]).running ∧
      2 ^ 64 ≤ (unit small (Value.zero small) (Value.zero small) [18446744073709551615, 18446744073709551598]).word 1 + (unit small (Value.zero small) (Value.zero small) [18446744073709551615, 18446744073709551598]).word 0 / BASE ∧
      (2 : SReg) ≠ 3 := by decide +kernel

theorem witness_SplithSplitsALimb :
    (unit Config.reference (Value.zero Config.reference) (Value.zero Config.reference) [999999999999999999, 1000000000000000000]).running ∧
      (unit Config.reference (Value.zero Config.reference) (Value.zero Config.reference) [999999999999999999, 1000000000000000000]).word 0 < BASE ∧
      BASE ≤ (unit Config.reference (Value.zero Config.reference) (Value.zero Config.reference) [999999999999999999, 1000000000000000000]).word 1 := by decide +kernel

theorem witness_MulwGivesTheFullProduct :
    (unit small (Value.zero small) (Value.zero small) [999999999999999999, 999999999999999999, 1000000000000000000]).running ∧
      (unit small (Value.zero small) (Value.zero small) [999999999999999999, 999999999999999999, 1000000000000000000]).word 0 < BASE ∧
      (unit small (Value.zero small) (Value.zero small) [999999999999999999, 999999999999999999, 1000000000000000000]).word 1 < BASE ∧
      BASE ≤ (unit small (Value.zero small) (Value.zero small) [999999999999999999, 999999999999999999, 1000000000000000000]).word 2 := by decide +kernel

theorem witness_DigcntCountsDecimalDigits :
    (unit small (Value.zero small) (Value.zero small) [0, 18446744073709551615]).running ∧
      (unit small (Value.zero small) (Value.zero small) [0, 18446744073709551615]).word 0 = 0 ∧
      (unit small (Value.zero small) (Value.zero small) [0, 18446744073709551615]).word 1 ≠ 0 := by decide +kernel

theorem witness_Pow10ReadsTheTable :
    (unit small (Value.zero small) (Value.zero small) [18, 19, 999999999999999999, 1000000000000000000, 0]).running ∧
      (unit small (Value.zero small) (Value.zero small) [18, 19, 999999999999999999, 1000000000000000000, 0]).word 0 ≤ 18 ∧
      18 < (unit small (Value.zero small) (Value.zero small) [18, 19, 999999999999999999, 1000000000000000000, 0]).word 1 := by decide +kernel

theorem witness_ShlwAndShrwShiftWithinALimb :
    (unit small (Value.zero small) (Value.zero small) [18, 19, 999999999999999999, 1000000000000000000, 0]).running ∧
      (unit small (Value.zero small) (Value.zero small) [18, 19, 999999999999999999, 1000000000000000000, 0]).word 2 < BASE ∧
      (unit small (Value.zero small) (Value.zero small) [18, 19, 999999999999999999, 1000000000000000000, 0]).word 0 ≤ 18 ∧
      BASE ≤ (unit small (Value.zero small) (Value.zero small) [18, 19, 999999999999999999, 1000000000000000000, 0]).word 3 ∧
      18 < (unit small (Value.zero small) (Value.zero small) [18, 19, 999999999999999999, 1000000000000000000, 0]).word 1 := by decide +kernel

theorem witness_Div2by1DividesTwoLimbsByOne :
    (unit small (Value.zero small) (Value.zero small) [999999999999999998, 999999999999999999, 1000000000000000000, 0]).running ∧
      (unit small (Value.zero small) (Value.zero small) [999999999999999998, 999999999999999999, 1000000000000000000, 0]).word 1 < BASE ∧
      (unit small (Value.zero small) (Value.zero small) [999999999999999998, 999999999999999999, 1000000000000000000, 0]).word 0 < (unit small (Value.zero small) (Value.zero small) [999999999999999998, 999999999999999999, 1000000000000000000, 0]).word 1 ∧
      BASE ≤ (unit small (Value.zero small) (Value.zero small) [999999999999999998, 999999999999999999, 1000000000000000000, 0]).word 2 ∧
      (unit small (Value.zero small) (Value.zero small) [999999999999999998, 999999999999999999, 1000000000000000000, 0]).word 3 < BASE ∧
      (unit small (Value.zero small) (Value.zero small) [999999999999999998, 999999999999999999, 1000000000000000000, 0]).word 3 ≤ (unit small (Value.zero small) (Value.zero small) [999999999999999998, 999999999999999999, 1000000000000000000, 0]).word 0 ∧
      (unit small (Value.zero small) (Value.zero small) [999999999999999998, 999999999999999999, 1000000000000000000, 0]).word 1 ≤ (unit small (Value.zero small) (Value.zero small) [999999999999999998, 999999999999999999, 1000000000000000000, 0]).word 1 := by decide +kernel

theorem witness_NparseReadsFixedLengthDigits :
    ((unit small (Value.zero small) (Value.zero small) []).setText (List.replicate 36 zeroChar)).running ∧
      ((unit small (Value.zero small) (Value.zero small) []).setText (List.replicate 36 zeroChar)).tlen = ((unit small (Value.zero small) (Value.zero small) []).setText (List.replicate 36 zeroChar)).cfg.ND ∧
      ((unit small (Value.zero small) (Value.zero small) []).setText (List.replicate 36 zeroChar)).text.all isDigit = true ∧
      ((unit small (Value.zero small) (Value.zero small) []).setText (List.replicate 35 zeroChar)).running ∧
      ¬ (((unit small (Value.zero small) (Value.zero small) []).setText (List.replicate 35 zeroChar)).tlen = ((unit small (Value.zero small) (Value.zero small) []).setText (List.replicate 35 zeroChar)).cfg.ND ∧ ((unit small (Value.zero small) (Value.zero small) []).setText (List.replicate 35 zeroChar)).text.all isDigit = true) := by decide +kernel

theorem witness_NformatWritesAllDigits :
    (unit small (value true [999999999999999999, 999999999999999999]) (value false [999999999999999999, 999999999999999999]) []).wf = true ∧
      (unit small (value true [999999999999999999, 999999999999999999]) (value false [999999999999999999, 999999999999999999]) []).running ∧
      ((unit small (Value.zero small) (Value.zero small) []).setText (List.replicate 36 zeroChar)).wf = true ∧
      ((unit small (Value.zero small) (Value.zero small) []).setText (List.replicate 36 zeroChar)).running ∧
      ((unit small (Value.zero small) (Value.zero small) []).setText (List.replicate 36 zeroChar)).tlen = ((unit small (Value.zero small) (Value.zero small) []).setText (List.replicate 36 zeroChar)).cfg.ND ∧
      ((unit small (Value.zero small) (Value.zero small) []).setText (List.replicate 36 zeroChar)).text.all isDigit = true := by decide +kernel

theorem witness_NcomplComplementsEveryLimb :
    (unit small (value true [999999999999999999, 999999999999999999]) (value false [999999999999999999, 999999999999999999]) []).wf = true ∧
      (unit small (value true [999999999999999999, 999999999999999999]) (value false [999999999999999999, 999999999999999999]) []).running := by decide +kernel

theorem witness_NaturalComparisonsCompareMagnitudes :
    (unit small (value true [999999999999999999, 999999999999999999]) (value false [999999999999999999, 999999999999999999]) []).wf = true ∧
      (unit small (value true [999999999999999999, 999999999999999999]) (value false [999999999999999999, 999999999999999999]) []).running ∧
      (unit small (value true [999999999999999999, 999999999999999999]) (value false [999999999999999999, 999999999999999999]) []).magVal 0 = (unit small (value true [999999999999999999, 999999999999999999]) (value false [999999999999999999, 999999999999999999]) []).magVal 1 ∧
      (unit small (value true [999999999999999999, 999999999999999999]) (value false [999999999999999999, 999999999999999999]) []).magVal 2 < (unit small (value true [999999999999999999, 999999999999999999]) (value false [999999999999999999, 999999999999999999]) []).magVal 1 := by decide +kernel

theorem witness_NaddAddsOrOverflows :
    (unit small (value false [999999999999999999, 999999999999999998]) (value false [0, 1]) []).running ∧
      (unit small (value false [999999999999999999, 999999999999999998]) (value false [0, 1]) []).magVal 0 + (unit small (value false [999999999999999999, 999999999999999998]) (value false [0, 1]) []).magVal 1 + 1 = (unit small (value false [999999999999999999, 999999999999999998]) (value false [0, 1]) []).cfg.CAP ∧
      (unit small (value false [999999999999999999, 999999999999999999]) (value false [0, 1]) []).running ∧
      (unit small (value false [999999999999999999, 999999999999999999]) (value false [0, 1]) []).cfg.CAP = (unit small (value false [999999999999999999, 999999999999999999]) (value false [0, 1]) []).magVal 0 + (unit small (value false [999999999999999999, 999999999999999999]) (value false [0, 1]) []).magVal 1 := by decide +kernel

theorem witness_NsubSubtractsOrUnderflows :
    (unit small (value false [999999999999999999, 999999999999999999]) (value false [0, 1]) []).wf = true ∧
      (unit small (value false [999999999999999999, 999999999999999999]) (value false [0, 1]) []).running ∧
      (unit small (value false [999999999999999999, 999999999999999999]) (value false [0, 1]) []).magVal 1 ≤ (unit small (value false [999999999999999999, 999999999999999999]) (value false [0, 1]) []).magVal 1 ∧
      (unit small (value false [999999999999999999, 999999999999999999]) (value false [0, 1]) []).magVal 2 + 1 = (unit small (value false [999999999999999999, 999999999999999999]) (value false [0, 1]) []).magVal 1 := by decide +kernel

theorem witness_LimbShiftsDropNothing :
    (unit Config.reference (value false [1, 2, 3, 4]) (Value.zero Config.reference) [4, 5, 72, 73]).wf = true ∧
      (unit Config.reference (value false [1, 2, 3, 4]) (Value.zero Config.reference) [4, 5, 72, 73]).running ∧
      (1 : VReg) ≠ 2 ∧
      (unit Config.reference (value false [1, 2, 3, 4]) (Value.zero Config.reference) [4, 5, 72, 73]).word 0 ≤ (unit Config.reference (value false [1, 2, 3, 4]) (Value.zero Config.reference) [4, 5, 72, 73]).cfg.N ∧
      (unit Config.reference (value false [1, 2, 3, 4]) (Value.zero Config.reference) [4, 5, 72, 73]).cfg.N < (unit Config.reference (value false [1, 2, 3, 4]) (Value.zero Config.reference) [4, 5, 72, 73]).word 1 := by decide +kernel

theorem witness_DigitShiftsDropNothing :
    (unit Config.reference (value false [1, 2, 3, 4]) (Value.zero Config.reference) [4, 5, 72, 73]).wf = true ∧
      (unit Config.reference (value false [1, 2, 3, 4]) (Value.zero Config.reference) [4, 5, 72, 73]).running ∧
      (1 : VReg) ≠ 2 ∧
      (unit Config.reference (value false [1, 2, 3, 4]) (Value.zero Config.reference) [4, 5, 72, 73]).word 2 ≤ (unit Config.reference (value false [1, 2, 3, 4]) (Value.zero Config.reference) [4, 5, 72, 73]).cfg.ND ∧
      (unit Config.reference (value false [1, 2, 3, 4]) (Value.zero Config.reference) [4, 5, 72, 73]).cfg.ND < (unit Config.reference (value false [1, 2, 3, 4]) (Value.zero Config.reference) [4, 5, 72, 73]).word 3 := by decide +kernel

theorem witness_NaturalMultiplyIsExact :
    (unit small (value false [999999999999999999, 999999999999999999]) (Value.zero small) [999999999999999999, 1000000000000000000, 0, 1]).wf = true ∧
      (unit small (value false [999999999999999999, 999999999999999999]) (Value.zero small) [999999999999999999, 1000000000000000000, 0, 1]).running ∧
      (unit small (value false [999999999999999999, 999999999999999999]) (Value.zero small) [999999999999999999, 1000000000000000000, 0, 1]).word 0 < BASE ∧
      BASE ≤ (unit small (value false [999999999999999999, 999999999999999999]) (Value.zero small) [999999999999999999, 1000000000000000000, 0, 1]).word 1 := by decide +kernel

theorem witness_NaturalDivideIsEuclidean :
    (unit small (value false [999999999999999999, 999999999999999999]) (Value.zero small) [999999999999999999, 1000000000000000000, 0, 1]).wf = true ∧
      (unit small (value false [999999999999999999, 999999999999999999]) (Value.zero small) [999999999999999999, 1000000000000000000, 0, 1]).running ∧
      (unit small (value false [999999999999999999, 999999999999999999]) (Value.zero small) [999999999999999999, 1000000000000000000, 0, 1]).word 0 < BASE ∧
      (unit small (value false [999999999999999999, 999999999999999999]) (Value.zero small) [999999999999999999, 1000000000000000000, 0, 1]).word 3 ≠ 0 ∧
      BASE ≤ (unit small (value false [999999999999999999, 999999999999999999]) (Value.zero small) [999999999999999999, 1000000000000000000, 0, 1]).word 1 ∧
      (unit small (value false [999999999999999999, 999999999999999999]) (Value.zero small) [999999999999999999, 1000000000000000000, 0, 1]).word 2 = 0 ∧
      (unit small (value false [999999999999999999, 999999999999999999]) (Value.zero small) [999999999999999999, 1000000000000000000, 0, 1]).magVal 0 ≠ 0 ∧
      (unit small (value false [999999999999999999, 999999999999999999]) (Value.zero small) [999999999999999999, 1000000000000000000, 0, 1]).magVal 1 = 0 := by decide +kernel

theorem witness_IaddAndIsubAddSignedValues :
    (unit small (value false [999999999999999999, 999999999999999998]) (value false [0, 1]) []).wf = true ∧
      (unit small (value false [999999999999999999, 999999999999999998]) (value false [0, 1]) []).running ∧
      ((unit small (value false [999999999999999999, 999999999999999998]) (value false [0, 1]) []).getV 0).sign = ((unit small (value false [999999999999999999, 999999999999999998]) (value false [0, 1]) []).getV 1).sign ∧
      (unit small (value false [999999999999999999, 999999999999999998]) (value false [0, 1]) []).magVal 0 + (unit small (value false [999999999999999999, 999999999999999998]) (value false [0, 1]) []).magVal 1 + 1 = (unit small (value false [999999999999999999, 999999999999999998]) (value false [0, 1]) []).cfg.CAP ∧
      (unit small (value false [999999999999999999, 999999999999999999]) (value false [0, 1]) []).wf = true ∧
      (unit small (value false [999999999999999999, 999999999999999999]) (value false [0, 1]) []).running ∧
      ((unit small (value false [999999999999999999, 999999999999999999]) (value false [0, 1]) []).getV 0).sign = ((unit small (value false [999999999999999999, 999999999999999999]) (value false [0, 1]) []).getV 1).sign ∧
      (unit small (value false [999999999999999999, 999999999999999999]) (value false [0, 1]) []).cfg.CAP = (unit small (value false [999999999999999999, 999999999999999999]) (value false [0, 1]) []).magVal 0 + (unit small (value false [999999999999999999, 999999999999999999]) (value false [0, 1]) []).magVal 1 ∧
      (unit small (value false [999999999999999999, 999999999999999998]) (value true [0, 1]) []).wf = true ∧
      (unit small (value false [999999999999999999, 999999999999999998]) (value true [0, 1]) []).running ∧
      ((unit small (value false [999999999999999999, 999999999999999998]) (value true [0, 1]) []).getV 0).sign ≠ ((unit small (value false [999999999999999999, 999999999999999998]) (value true [0, 1]) []).getV 1).sign ∧
      (unit small (value false [999999999999999999, 999999999999999998]) (value true [0, 1]) []).magVal 0 + (unit small (value false [999999999999999999, 999999999999999998]) (value true [0, 1]) []).magVal 1 + 1 = (unit small (value false [999999999999999999, 999999999999999998]) (value true [0, 1]) []).cfg.CAP ∧
      (unit small (value false [999999999999999999, 999999999999999999]) (value true [0, 1]) []).wf = true ∧
      (unit small (value false [999999999999999999, 999999999999999999]) (value true [0, 1]) []).running ∧
      ((unit small (value false [999999999999999999, 999999999999999999]) (value true [0, 1]) []).getV 0).sign ≠ ((unit small (value false [999999999999999999, 999999999999999999]) (value true [0, 1]) []).getV 1).sign ∧
      (unit small (value false [999999999999999999, 999999999999999999]) (value true [0, 1]) []).cfg.CAP = (unit small (value false [999999999999999999, 999999999999999999]) (value true [0, 1]) []).magVal 0 + (unit small (value false [999999999999999999, 999999999999999999]) (value true [0, 1]) []).magVal 1 := by decide +kernel

theorem witness_DaddAndDsubAreIaddAndIsub :
    (unit small (value false [999999999999999999, 999999999999999998]) (value false [0, 1]) []).wf = true ∧
      (unit small (value false [999999999999999999, 999999999999999998]) (value false [0, 1]) []).running ∧
      ((unit small (value false [999999999999999999, 999999999999999998]) (value false [0, 1]) []).getV 0).sign = ((unit small (value false [999999999999999999, 999999999999999998]) (value false [0, 1]) []).getV 1).sign ∧
      (unit small (value false [999999999999999999, 999999999999999998]) (value false [0, 1]) []).magVal 0 + (unit small (value false [999999999999999999, 999999999999999998]) (value false [0, 1]) []).magVal 1 + 1 = (unit small (value false [999999999999999999, 999999999999999998]) (value false [0, 1]) []).cfg.CAP ∧
      (unit small (value false [999999999999999999, 999999999999999999]) (value false [0, 1]) []).wf = true ∧
      (unit small (value false [999999999999999999, 999999999999999999]) (value false [0, 1]) []).running ∧
      ((unit small (value false [999999999999999999, 999999999999999999]) (value false [0, 1]) []).getV 0).sign = ((unit small (value false [999999999999999999, 999999999999999999]) (value false [0, 1]) []).getV 1).sign ∧
      (unit small (value false [999999999999999999, 999999999999999999]) (value false [0, 1]) []).cfg.CAP = (unit small (value false [999999999999999999, 999999999999999999]) (value false [0, 1]) []).magVal 0 + (unit small (value false [999999999999999999, 999999999999999999]) (value false [0, 1]) []).magVal 1 ∧
      (unit small (value false [999999999999999999, 999999999999999998]) (value true [0, 1]) []).wf = true ∧
      (unit small (value false [999999999999999999, 999999999999999998]) (value true [0, 1]) []).running ∧
      ((unit small (value false [999999999999999999, 999999999999999998]) (value true [0, 1]) []).getV 0).sign ≠ ((unit small (value false [999999999999999999, 999999999999999998]) (value true [0, 1]) []).getV 1).sign ∧
      (unit small (value false [999999999999999999, 999999999999999998]) (value true [0, 1]) []).magVal 0 + (unit small (value false [999999999999999999, 999999999999999998]) (value true [0, 1]) []).magVal 1 + 1 = (unit small (value false [999999999999999999, 999999999999999998]) (value true [0, 1]) []).cfg.CAP ∧
      (unit small (value false [999999999999999999, 999999999999999999]) (value true [0, 1]) []).wf = true ∧
      (unit small (value false [999999999999999999, 999999999999999999]) (value true [0, 1]) []).running ∧
      ((unit small (value false [999999999999999999, 999999999999999999]) (value true [0, 1]) []).getV 0).sign ≠ ((unit small (value false [999999999999999999, 999999999999999999]) (value true [0, 1]) []).getV 1).sign ∧
      (unit small (value false [999999999999999999, 999999999999999999]) (value true [0, 1]) []).cfg.CAP = (unit small (value false [999999999999999999, 999999999999999999]) (value true [0, 1]) []).magVal 0 + (unit small (value false [999999999999999999, 999999999999999999]) (value true [0, 1]) []).magVal 1 := by decide +kernel

theorem witness_InegTogglesTheFlag :
    (unit small (value false [999999999999999999, 999999999999999998]) (value false [0, 1]) []).running := by decide +kernel

theorem witness_ImulMultipliesSignedValues :
    (unit small (value true [999999999999999999, 999999999999999999]) (value false [999999999999999999, 999999999999999999]) []).wf = true ∧
      (unit small (value true [999999999999999999, 999999999999999999]) (value false [999999999999999999, 999999999999999999]) []).running ∧
      (2 : VReg) ≠ 3 := by decide +kernel

theorem witness_IdivDividesSignedValues :
    (unit small (value false [999999999999999999, 999999999999999999]) (value true [0, 1]) []).wf = true ∧
      (unit small (value false [999999999999999999, 999999999999999999]) (value true [0, 1]) []).running ∧
      (unit small (value false [999999999999999999, 999999999999999999]) (value true [0, 1]) []).magVal 1 = 1 ∧
      (unit small (value false [999999999999999999, 999999999999999999]) (value true [0, 1]) []).magVal 2 = 0 := by decide +kernel

theorem witness_IntegerComparisonsCompareSignedValues :
    (unit small (value false [999999999999999999, 999999999999999999]) (value true [0, 1]) []).wf = true ∧
      (unit small (value false [999999999999999999, 999999999999999999]) (value true [0, 1]) []).running ∧
      sval ((unit small (value false [999999999999999999, 999999999999999999]) (value true [0, 1]) []).getV 1) < sval ((unit small (value false [999999999999999999, 999999999999999999]) (value true [0, 1]) []).getV 2) ∧
      sval ((unit small (value false [999999999999999999, 999999999999999999]) (value true [0, 1]) []).getV 2) < sval ((unit small (value false [999999999999999999, 999999999999999999]) (value true [0, 1]) []).getV 0) := by decide +kernel

theorem witness_DecimalComparisonsCompareSignedValues :
    (unit small (value false [999999999999999999, 999999999999999999]) (value true [0, 1]) []).wf = true ∧
      (unit small (value false [999999999999999999, 999999999999999999]) (value true [0, 1]) []).running ∧
      sval ((unit small (value false [999999999999999999, 999999999999999999]) (value true [0, 1]) []).getV 1) < sval ((unit small (value false [999999999999999999, 999999999999999999]) (value true [0, 1]) []).getV 2) ∧
      sval ((unit small (value false [999999999999999999, 999999999999999999]) (value true [0, 1]) []).getV 2) < sval ((unit small (value false [999999999999999999, 999999999999999999]) (value true [0, 1]) []).getV 0) := by decide +kernel

theorem witness_DparseReadsTheDecimalGrammar :
    smallest.wf = true ∧ ((unit smallest (Value.zero smallest) (Value.zero smallest) []).setText (txt ['-', '5', '.'])).running ∧ isDecimalText smallest (txt ['-', '5', '.']) true (txt ['5']) [] ∧
      isDecimalText Config.reference (txt ['0', '0', '7', '.', '5', '0']) false (txt ['0', '0', '7']) (txt ['5', '0']) ∧ ((unit smallest (Value.zero smallest) (Value.zero smallest) []).setText (txt ['5', '.', '0'])).running ∧
      ∀ isNeg ip fp, ¬ isDecimalText smallest (txt ['5', '.', '0']) isNeg ip fp :=
  ⟨by decide +kernel, by decide +kernel, by unfold isDecimalText; decide +kernel, by unfold isDecimalText; decide +kernel,
    by decide +kernel, fun isNeg ip fp h => by
      have e : parseDecimal smallest (txt ['5', '.', '0']) = none := by decide +kernel
      rw [parseDecimal_of h] at e; cases e⟩

theorem witness_DformatWritesTheCanonicalText :
    (unit Config.reference (value true [999999999999999999, 999999999999999999, 999999999999999999, 999999999999999999]) (value true [0, 0, 0, 0]) []).wf = true ∧
      (unit Config.reference (value true [999999999999999999, 999999999999999999, 999999999999999999, 999999999999999999]) (value true [0, 0, 0, 0]) []).running ∧
      (unit Config.reference (value true [999999999999999999, 999999999999999999, 999999999999999999, 999999999999999999]) (value true [0, 0, 0, 0]) []).magVal 1 = 0 ∧
      (unit Config.reference (value true [999999999999999999, 999999999999999999, 999999999999999999, 999999999999999999]) (value true [0, 0, 0, 0]) []).magVal 0 + 1 = (unit Config.reference (value true [999999999999999999, 999999999999999999, 999999999999999999, 999999999999999999]) (value true [0, 0, 0, 0]) []).cfg.CAP := by decide +kernel

theorem witness_FormatThenParseGivesTheDecimalBack :
    (unit Config.reference (value true [999999999999999999, 999999999999999999, 999999999999999999, 999999999999999999]) (value true [0, 0, 0, 0]) []).wf = true ∧
      (unit Config.reference (value true [999999999999999999, 999999999999999999, 999999999999999999, 999999999999999999]) (value true [0, 0, 0, 0]) []).running ∧
      (unit Config.reference (value true [999999999999999999, 999999999999999999, 999999999999999999, 999999999999999999]) (value true [0, 0, 0, 0]) []).magVal 1 = 0 ∧
      (unit Config.reference (value true [999999999999999999, 999999999999999999, 999999999999999999, 999999999999999999]) (value true [0, 0, 0, 0]) []).magVal 0 ≠ 0 := by decide +kernel

theorem witness_DmulTruncatesTheExactProduct :
    (unit Config.reference (value false [999999999999999999, 999999999999999999, 999999999999999999, 999999999999999999]) (value false [0, 0, 1, 0]) []).running ∧
      (unit Config.reference (value false [999999999999999999, 999999999999999999, 999999999999999999, 999999999999999999]) (value false [0, 0, 1, 0]) []).magVal 0 * (unit Config.reference (value false [999999999999999999, 999999999999999999, 999999999999999999, 999999999999999999]) (value false [0, 0, 1, 0]) []).magVal 1 / (unit Config.reference (value false [999999999999999999, 999999999999999999, 999999999999999999, 999999999999999999]) (value false [0, 0, 1, 0]) []).cfg.SC + 1 = (unit Config.reference (value false [999999999999999999, 999999999999999999, 999999999999999999, 999999999999999999]) (value false [0, 0, 1, 0]) []).cfg.CAP ∧
      (unit Config.reference (value false [0, 1000000000, 0, 0]) (value false [0, 1000000000, 0, 0]) []).running ∧
      (unit Config.reference (value false [0, 1000000000, 0, 0]) (value false [0, 1000000000, 0, 0]) []).cfg.CAP = (unit Config.reference (value false [0, 1000000000, 0, 0]) (value false [0, 1000000000, 0, 0]) []).magVal 0 * (unit Config.reference (value false [0, 1000000000, 0, 0]) (value false [0, 1000000000, 0, 0]) []).magVal 1 / (unit Config.reference (value false [0, 1000000000, 0, 0]) (value false [0, 1000000000, 0, 0]) []).cfg.SC := by decide +kernel

theorem witness_DdivRoundsTheExactQuotientHalfUp :
    (unit Config.reference (value false [999999999999999999, 999999999999999999, 999999999999999999, 999999999999999999]) (value false [0, 0, 1, 0]) []).running ∧
      (unit Config.reference (value false [999999999999999999, 999999999999999999, 999999999999999999, 999999999999999999]) (value false [0, 0, 1, 0]) []).magVal 1 ≠ 0 ∧
      (unit Config.reference (value false [999999999999999999, 999999999999999999, 999999999999999999, 999999999999999999]) (value false [0, 0, 1, 0]) []).magVal 0 * (unit Config.reference (value false [999999999999999999, 999999999999999999, 999999999999999999, 999999999999999999]) (value false [0, 0, 1, 0]) []).cfg.SC / (unit Config.reference (value false [999999999999999999, 999999999999999999, 999999999999999999, 999999999999999999]) (value false [0, 0, 1, 0]) []).magVal 1 + 1 = (unit Config.reference (value false [999999999999999999, 999999999999999999, 999999999999999999, 999999999999999999]) (value false [0, 0, 1, 0]) []).cfg.CAP ∧
      (unit Config.reference (value false [999999999999999999, 999999999999999999, 999999999999999999, 999999999999999999]) (value false [0, 0, 1, 0]) []).magVal 2 = 0 ∧
      (unit Config.reference (value false [1, 0, 0, 0]) (value false [0, 0, 0, 1]) []).running ∧
      (unit Config.reference (value false [1, 0, 0, 0]) (value false [0, 0, 0, 1]) []).magVal 1 ≠ 0 ∧
      (unit Config.reference (value false [1, 0, 0, 0]) (value false [0, 0, 0, 1]) []).cfg.CAP = (unit Config.reference (value false [1, 0, 0, 0]) (value false [0, 0, 0, 1]) []).magVal 0 * (unit Config.reference (value false [1, 0, 0, 0]) (value false [0, 0, 0, 1]) []).cfg.SC / (unit Config.reference (value false [1, 0, 0, 0]) (value false [0, 0, 0, 1]) []).magVal 1 := by decide +kernel

theorem witness_DiszeroTestsAndDconstLoads :
    Config.reference.wf = true ∧
      (unit Config.reference (Value.zero Config.reference) (Value.zero Config.reference) []).running ∧
      Config.reference.K ≠ 0 ∧
      (3#12).toNat = 3 ∧
      3 < (4#12).toNat ∧
      noFraction.wf = true ∧
      (unit noFraction (Value.zero noFraction) (Value.zero noFraction) []).running ∧
      noFraction.K = 0 := by decide +kernel

theorem witness_HalfProductDatapathMultiplies :
    999999999999999999 < BASE := by decide +kernel

theorem witness_EstimateAndCorrectDatapathDivides :
    999999999999999999 < BASE ∧
      999999999999999998 < 999999999999999999 := by decide +kernel

theorem witness_AdderAndComplementPipelineMeetTheirContracts :
    magWf small [999999999999999999#64, 999999999999999999#64] = true ∧
      magWf small [0#64, 1#64] = true := by decide +kernel

theorem witness_DigitShiftDatapathsMeetTheirContracts :
    magWf small [999999999999999999#64, 999999999999999999#64] = true ∧
      36 ≤ small.ND := by decide +kernel

theorem witness_SchoolbookMultiplierMeetsItsContract :
    magWf small [999999999999999999#64, 999999999999999999#64] = true ∧
      999999999999999999 < BASE := by decide +kernel

theorem witness_LongDivisionMeetsItsContract :
    magWf small [999999999999999999#64, 999999999999999999#64] = true ∧
      magWf small [1#64, 1#64] = true ∧
      0 < 999999999999999999 ∧
      999999999999999999 < BASE := by decide +kernel

theorem witness_DecimalDatapathsMeetTheirContracts :
    small.wf = true ∧
      Value.wf small (value true [999999999999999999, 999999999999999999]) = true := by decide +kernel

end Sys2Proof.Machine.Tests
end

section
/-! The three ways a command ends (00_scope.md R13): the causes each arithmetic operation reports, what each command's
completion can be, and from it O14 and O10. -/

namespace Sys2Proof.Machine

open Sys2Proof

/-! ### The causes an arithmetic operation reports -/

/-- Mapping a result keeps its error. -/
theorem error_of_map_error {α β : Type} {f : α → β} {r : Except Cause α} {e : Cause} (h : r.map f = .error e) :
    r = .error e := by
  cases r with
  | error _ => exact congrArg Except.error (Except.error.inj h)
  | ok _ => cases h

/-- Natural `add` reports CAPACITY_OVERFLOW alone (R125). -/
theorem addMag_error {c : Config} {a b : List Word} {e : Cause} (h : addMag c a b = .error e) :
    e = .capacityOverflow := by
  unfold addMag at h
  split at h <;> cases h
  rfl

/-- Natural `subtract` reports SUB_UNDERFLOW alone (R128). -/
theorem subMag_error {c : Config} {a b : List Word} {e : Cause} (h : subMag c a b = .error e) :
    e = .subUnderflow := by
  unfold subMag at h
  split at h <;> cases h
  rfl

/-- Natural `divide` reports DIVISION_BY_ZERO alone (R157). -/
theorem divMag_error {c : Config} {a b : List Word} {e : Cause} (h : divMag c a b = .error e) :
    e = .divisionByZero := by
  unfold divMag at h
  split at h <;> cases h
  rfl

/-- Integer `add` reports what its magnitude addition or subtraction does (R171, R172); SUB_UNDERFLOW only outside the
limb invariant. -/
theorem addInt_error {c : Config} {x y : Value} {e : Cause} (h : addInt c x y = .error e) :
    e = .capacityOverflow ∨ e = .subUnderflow := by
  unfold addInt at h
  split at h
  · exact .inl (addMag_error (error_of_map_error h))
  · split at h <;> exact .inr (subMag_error (error_of_map_error h))

/-- Integer `divide` reports DIVISION_BY_ZERO alone (R176). -/
theorem divInt_error {c : Config} {x y : Value} {e : Cause} (h : divInt c x y = .error e) : e = .divisionByZero :=
  divMag_error (error_of_map_error h)

/-- Decimal `multiply` reports CAPACITY_OVERFLOW alone (R215). -/
theorem mulDec_error {c : Config} {x y : Value} {e : Cause} (h : mulDec c x y = .error e) :
    e = .capacityOverflow := by
  rcases Nat.lt_or_ge (val x.mag * val y.mag / c.SC) c.CAP with hlt | hge
  · rw [mulDec_of_lt hlt] at h; cases h
  · rw [mulDec_of_ge hge] at h; cases h; rfl

/-- Decimal `divide` reports DIVISION_BY_ZERO or CAPACITY_OVERFLOW (R217). -/
theorem divDec_error {c : Config} {x y : Value} {e : Cause} (h : divDec c x y = .error e) :
    e = .divisionByZero ∨ e = .capacityOverflow := by
  unfold divDec at h
  split at h
  · cases h; exact .inl rfl
  · split at h <;> cases h
    exact .inr rfl

/-! ### Completions that R13 allows a command -/

/-- What R13 allows the completion of command `i` started in `s` to be: done with only its destinations written,
INVALID_FORMAT for a command that parses text (R235), or a fault with a cause to latch (R236). -/
def Completion.allowedFor (i : Instr) (s : State) : Completion → Prop
  | .done s' => completedWithinDestinations i s (s'.setCC .ok)
  | .invalidFormat => parsesText i = true
  | .fault c => c ≠ .none

/-- A command that wrote its destinations and nothing else. -/
theorem Completion.allowedFor.done {i : Instr} {s s' : State}
    (h : completedWriting (valueDestinations i) (scalarDestinations i) s (s'.setCC .ok)) :
    (Completion.done s').allowedFor i s := by
  obtain ⟨hcfg, hinbox, hreply, htext, hstatus, hv, hs⟩ := h
  exact ⟨hcfg, hinbox, hreply, hstatus, hv, hs, fun _ => htext⟩

/-- A command that may write the text and wrote nothing else. -/
theorem Completion.allowedFor.doneText {i : Instr} {s s' : State} (hi : writesText i = true)
    (h : completedWritingText s (s'.setCC .ok)) : (Completion.done s').allowedFor i s := by
  obtain ⟨hcfg, hinbox, hreply, hv, hs, hstatus⟩ := h
  exact ⟨hcfg, hinbox, hreply, hstatus, fun r _ => congrArg (·.get r) hv, fun r _ => congrArg (·.get r) hs,
    by simp [hi]⟩

/-- A check that raises a fault before the rest of the command. -/
theorem Completion.allowedFor.check {i : Instr} {s : State} {p : Prop} [Decidable p] {cause : Cause} {c : Completion}
    (hcause : cause ≠ .none) (hc : c.allowedFor i s) : (if p then .fault cause else c).allowedFor i s := by
  split
  · exact hcause
  · exact hc

/-- An arithmetic result that is written to destinations, or the cause it reports. -/
theorem Completion.allowedFor.writing {α : Type} {i : Instr} {s : State} {r : Except Cause α} {write : α → State}
    (herror : ∀ e, r = .error e → e ≠ .none) (hwrite : ∀ x, (Completion.done (write x)).allowedFor i s) :
    (Completion.writing r write).allowedFor i s := by
  cases r with
  | ok x => exact hwrite x
  | error e => exact herror e rfl

/-- The sum of two Integers, which IADD, ISUB, DADD and DSUB write (R171, R174, R194, R195). -/
theorem Completion.allowedFor.writingSum {i : Instr} {s : State} {c : Config} {x y : Value} {write : Value → State}
    (hwrite : ∀ z, (Completion.done (write z)).allowedFor i s) :
    (Completion.writing (addInt c x y) write).allowedFor i s := by
  refine .writing (fun e he => ?_) hwrite
  rcases addInt_error he with rfl | rfl <;> decide

/-- Every command ends through `runCommand` with a completion that R13 allows it. The commands are grouped by what they
write and by the checks before the write. -/
theorem exec_completion (s : State) :
    ∀ i : Instr, ∃ c : Completion, exec i s = runCommand i s c ∧ c.allowedFor i s
  | .nop => ⟨_, rfl, .done (completedWriting_none s)⟩
  | .nformat _ | .dformat _ => ⟨_, rfl, .doneText rfl (completedWritingText_setText s _)⟩
  | .sli _ _ | .vgets _ _ | .digcnt _ _ | .diszero _ _
  | .neq _ _ _ | .ngt _ _ _ | .nlt _ _ _ | .nge _ _ _ | .nle _ _ _
  | .ieq _ _ _ | .igt _ _ _ | .ilt _ _ _ | .ige _ _ _ | .ile _ _ _
  | .deq _ _ _ | .dgt _ _ _ | .dlt _ _ _ | .dge _ _ _ | .dle _ _ _ =>
    ⟨_, rfl, .done (completedWriting_setS s _ _)⟩
  | .vmov _ _ | .ncompl _ _ | .ineg _ _ => ⟨_, rfl, .done (completedWriting_setV s _ _)⟩
  | .nmul _ _ _ _ | .imul _ _ _ _ => ⟨_, rfl, .done (completedWriting_setV_setV s _ _ _ _)⟩
  | .vgetl _ _ _ | .pow10 _ _ =>
    ⟨_, rfl, .check (by decide) (.done (completedWriting_setS s _ _))⟩
  | .vsetl _ _ _ =>
    ⟨_, rfl, .check (by decide) (.check (by decide) (.done (completedWriting_setV s _ _)))⟩
  | .rebal _ _ _ _ | .splith _ _ _ | .mulw _ _ _ _ =>
    ⟨_, rfl, .check (by decide) (.done (completedWriting_setS_setS s _ _ _ _))⟩
  | .shlw _ _ _ _ | .shrw _ _ _ _ =>
    ⟨_, rfl, .check (by decide) (.check (by decide) (.done (completedWriting_setS_setS s _ _ _ _)))⟩
  | .div2by1 _ _ _ _ _ =>
    ⟨_, rfl, .check (by decide) (.check (by decide)
      (.check (by decide) (.done (completedWriting_setS_setS s _ _ _ _))))⟩
  | .nshll _ _ _ _ | .nshrl _ _ _ _ | .nshld _ _ _ _ | .nshrd _ _ _ _ =>
    ⟨_, rfl, .check (by decide) (.done (completedWriting_setV_setV s _ _ _ _))⟩
  | .nmull _ _ _ _ => ⟨_, rfl, .check (by decide) (.done (completedWriting_setV_setS s _ _ _ _))⟩
  | .ndivl _ _ _ _ =>
    ⟨_, rfl, .check (by decide) (.check (by decide) (.done (completedWriting_setV_setS s _ _ _ _)))⟩
  | .dconst vd _ => by
    refine ⟨_, rfl, ?_⟩
    split
    · exact .done (completedWriting_setV s vd _)
    · exact (by decide : Cause.badIndex ≠ .none)
  | .nadd vd _ _ =>
    ⟨_, rfl, .writing (fun _ he => by rw [addMag_error he]; decide)
      (fun _ => .done (completedWriting_setV s vd _))⟩
  | .nsub vd _ _ =>
    ⟨_, rfl, .writing (fun _ he => by rw [subMag_error he]; decide)
      (fun _ => .done (completedWriting_setV s vd _))⟩
  | .iadd vd _ _ | .isub vd _ _ | .dadd vd _ _ | .dsub vd _ _ =>
    ⟨_, rfl, .writingSum (fun _ => .done (completedWriting_setV s vd _))⟩
  | .dmul vd _ _ =>
    ⟨_, rfl, .writing (fun _ he => by rw [mulDec_error he]; decide)
      (fun _ => .done (completedWriting_setV s vd _))⟩
  | .ddiv vd _ _ =>
    ⟨_, rfl, .writing (fun _ he => by rcases divDec_error he with rfl | rfl <;> decide)
      (fun _ => .done (completedWriting_setV s vd _))⟩
  | .ndiv vd vx _ _ =>
    ⟨_, rfl, .writing (fun _ he => by rw [divMag_error he]; decide)
      (fun _ => .done (completedWriting_setV_setV s vd vx _ _))⟩
  | .idiv vd vx _ _ =>
    ⟨_, rfl, .writing (fun _ he => by rw [divInt_error he]; decide)
      (fun _ => .done (completedWriting_setV_setV s vd vx _ _))⟩
  | .nparse vd | .dparse vd => by
    refine ⟨_, rfl, ?_⟩
    split
    · exact rfl
    · exact .done (completedWriting_setV s vd _)

/-! ### Totality -/

/-- The shared ending of a command answers a next state whatever the completion (R13). -/
theorem runCommand_next (i : Instr) (s : State) (c : Completion) : ∃ t, runCommand i s c = .next t := ⟨_, rfl⟩

/-- Every command answers a next state from every state (R13). -/
theorem exec_next (i : Instr) (s : State) : ∃ t, exec i s = .next t := by
  obtain ⟨c, hexec, -⟩ := exec_completion s i
  rw [hexec]
  exact runCommand_next i s c

/-- HostIssue of any word answers a next state: refused, illegal, or the command the word is (R69, R238). -/
theorem hostIssue_next (cmd : CmdWord) (s : State) : ∃ t, hostIssue cmd s = .next t := by
  unfold hostIssue
  split
  · exact ⟨_, rfl⟩
  · split
    · exact exec_next _ s
    · exact ⟨_, rfl⟩

/-- A port operation answers a next state, but for a HostWriteT of more than TMAX bytes (R46). -/
theorem performHostOp_next_or_unpresentable (op : HostOp) (s : State) :
    (∃ t, performHostOp op s = .next t) ∨
      ∃ str, op = .writeT str ∧ s.cfg.TMAX < str.length ∧ performHostOp op s = .fault .textCannotBePresented := by
  cases op with
  | issue cmd => exact .inl (hostIssue_next cmd s)
  | writeT str =>
    by_cases hlong : s.cfg.TMAX < str.length
    · exact .inr ⟨str, rfl, hlong, if_pos hlong⟩
    · exact .inl ⟨_, if_neg hlong⟩
  | readS _ | writeS _ _ | readT | readStatus | readConfig | reset => exact .inl ⟨_, rfl⟩

/-- A step performs the first port operation presented (R49). -/
theorem step_of_inbox_cons {s : State} {op : HostOp} {rest : List HostOp} (h : s.inbox = op :: rest) :
    step s = performHostOp op (s.taken rest) := by
  rw [step, nextHostOp, h]

/-- An idle unit's step changes nothing (R250). -/
theorem step_of_inbox_nil {s : State} (h : s.inbox = []) : step s = .next s := by
  rw [step, nextHostOp, h]

/-! ### The obligations -/

/-- Settles O14: every command has a completion R13 allows it, and the shared ending records or refuses it. -/
theorem execEndsInOneOfThreeWays : Obligations.ExecEndsInOneOfThreeWays := by
  intro i s
  obtain ⟨c, hexec, hc⟩ := exec_completion s i
  obtain ⟨t, ht⟩ := runCommand_next i s c
  refine ⟨t, hexec.trans ht, ?_⟩
  rcases runCommand_cases ht with ⟨hfrozen, rfl⟩ | ⟨hrun, hill, rfl⟩ | ⟨hrun, hwf, hend⟩
  · exact ⟨fun _ => onlyCompletionCode_setCC s .refused, by simp [State.running, hfrozen],
      by simp [State.running, hfrozen]⟩
  · exact ⟨by simp_all [State.running], fun _ _ => faultedWith_latchFault s (encode i) .illegalCommand,
      by simp [hill]⟩
  · refine ⟨by simp_all [State.running], by simp [hwf], fun _ _ => ?_⟩
    rcases hend with ⟨s', rfl, rfl⟩ | ⟨rfl, rfl⟩ | ⟨cause, rfl, rfl⟩
    · exact .inl hc
    · exact .inr (.inl ⟨hc, onlyCompletionCode_setCC s .invalidFormat⟩)
    · exact .inr (.inr ⟨cause, hc, faultedWith_latchFault s (encode i) cause⟩)

/-- Settles O10: an idle step and every port operation answer a next state, but for the text that cannot be
presented. -/
theorem stepStopsOnlyOnUnpresentableText : Obligations.StepStopsOnlyOnUnpresentableText := by
  intro s
  cases hinbox : s.inbox with
  | nil => exact .inl ⟨s, step_of_inbox_nil hinbox⟩
  | cons op rest =>
    rw [step_of_inbox_cons hinbox]
    rcases performHostOp_next_or_unpresentable op (s.taken rest) with hnext | ⟨str, rfl, hlong, hstop⟩
    · exact .inl hnext
    · exact .inr ⟨str, rest, rfl, hlong, hstop⟩

end Sys2Proof.Machine
end

section
/-! The state rules of 10_state.md: a step runs the command its word decodes to (R46), the layout of STATUS and CONFIG
(R27, R28), and the invariant (R22, R26, R27), which reset has and every step keeps. -/

namespace Sys2Proof.Machine

open Sys2Proof

/-! ### STATUS and CONFIG as words -/

/-- A field that starts above the low part of a concatenation is a field of the high part. -/
theorem extractLsb'_append_above {v w : Nat} {hi : BitVec v} {lo : BitVec w} (start len : Nat) :
    (hi ++ lo).extractLsb' (w + start) len = hi.extractLsb' start len := by
  rw [BitVec.extractLsb'_append_eq_of_le (Nat.le_add_right w start), Nat.add_sub_cancel_left]

/-- The fields of STATUS stand at the bits of R27. -/
theorem Status.toWord_fields (st : Status) :
    st.toWord.extractLsb' 0 1 = BitVec.ofBool st.frozen ∧ st.toWord.extractLsb' 1 4 = st.cause.code ∧
      st.toWord.extractLsb' 5 2 = st.cc.code ∧ st.toWord.extractLsb' 7 25 = 0#25 ∧
      st.toWord.extractLsb' 32 32 = st.fcmd := by
  unfold Status.toWord
  refine ⟨BitVec.extractLsb'_append_eq_right, ?cause, ?cc, ?zeros, ?fcmd⟩
  case cause => exact (extractLsb'_append_above 0 4).trans BitVec.extractLsb'_append_eq_right
  case cc =>
    exact (extractLsb'_append_above 4 2).trans
      ((extractLsb'_append_above 0 2).trans BitVec.extractLsb'_append_eq_right)
  case zeros =>
    exact (extractLsb'_append_above 6 25).trans ((extractLsb'_append_above 2 25).trans
      ((extractLsb'_append_above 0 25).trans BitVec.extractLsb'_append_eq_right))
  case fcmd =>
    exact (extractLsb'_append_above 31 32).trans ((extractLsb'_append_above 27 32).trans
      ((extractLsb'_append_above 25 32).trans BitVec.extractLsb'_append_eq_left))

/-- The fields of CONFIG stand at the bits of R28, each parameter modulo `2^8`. -/
theorem configWord_fields (c : Config) :
    (configWord c).extractLsb' 0 8 = BitVec.ofNat 8 c.N ∧ (configWord c).extractLsb' 8 8 = BitVec.ofNat 8 c.K ∧
      (configWord c).extractLsb' 16 8 = BitVec.ofNat 8 c.DC0 ∧ (configWord c).extractLsb' 24 40 = 0#40 := by
  unfold configWord
  refine ⟨BitVec.extractLsb'_append_eq_right, ?k, ?dc0, ?zeros⟩
  case k => exact (extractLsb'_append_above 0 8).trans BitVec.extractLsb'_append_eq_right
  case dc0 =>
    exact (extractLsb'_append_above 8 8).trans
      ((extractLsb'_append_above 0 8).trans BitVec.extractLsb'_append_eq_right)
  case zeros =>
    exact (extractLsb'_append_above 16 40).trans ((extractLsb'_append_above 8 40).trans
      ((extractLsb'_append_above 0 40).trans BitVec.extractLsb'_eq_self))

/-- DC0 is 0 or 1 (R96). -/
theorem Config.DC0_le_one (c : Config) : c.DC0 ≤ 1 := by
  unfold Config.DC0
  split <;> decide

/-- A parameter below `2^8` is read back whole from its byte of CONFIG (R28). -/
theorem toNat_ofNat_byte {n : Nat} (h : n ≤ 255) : (BitVec.ofNat 8 n).toNat = n := by
  rw [BitVec.toNat_ofNat, Nat.mod_eq_of_lt (Nat.lt_succ_of_le h)]

/-- The STATUS word of a latched fault, bit by bit: FCMD, CC = 2 and F = 1 around the cause (R27, R236). -/
theorem Status.toWord_faulted (cmd : CmdWord) (c : Cause) :
    Status.toWord { frozen := true, cause := c, cc := .fault, fcmd := cmd } =
      (cmd.setWidth 64 <<< 32) ||| 0x41#64 ||| (c.code.setWidth 64 <<< 1) := by
  apply BitVec.eq_of_getLsbD_eq
  intro i hi
  simp only [Status.toWord, CompletionCode.code, BitVec.getLsbD_append, BitVec.getLsbD_or,
    BitVec.getLsbD_shiftLeft, BitVec.getLsbD_setWidth]
  interval_cases i <;> simp

/-- Settles O16: the fields of the two words, and the word of a latched fault. -/
theorem statusAndConfigWordLayout : Obligations.StatusAndConfigWordLayout := by
  refine ⟨Status.toWord_fields, fun c hc => ?_, fun _ cmd c => Status.toWord_faulted cmd c⟩
  obtain ⟨-, hK, hN⟩ := (Config.wf_iff c).mp hc
  obtain ⟨hn, hk, hdc0, hzeros⟩ := configWord_fields c
  rw [hn, hk, hdc0, toNat_ofNat_byte hN, toNat_ofNat_byte (hK.le.trans hN),
    toNat_ofNat_byte ((Config.DC0_le_one c).trans (by decide))]
  exact ⟨rfl, rfl, rfl, hzeros⟩

/-! ### The step of a HostIssue -/

/-- A running unit executes the command a word decodes to (R46, R80). -/
theorem hostIssue_of_decode {s : State} {w : CmdWord} {i : Instr} (hrun : s.running) (hdecode : decode w = .ok i) :
    hostIssue w s = exec i s := by
  rw [State.running] at hrun
  simp [hostIssue, hrun, hdecode]

/-- Settles O5: the step performs the HostIssue, and a running unit executes the command its word decodes to. -/
theorem stepRunsTheDecodedCommand : Obligations.StepRunsTheDecodedCommand := by
  intro s w rest i hinbox hrun hdecode
  calc step s = hostIssue w (s.taken rest) := step_of_inbox_cons hinbox
    _ = exec i (s.taken rest) := hostIssue_of_decode hrun hdecode

/-! ### Reset -/

/-- The reset state of a build the spec allows is within the invariant (R260). -/
theorem State.wf_resetWith {c : Config} (h : c.wf = true) : (State.resetWith c).wf = true := by
  refine (State.wf_iff _).mpr ⟨h, fun r => ?_, Nat.zero_le _, rfl⟩
  rw [State.resetWith_getV]
  exact Value.wf_zero c

/-- Settles O12: the reference build is one the spec allows. -/
theorem resetHasTheInvariant : Obligations.ResetHasTheInvariant :=
  ⟨State.wf_resetWith (by decide), fun _ => State.wf_resetWith⟩

/-! ### The results of the arithmetic are within the limb invariant -/

/-- A mapped result is the image of a result. -/
theorem ok_of_map_ok {α β : Type} {f : α → β} {r : Except Cause α} {y : β} (h : r.map f = .ok y) :
    ∃ x, r = .ok x ∧ f x = y := by
  cases r with
  | error _ => cases h
  | ok x => exact ⟨x, rfl, Except.ok.inj h⟩

/-- A sum of Naturals (R125). -/
theorem magWf_of_addMag {c : Config} {a b m : List Word} (h : addMag c a b = .ok m) : magWf c m = true := by
  unfold addMag at h
  split at h <;> cases h
  exact magWf_nat c _

/-- A difference of Naturals (R128). -/
theorem magWf_of_subMag {c : Config} {a b m : List Word} (h : subMag c a b = .ok m) : magWf c m = true := by
  unfold subMag at h
  split at h <;> cases h
  exact magWf_nat c _

/-- A quotient and a remainder of Naturals (R157). -/
theorem magWf_of_divMag {c : Config} {a b : List Word} {p : List Word × List Word} (h : divMag c a b = .ok p) :
    magWf c p.1 = true ∧ magWf c p.2 = true := by
  unfold divMag at h
  split at h <;> cases h
  exact ⟨magWf_nat c _, magWf_nat c _⟩

/-- A sum of Integers (R171, R172). -/
theorem Value.wf_of_addInt {c : Config} {x y z : Value} (h : addInt c x y = .ok z) : Value.wf c z = true := by
  unfold addInt at h
  split at h
  · obtain ⟨m, hm, rfl⟩ := ok_of_map_ok h
    exact magWf_of_addMag hm
  · split at h <;> obtain ⟨m, hm, rfl⟩ := ok_of_map_ok h <;> exact magWf_of_subMag hm

/-- A product of Integers and its overflow (R175). -/
theorem Value.wf_mulInt (c : Config) (x y : Value) :
    Value.wf c (mulInt c x y).1 = true ∧ Value.wf c (mulInt c x y).2 = true :=
  ⟨magWf_nat c _, magWf_nat c _⟩

/-- A quotient and a remainder of Integers (R176). -/
theorem Value.wf_of_divInt {c : Config} {x y : Value} {p : Value × Value} (h : divInt c x y = .ok p) :
    Value.wf c p.1 = true ∧ Value.wf c p.2 = true := by
  obtain ⟨q, hq, rfl⟩ := ok_of_map_ok h
  exact magWf_of_divMag hq

/-- A product of Decimals (R215). -/
theorem Value.wf_of_mulDec {c : Config} {x y z : Value} (h : mulDec c x y = .ok z) : Value.wf c z = true := by
  rcases Nat.lt_or_ge (val x.mag * val y.mag / c.SC) c.CAP with hlt | hge
  · rw [mulDec_of_lt hlt] at h
    cases h
    exact Value.wf_nat c _ _
  · rw [mulDec_of_ge hge] at h
    cases h

/-- A quotient of Decimals (R217). -/
theorem Value.wf_of_divDec {c : Config} {x y z : Value} (h : divDec c x y = .ok z) : Value.wf c z = true := by
  unfold divDec at h
  split at h
  · cases h
  · split at h <;> cases h
    exact Value.wf_nat c _ _

/-- Replacing a limb by a word below BASE (R85). -/
theorem magWf_set {c : Config} {m : List Word} {w : Word} (h : magWf c m = true) (hw : w.toNat < BASE) (j : Nat) :
    magWf c (m.set j w) = true := by
  obtain ⟨hlen, hlimbs⟩ := (magWf_iff c m).mp h
  refine (magWf_iff c _).mpr ⟨(List.length_set ..).trans hlen, fun l hl => ?_⟩
  rcases List.mem_or_eq_of_mem_set hl with hmem | rfl
  · exact hlimbs l hmem
  · exact hw

/-- A parsed Natural (R111). -/
theorem magWf_of_parseNatural {c : Config} {t : List Byte} {m : List Word} (h : parseNatural c t = some m) :
    magWf c m = true := by
  unfold parseNatural at h
  split at h
  · rename_i htext
    cases h
    exact magWf_parseLimbs htext.2
  · cases h

/-- A parsed Decimal: the grammar lets digits alone into the padded string (R191, R192). -/
theorem magWf_of_parseDecimal {c : Config} {t ip fp : List Byte} {isNeg : Bool}
    (h : parseDecimal c t = some (isNeg, ip, fp)) : magWf c (parseLimbs c.N (padDecimal c ip fp)) = true := by
  obtain ⟨⟨-, -, hip⟩, ⟨-, hfp⟩, -⟩ := parseDecimal_some h
  exact magWf_parseLimbs (padDecimal_all hip hfp)

/-! ### The completions of the commands keep the invariant -/

/-- The completion of a command started in `s` leaves the unit within the invariant: what a done command wrote is within
it and STATUS was left to the shared ending; a fault has a cause to latch (R27). -/
def Completion.keepsWf (s : State) : Completion → Prop
  | .done s' => s'.wf = true ∧ s'.status = s.status
  | .invalidFormat => True
  | .fault c => c ≠ .none

section
variable {s : State}

theorem Completion.keepsWf.setS (h : s.wf = true) (i : SReg) (w : Word) :
    (Completion.done (s.setS i w)).keepsWf s :=
  ⟨State.wf_setS h i w, rfl⟩

theorem Completion.keepsWf.setS_setS (h : s.wf = true) (i j : SReg) (w x : Word) :
    (Completion.done ((s.setS i w).setS j x)).keepsWf s :=
  ⟨State.wf_setS (State.wf_setS h i w) j x, rfl⟩

theorem Completion.keepsWf.setV (h : s.wf = true) (i : VReg) {x : Value} (hx : Value.wf s.cfg x = true) :
    (Completion.done (s.setV i x)).keepsWf s :=
  ⟨State.wf_setV h i hx, rfl⟩

theorem Completion.keepsWf.setV_setV (h : s.wf = true) (i j : VReg) {x y : Value} (hx : Value.wf s.cfg x = true)
    (hy : Value.wf s.cfg y = true) : (Completion.done ((s.setV i x).setV j y)).keepsWf s :=
  ⟨State.wf_setV (State.wf_setV h i hx) j hy, rfl⟩

theorem Completion.keepsWf.setV_setS (h : s.wf = true) (i : VReg) (j : SReg) {x : Value}
    (hx : Value.wf s.cfg x = true) (w : Word) : (Completion.done ((s.setV i x).setS j w)).keepsWf s :=
  ⟨State.wf_setS (State.wf_setV h i hx) j w, rfl⟩

theorem Completion.keepsWf.setText (h : s.wf = true) {t : List Byte} (ht : t.length ≤ s.cfg.TMAX) :
    (Completion.done (s.setText t)).keepsWf s :=
  ⟨State.wf_setText h ht, rfl⟩

/-- A check that raises a fault; what comes after it may use that the check passed. -/
theorem Completion.keepsWf.check {p : Prop} [Decidable p] {cause : Cause} {c : Completion}
    (hcause : cause ≠ .none) (hc : ¬ p → c.keepsWf s) : (if p then .fault cause else c).keepsWf s := by
  split
  · exact hcause
  · exact hc ‹_›

/-- An arithmetic result that is written to destinations, or the cause it reports. -/
theorem Completion.keepsWf.writing {α : Type} {r : Except Cause α} {write : α → State}
    (herror : ∀ e, r = .error e → e ≠ .none) (hwrite : ∀ x, r = .ok x → (Completion.done (write x)).keepsWf s) :
    (Completion.writing r write).keepsWf s := by
  cases r with
  | ok x => exact hwrite x rfl
  | error e => exact herror e rfl

/-- The sum of two Integers, which IADD, ISUB, DADD and DSUB write (R171, R174, R194, R195). -/
theorem Completion.keepsWf.writingSum (h : s.wf = true) (x y : Value) (i : VReg) :
    (Completion.writing (addInt s.cfg x y) (fun z => s.setV i z)).keepsWf s := by
  refine .writing (fun e he => ?_) (fun z hz => .setV h i (Value.wf_of_addInt hz))
  rcases addInt_error he with rfl | rfl <;> decide

end

/-- Every command ends through `runCommand` with a completion that keeps the invariant. The commands are grouped by what
they write and by the checks before the write. -/
theorem exec_completion_keepsWf {s : State} (h : s.wf = true) :
    ∀ i : Instr, ∃ c : Completion, exec i s = runCommand i s c ∧ c.keepsWf s
  | .nop => ⟨_, rfl, h, rfl⟩
  | .nformat va => ⟨_, rfl, .setText h (natural_digits_fit s.cfg (State.magWf_mag h va))⟩
  | .dformat va =>
    ⟨_, rfl, .setText h (formatDecimal_length_le ((State.wf_iff s).mp h).1 (State.magWf_mag h va))⟩
  | .sli _ _ | .vgets _ _ | .digcnt _ _ | .diszero _ _
  | .neq _ _ _ | .ngt _ _ _ | .nlt _ _ _ | .nge _ _ _ | .nle _ _ _
  | .ieq _ _ _ | .igt _ _ _ | .ilt _ _ _ | .ige _ _ _ | .ile _ _ _
  | .deq _ _ _ | .dgt _ _ _ | .dlt _ _ _ | .dge _ _ _ | .dle _ _ _ => ⟨_, rfl, .setS h _ _⟩
  | .vmov vd va | .ineg vd va => ⟨_, rfl, .setV h vd (State.magWf_mag h va)⟩
  | .ncompl vd va => ⟨_, rfl, .setV h vd (magWf_complementMag (State.magWf_mag h va))⟩
  | .nmul vd vx _ _ => ⟨_, rfl, .setV_setV h vd vx (Value.wf_nat _ _ _) (Value.wf_nat _ _ _)⟩
  | .imul vd vx va vb =>
    have hresult := Value.wf_mulInt s.cfg (s.getV va) (s.getV vb)
    ⟨_, rfl, .setV_setV h vd vx hresult.1 hresult.2⟩
  | .vgetl _ _ _ | .pow10 _ _ => ⟨_, rfl, .check (by decide) (fun _ => .setS h _ _)⟩
  | .vsetl vd idx _ =>
    ⟨_, rfl, .check (by decide) (fun _ => .check (by decide) (fun hlimb =>
      .setV h vd (magWf_set (State.magWf_mag h vd) (Nat.not_le.mp hlimb) idx.toNat)))⟩
  | .rebal _ _ _ _ | .splith _ _ _ | .mulw _ _ _ _ =>
    ⟨_, rfl, .check (by decide) (fun _ => .setS_setS h _ _ _ _)⟩
  | .shlw _ _ _ _ | .shrw _ _ _ _ =>
    ⟨_, rfl, .check (by decide) (fun _ => .check (by decide) (fun _ => .setS_setS h _ _ _ _))⟩
  | .div2by1 _ _ _ _ _ =>
    ⟨_, rfl, .check (by decide) (fun _ => .check (by decide) (fun _ =>
      .check (by decide) (fun _ => .setS_setS h _ _ _ _)))⟩
  | .nshll vd vx _ _ | .nshrl vd vx _ _ | .nshld vd vx _ _ | .nshrd vd vx _ _ =>
    ⟨_, rfl, .check (by decide) (fun _ =>
      .setV_setV h vd vx (Value.wf_natural _ _) (Value.wf_natural _ _))⟩
  | .nmull vd sx _ _ => ⟨_, rfl, .check (by decide) (fun _ => .setV_setS h vd sx (Value.wf_natural _ _) _)⟩
  | .ndivl vd sx _ _ =>
    ⟨_, rfl, .check (by decide) (fun _ => .check (by decide) (fun _ =>
      .setV_setS h vd sx (Value.wf_natural _ _) _))⟩
  | .dconst vd idx => by
    refine ⟨_, rfl, ?_⟩
    split
    · exact .setV h vd (Value.wf_constRom s.cfg idx.toNat)
    · exact (by decide : Cause.badIndex ≠ .none)
  | .nadd vd _ _ =>
    ⟨_, rfl, .writing (fun _ he => by rw [addMag_error he]; decide)
      (fun _ hm => .setV h vd (magWf_of_addMag hm))⟩
  | .nsub vd _ _ =>
    ⟨_, rfl, .writing (fun _ he => by rw [subMag_error he]; decide)
      (fun _ hm => .setV h vd (magWf_of_subMag hm))⟩
  | .iadd vd _ _ | .isub vd _ _ | .dadd vd _ _ | .dsub vd _ _ => ⟨_, rfl, .writingSum h _ _ vd⟩
  | .dmul vd _ _ =>
    ⟨_, rfl, .writing (fun _ he => by rw [mulDec_error he]; decide)
      (fun _ hx => .setV h vd (Value.wf_of_mulDec hx))⟩
  | .ddiv vd _ _ =>
    ⟨_, rfl, .writing (fun _ he => by rcases divDec_error he with rfl | rfl <;> decide)
      (fun _ hx => .setV h vd (Value.wf_of_divDec hx))⟩
  | .ndiv vd vx _ _ =>
    ⟨_, rfl, .writing (fun _ he => by rw [divMag_error he]; decide)
      (fun _ hp => .setV_setV h vd vx (magWf_of_divMag hp).1 (magWf_of_divMag hp).2)⟩
  | .idiv vd vx _ _ =>
    ⟨_, rfl, .writing (fun _ he => by rw [divInt_error he]; decide)
      (fun _ hp => .setV_setV h vd vx (Value.wf_of_divInt hp).1 (Value.wf_of_divInt hp).2)⟩
  | .nparse vd => by
    refine ⟨_, rfl, ?_⟩
    split
    · trivial
    · exact .setV h vd (magWf_of_parseNatural ‹_›)
  | .dparse vd => by
    refine ⟨_, rfl, ?_⟩
    split
    · trivial
    · exact .setV h vd (magWf_of_parseDecimal ‹_›)

/-! ### Every step keeps the invariant -/

/-- Every command keeps the invariant. -/
theorem exec_keeps_wf {i : Instr} {s t : State} (h : s.wf = true) (he : exec i s = .next t) : t.wf = true := by
  obtain ⟨c, hexec, hc⟩ := exec_completion_keepsWf h i
  rw [hexec] at he
  refine runCommand_keeps_wf h (fun s' hrun hdone => ?_) (fun cause hfault => ?_) he
  · subst hdone
    obtain ⟨hwf, hstatus⟩ := hc
    exact ⟨hwf, (congrArg Status.frozen hstatus).trans hrun⟩
  · subst hfault
    exact hc

/-- HostIssue of any word keeps the invariant: REFUSED is set on a frozen unit only, and an illegal word latches
ILLEGAL_COMMAND (R69, R238). -/
theorem hostIssue_keeps_wf {cmd : CmdWord} {s t : State} (h : s.wf = true) (he : hostIssue cmd s = .next t) :
    t.wf = true := by
  unfold hostIssue at he
  split at he
  · rename_i hfrozen
    cases he
    exact State.wf_setCC_refused h hfrozen
  · split at he
    · exact exec_keeps_wf h he
    · cases he
      exact State.wf_latchFault h cmd (by decide)

/-- A host write leaves the state or makes the write (R237). -/
theorem hostWrite_keeps_wf {s written : State} (h : s.wf = true) (hwritten : written.wf = true) :
    (hostWrite s written).wf = true := by
  unfold hostWrite
  split
  · exact h
  · exact hwritten

/-- The answer of a port read is no part of the invariant (R48). -/
theorem State.wf_replying {s : State} (h : s.wf = true) (r : Reply) : State.wf { s with reply := r } = true := h

/-- Reset leaves the reset state of the same build, and the host's stream is no part of the invariant (R260). -/
theorem State.wf_hostReset {s : State} (h : s.wf = true) : s.hostReset.wf = true :=
  State.wf_resetWith ((State.wf_iff s).mp h).1

/-- Every port operation keeps the invariant; a text that can be presented fits the text buffer (R46). -/
theorem performHostOp_keeps_wf {op : HostOp} {s t : State} (h : s.wf = true) (he : performHostOp op s = .next t) :
    t.wf = true := by
  cases op with
  | issue cmd => exact hostIssue_keeps_wf h he
  | readS _ | readT | readStatus | readConfig =>
    cases he
    exact State.wf_replying h _
  | writeS i w =>
    cases he
    exact hostWrite_keeps_wf h (State.wf_setS h i w)
  | writeT str =>
    rw [performHostOp] at he
    split at he
    · cases he
    · rename_i hfits
      cases he
      exact hostWrite_keeps_wf h (State.wf_setText h (Nat.not_lt.mp hfits))
  | reset =>
    cases he
    exact State.wf_hostReset h

/-- Settles O11: an idle step changes nothing, and every port operation keeps the invariant. -/
theorem stepKeepsTheInvariant : Obligations.StepKeepsTheInvariant := by
  intro s t h he
  cases hinbox : s.inbox with
  | nil =>
    rw [step_of_inbox_nil hinbox] at he
    cases he
    exact h
  | cons op rest =>
    rw [step_of_inbox_cons hinbox] at he
    exact performHostOp_keeps_wf (State.wf_taken h rest) he

end Sys2Proof.Machine
end

section
/-! The host's read and write ports (20_memory.md): what each does on a running and on a frozen unit (R46, R48, R237),
and that none of them reaches the value file (R45). -/

namespace Sys2Proof.Machine

open Sys2Proof

/-! ### A host write -/

/-- A running unit takes the write (R46). -/
theorem hostWrite_of_running {s : State} (h : s.running) (written : State) : hostWrite s written = written :=
  if_neg (ne_true_of_eq_false h)

/-- A frozen unit drops the write (R237). -/
theorem hostWrite_of_frozen {s : State} (h : s.status.frozen = true) (written : State) : hostWrite s written = s :=
  if_pos h

/-- A write that leaves the value file alone leaves it alone on a frozen unit too. -/
theorem hostWrite_v {s written : State} (h : written.v = s.v) : (hostWrite s written).v = s.v := by
  rcases Bool.eq_false_or_eq_true s.status.frozen with hfrozen | hrun
  · rw [hostWrite_of_frozen hfrozen]
  · rw [hostWrite_of_running hrun, h]

/-- HostWriteT of a text that can be presented is a host write (R46). -/
theorem performHostOp_writeT {str : List Byte} {s : State} (h : str.length ≤ s.cfg.TMAX) :
    performHostOp (.writeT str) s = .next (hostWrite s (s.setText str)) :=
  if_neg (Nat.not_lt.mpr h)

/-! ### The ports -/

/-- Settles O8: each port operation is its arm of `performHostOp` on the state with the operation taken off the stream,
and a write is dropped exactly when that state is frozen. -/
theorem hostPortsReadAndWrite : Obligations.HostPortsReadAndWrite := by
  intro s op rest hinbox
  rw [step_of_inbox_cons hinbox]
  refine ⟨?writeS, ?writeSFrozen, ?writeT, ?writeTFrozen, ?readS, ?readT, ?readStatus, ?readConfig⟩
  case writeS =>
    rintro i w rfl hrun
    exact congrArg Host.Outcome.next (hostWrite_of_running (s := s.taken rest) hrun _)
  case writeSFrozen =>
    rintro i w rfl hfrozen
    exact congrArg Host.Outcome.next (hostWrite_of_frozen (s := s.taken rest) hfrozen _)
  case writeT =>
    rintro str rfl hfits hrun
    rw [performHostOp_writeT (s := s.taken rest) hfits, hostWrite_of_running (s := s.taken rest) hrun]
    rfl
  case writeTFrozen =>
    rintro str rfl hfits hfrozen
    rw [performHostOp_writeT (s := s.taken rest) hfits, hostWrite_of_frozen (s := s.taken rest) hfrozen]
    rfl
  case readS =>
    rintro i rfl
    rfl
  case readT | readStatus | readConfig =>
    rintro rfl
    rfl

/-- The read and write ports do not reach the value file (R45). -/
theorem performHostOp_v {op : HostOp} {s t : State} (hissue : ∀ w, op ≠ .issue w) (hreset : op ≠ .reset)
    (he : performHostOp op s = .next t) : t.v = s.v := by
  cases op with
  | issue w => exact absurd rfl (hissue w)
  | reset => exact absurd rfl hreset
  | readS _ | readT | readStatus | readConfig =>
    cases he
    rfl
  | writeS i w =>
    cases he
    exact hostWrite_v (State.setS_v s i w)
  | writeT str =>
    rcases Nat.lt_or_ge s.cfg.TMAX str.length with hlong | hfits
    · rw [performHostOp, if_pos hlong] at he
      cases he
    · rw [performHostOp_writeT hfits] at he
      cases he
      exact hostWrite_v (State.setText_v s str)

/-- Settles O17: taking the operation off the stream leaves the value file, and so does every port but HostIssue and
HostReset. -/
theorem hostPortsNeverWriteValueRegisters : Obligations.HostPortsNeverWriteValueRegisters := by
  intro s t op rest hinbox hissue hreset he
  rw [step_of_inbox_cons hinbox] at he
  calc t.v = (s.taken rest).v := performHostOp_v hissue hreset he
    _ = s.v := State.taken_v s rest

end Sys2Proof.Machine
end

section
/-! The encoding (30_encoding.md): a command word and its command are one to one, and which words are commands. -/

namespace Sys2Proof

open Machine

/-! ### Words that match a format -/

/-- Every field that the format does not use is zero (R62, R66). -/
def Fields.unusedZero (f : Fields) (fmt : Format) : Prop :=
  f.rd &&& fmt.maskFields.rd = 0#3 ∧ f.rx &&& fmt.maskFields.rx = 0#3 ∧ f.ra &&& fmt.maskFields.ra = 0#3 ∧
    f.rb &&& fmt.maskFields.rb = 0#3 ∧ f.imm &&& fmt.maskFields.imm = 0#12

/-- Words are equal exactly when their fields are (R60). -/
theorem Fields.toWord_inj {f g : Fields} : f.toWord = g.toWord ↔ f = g :=
  ⟨fun h => by rw [← Fields.ofWord_toWord f, h, Fields.ofWord_toWord], congrArg Fields.toWord⟩

/-- Every format compares the whole opcode (R62). -/
theorem and_maskFields_op (op : BitVec 8) (fmt : Format) : op &&& fmt.maskFields.op = op := by
  cases fmt <;> exact BitVec.and_allOnes

/-- A masked word is an opcode shifted to bit 24 exactly when that is the word's opcode and the unused fields are
zero (R62). -/
theorem toWord_and_mask_eq_iff (f : Fields) (fmt : Format) (op : BitVec 8) :
    f.toWord &&& fmt.mask = op ++ 0#24 ↔ f.op = op ∧ f.unusedZero fmt := by
  rw [toWord_and_mask, and_maskFields_op, ← Fields.toWord_opcode, Fields.toWord_inj, Fields.mk.injEq]
  rfl

/-- A word matches a format exactly when the fields the format does not use are zero (R62, R66). -/
theorem matchesFormat_iff (w : CmdWord) (fmt : Format) :
    matchesFormat w fmt = true ↔ (Fields.ofWord w).unusedZero fmt := by
  have h := toWord_and_mask_eq_iff (Fields.ofWord w) fmt (Fields.ofWord w).op
  rw [Fields.toWord_ofWord] at h
  simpa [matchesFormat] using h

/-- Shifting an opcode to bit 24 is appending 24 zeros (R62). -/
theorem setWidth_shiftLeft_24 (op : BitVec 8) : op.setWidth 32 <<< 24 = op ++ 0#24 := by
  revert op
  decide

/-- A word matches a row of R65 exactly when it has the row's opcode and matches the row's format (R62). -/
theorem matchesRow_iff (w : CmdWord) (row : BitVec 8 × Format) :
    matchesRow w row ↔ (Fields.ofWord w).op = row.1 ∧ matchesFormat w row.2 = true := by
  have h := toWord_and_mask_eq_iff (Fields.ofWord w) row.2 row.1
  rwa [Fields.toWord_ofWord, ← setWidth_shiftLeft_24, ← matchesFormat_iff] at h

/-! ### The opcode map and the commands -/

/-- The fields with those that the format does not use set to zero (R62). -/
def Fields.used (f : Fields) : Format → Fields
  | .f0 => ⟨f.op, 0, 0, 0, 0, 0⟩
  | .fd => ⟨f.op, f.rd, 0, 0, 0, 0⟩
  | .fa => ⟨f.op, 0, 0, f.ra, 0, 0⟩
  | .fdi => ⟨f.op, f.rd, 0, 0, 0, f.imm⟩
  | .fda => ⟨f.op, f.rd, 0, f.ra, 0, 0⟩
  | .fdai => ⟨f.op, f.rd, 0, f.ra, 0, f.imm⟩
  | .fdbi => ⟨f.op, f.rd, 0, 0, f.rb, f.imm⟩
  | .fdxa => ⟨f.op, f.rd, f.rx, f.ra, 0, 0⟩
  | .fdab => ⟨f.op, f.rd, 0, f.ra, f.rb, 0⟩
  | .fdxab => ⟨f.op, f.rd, f.rx, f.ra, f.rb, 0⟩
  | .fdxabc => ⟨f.op, f.rd, f.rx, f.ra, f.rb, 0#9 ++ f.rc⟩

@[simp] theorem Fields.used_op (f : Fields) (fmt : Format) : (f.used fmt).op = f.op := by cases fmt <;> rfl

/-- An immediate field with bits 11:3 zero is its third source register number (R60, R63). -/
theorem append_rc_of_unused {imm : BitVec 12} (h : imm &&& 0xFF8#12 = 0#12) : 0#9 ++ imm.extractLsb' 0 3 = imm := by
  have hhigh : imm.extractLsb' 3 9 = 0#9 := by
    have hand := congrArg (BitVec.extractLsb' 3 9) h
    rwa [BitVec.extractLsb'_and, show (0xFF8#12).extractLsb' 3 9 = BitVec.allOnes 9 by decide,
      BitVec.and_allOnes] at hand
  calc 0#9 ++ imm.extractLsb' 0 3 = imm.extractLsb' (0 + 3) 9 ++ imm.extractLsb' 0 3 := by rw [hhigh]
    _ = imm.extractLsb' 0 12 := BitVec.extractLsb'_append_extractLsb'_eq_extractLsb' rfl
    _ = imm := BitVec.extractLsb'_eq_self

/-- The third source register number is read back from the immediate field it stands in (R60). -/
theorem rc_append (sc : BitVec 3) : (0#9 ++ sc).extractLsb' 0 3 = sc := BitVec.extractLsb'_append_eq_right

/-- Fields that are zero wherever the format does not use them are the fields it uses. -/
theorem Fields.used_of_unusedZero {f : Fields} {fmt : Format} (h : f.unusedZero fmt) : f.used fmt = f := by
  obtain ⟨op, rd, rx, ra, rb, imm⟩ := f
  obtain ⟨hd, hx, ha, hb, hi⟩ := h
  have whole3 (r : BitVec 3) : r &&& 7#3 = r := BitVec.and_allOnes
  have whole12 (r : BitVec 12) : r &&& 0xFFF#12 = r := BitVec.and_allOnes
  cases fmt <;> simp_all [Fields.used, Format.maskFields, Fields.rc, append_rc_of_unused]

/-- The map of R65 takes a command's fields to its format and the command. -/
theorem opcodeRow_fields (i : Instr) : opcodeRow i.fields = some (i.format, i) := by
  cases i with
  | div2by1 sd sx sa sb sc =>
    exact congrArg (fun c => some (Format.fdxabc, Instr.div2by1 sd sx sa sb c)) (rc_append sc)
  | _ => rfl

/-- An opcode is the literal its number is. -/
theorem op_eq_of_toNat_eq {op : BitVec 8} {n : Nat} (h : op.toNat = n) : op = BitVec.ofNat 8 n := by
  rw [← h, BitVec.ofNat_toNat, BitVec.setWidth_eq]

/-- A row of the map has the format of the command it names, and that command's fields are the fields the format
uses (R62, R65). -/
theorem format_fields_of_opcodeRow {f : Fields} {fmt : Format} {i : Instr} (h : opcodeRow f = some (fmt, i)) :
    i.format = fmt ∧ i.fields = f.used fmt := by
  obtain ⟨op, rd, rx, ra, rb, imm⟩ := f
  unfold opcodeRow at h
  split at h
  case h_56 => cases h
  all_goals
    rename_i hop
    cases op_eq_of_toNat_eq hop
    cases h
    exact ⟨rfl, rfl⟩

section
open Laws.MaskMatch

/-- The word of every command holds its fields and matches its row of R65: the laws per command as one statement. -/
theorem encodedAs_fields (i : Instr) : encodedAs i i.format i.fields := by
  change Laws.MaskMatch.Statement i
  cases i
  exacts [nop, sli _ _, vmov _ _, vgetl _ _ _, vsetl _ _ _, vgets _ _, rebal _ _ _ _, splith _ _ _,
    mulw _ _ _ _, digcnt _ _, pow10 _ _, shlw _ _ _ _, shrw _ _ _ _, div2by1 _ _ _ _ _, nparse _, nformat _,
    nadd _ _ _, nsub _ _ _, ncompl _ _, nshll _ _ _ _, nshrl _ _ _ _, nshld _ _ _ _, nshrd _ _ _ _,
    nmull _ _ _ _, nmul _ _ _ _, ndivl _ _ _ _, ndiv _ _ _ _, neq _ _ _, ngt _ _ _, nlt _ _ _, nge _ _ _,
    nle _ _ _, iadd _ _ _, isub _ _ _, ineg _ _, imul _ _ _ _, idiv _ _ _ _, ieq _ _ _, igt _ _ _, ilt _ _ _,
    ige _ _ _, ile _ _ _, dparse _, dformat _, dadd _ _ _, dsub _ _ _, dmul _ _ _, ddiv _ _ _, diszero _ _,
    dconst _ _, deq _ _ _, dgt _ _ _, dlt _ _ _, dge _ _ _, dle _ _ _]

end

/-- A word of a command's opcode is in the map with that command's format: the format is the opcode's (R65). -/
theorem opcodeRow_of_op {f : Fields} {i : Instr} (h : f.op = i.fields.op) :
    ∃ j, opcodeRow f = some (i.format, j) := by
  obtain ⟨op, rd, rx, ra, rb, imm⟩ := f
  cases h
  cases i <;> exact ⟨_, rfl⟩

/-- Every row of the list of R65 is the row of a command. -/
theorem exists_instr_of_mem_opcodeFormats {row : BitVec 8 × Format} (h : row ∈ opcodeFormats) :
    ∃ i : Instr, row = (i.fields.op, i.format) := by
  have hrows : ∀ r ∈ opcodeFormats, (opcodeRow ⟨r.1, 0, 0, 0, 0, 0⟩).map Prod.fst = some r.2 := by decide
  obtain ⟨⟨fmt, i⟩, hrow, hfmt⟩ := Option.map_eq_some_iff.mp (hrows row h)
  obtain ⟨hformat, hfields⟩ := format_fields_of_opcodeRow hrow
  exact ⟨i, Prod.ext (by rw [hfields, Fields.used_op]) (by rw [hformat, ← hfmt])⟩

/-- The map of the decoder and the list of R65 have the same rows. -/
theorem mem_opcodeFormats_iff (f : Fields) (fmt : Format) :
    (f.op, fmt) ∈ opcodeFormats ↔ ∃ i, opcodeRow f = some (fmt, i) := by
  constructor
  · intro hmem
    obtain ⟨i, hi⟩ := exists_instr_of_mem_opcodeFormats hmem
    obtain ⟨hop, rfl⟩ := Prod.mk.inj hi
    exact opcodeRow_of_op hop
  · rintro ⟨i, hrow⟩
    obtain ⟨-, hmem, -⟩ := encodedAs_fields i
    obtain ⟨hformat, hfields⟩ := format_fields_of_opcodeRow hrow
    rwa [hformat, hfields, Fields.used_op] at hmem

/-- R68 refuses a term exactly when its opcode has two destinations in one file and they are one register. -/
theorem Instr.wf_eq_false_iff (i : Instr) :
    i.wf = false ↔ i.fields.op ∈ twoDestinationOpcodes ∧ i.fields.rd = i.fields.rx := by
  cases i <;> simp [Instr.wf, Instr.fields, twoDestinationOpcodes]

/-- A word that matches its row holds the fields of the command the row names (R62, R66). -/
theorem fields_of_matches {w : CmdWord} {fmt : Format} {i : Instr}
    (hrow : opcodeRow (Fields.ofWord w) = some (fmt, i)) (hmatch : matchesFormat w fmt = true) :
    i.fields = Fields.ofWord w :=
  (format_fields_of_opcodeRow hrow).2.trans (Fields.used_of_unusedZero ((matchesFormat_iff w fmt).mp hmatch))

/-- A word that matches its row names one register of one file twice exactly when the command the row names does
(R68). -/
theorem wf_eq_false_iff_sameDestinations {w : CmdWord} {fmt : Format} {i : Instr}
    (hrow : opcodeRow (Fields.ofWord w) = some (fmt, i)) (hmatch : matchesFormat w fmt = true) :
    i.wf = false ↔ sameDestinations w := by
  rw [Instr.wf_eq_false_iff, fields_of_matches hrow hmatch]
  rfl

/-! ### The answers of the decoder -/

/-- The four answers of the decoder in the order of R69, each with its reason. -/
theorem decode_cases (w : CmdWord) :
    (opcodeRow (Fields.ofWord w) = none ∧ decode w = .error .unassignedOpcode) ∨
    ∃ fmt i, opcodeRow (Fields.ofWord w) = some (fmt, i) ∧
      ((matchesFormat w fmt = false ∧ decode w = .error .unusedFieldNotZero) ∨
       (matchesFormat w fmt = true ∧ i.wf = false ∧ decode w = .error .sameDestination) ∨
       (matchesFormat w fmt = true ∧ i.wf = true ∧ decode w = .ok i)) := by
  unfold decode
  split
  case h_1 hrow => exact .inl ⟨hrow, rfl⟩
  case h_2 fmt i hrow =>
    refine .inr ⟨fmt, i, hrow, ?_⟩
    split
    case isFalse hmatch => exact .inl ⟨eq_false_of_ne_true hmatch, rfl⟩
    case isTrue hmatch =>
      split
      case isTrue hwf => exact .inr (.inr ⟨hmatch, hwf, rfl⟩)
      case isFalse hwf => exact .inr (.inl ⟨hmatch, eq_false_of_ne_true hwf, rfl⟩)

/-- The opcode is not in the map (R67, R69). -/
theorem decode_eq_unassignedOpcode_iff (w : CmdWord) :
    decode w = .error .unassignedOpcode ↔ opcodeRow (Fields.ofWord w) = none := by
  rcases decode_cases w with ⟨hrow, h⟩ | ⟨fmt, i, hrow, hanswer⟩
  · simp [h, hrow]
  · rcases hanswer with ⟨hmatch, h⟩ | ⟨hmatch, hwf, h⟩ | ⟨hmatch, hwf, h⟩ <;> simp [h, hrow]

/-- The opcode is in the map and a field its format does not use is not zero (R66, R69). -/
theorem decode_eq_unusedFieldNotZero_iff (w : CmdWord) :
    decode w = .error .unusedFieldNotZero ↔
      ∃ fmt i, opcodeRow (Fields.ofWord w) = some (fmt, i) ∧ matchesFormat w fmt = false := by
  rcases decode_cases w with ⟨hrow, h⟩ | ⟨fmt, i, hrow, hanswer⟩
  · simp [h, hrow]
  · rcases hanswer with ⟨hmatch, h⟩ | ⟨hmatch, hwf, h⟩ | ⟨hmatch, hwf, h⟩ <;> simp [h, hrow, hmatch]

/-- The word matches its row and the command the row names is refused by R68 (R69). -/
theorem decode_eq_sameDestination_iff (w : CmdWord) :
    decode w = .error .sameDestination ↔
      ∃ fmt i, opcodeRow (Fields.ofWord w) = some (fmt, i) ∧ matchesFormat w fmt = true ∧ i.wf = false := by
  rcases decode_cases w with ⟨hrow, h⟩ | ⟨fmt, i, hrow, hanswer⟩
  · simp [h, hrow]
  · rcases hanswer with ⟨hmatch, h⟩ | ⟨hmatch, hwf, h⟩ | ⟨hmatch, hwf, h⟩ <;> simp [*]

/-- The word matches its row and the command the row names is accepted (R69). -/
theorem decode_eq_ok_iff (w : CmdWord) (i : Instr) :
    decode w = .ok i ↔
      ∃ fmt, opcodeRow (Fields.ofWord w) = some (fmt, i) ∧ matchesFormat w fmt = true ∧ i.wf = true := by
  constructor
  · intro hok
    rcases decode_cases w with ⟨-, h⟩ | ⟨fmt, j, hrow, ⟨-, h⟩ | ⟨-, -, h⟩ | ⟨hmatch, hwf, h⟩⟩ <;>
      cases h.symm.trans hok
    exact ⟨fmt, hrow, hmatch, hwf⟩
  · rintro ⟨fmt, hrow, hmatch, hwf⟩
    simp [decode, hrow, hmatch, hwf]

/-! ### The round trips -/

/-- Settles O1: the fields of the word are the command's, the map names the command, and the word matches its row. -/
theorem decodeEncodeRoundTrip : Obligations.DecodeEncodeRoundTrip := by
  intro i hwf
  obtain ⟨-, -, hmask⟩ := encodedAs_fields i
  refine (decode_eq_ok_iff (encode i) i).mpr ⟨i.format, ?row, ?mask, hwf⟩
  case row => rw [ofWord_encode, opcodeRow_fields]
  case mask => rw [matchesFormat, ofWord_encode, hmask, beq_self_eq_true]

/-- Settles O2: a word that decodes matches its row, so the fields of the command are the fields of the word. -/
theorem encodeOfDecodedWordIsTheWord : Obligations.EncodeOfDecodedWordIsTheWord := by
  intro w i h
  obtain ⟨fmt, hrow, hmatch, hwf⟩ := (decode_eq_ok_iff w i).mp h
  refine ⟨?_, hwf⟩
  rw [encode, fields_of_matches hrow hmatch, Fields.toWord_ofWord]

/-! ### Which words are commands -/

/-- The decoder's map has no row for the opcodes outside the list of R65 (R67). -/
theorem opcodeRow_eq_none_iff (f : Fields) : opcodeRow f = none ↔ ∀ row ∈ opcodeFormats, row.1 ≠ f.op := by
  constructor
  · rintro hnone ⟨op, fmt⟩ hmem rfl
    obtain ⟨i, hrow⟩ := (mem_opcodeFormats_iff f fmt).mp hmem
    rw [hnone] at hrow
    cases hrow
  · intro hno
    refine Option.eq_none_iff_forall_ne_some.mpr ?_
    rintro ⟨fmt, i⟩ hrow
    exact hno _ ((mem_opcodeFormats_iff f fmt).mpr ⟨i, hrow⟩) rfl

/-- The rows of R65 with the word's opcode are the row of the decoder's map. -/
theorem exists_row_iff (w : CmdWord) (p : Format → Prop) :
    (∃ row ∈ opcodeFormats, row.1 = (Fields.ofWord w).op ∧ p row.2) ↔
      ∃ fmt i, opcodeRow (Fields.ofWord w) = some (fmt, i) ∧ p fmt := by
  constructor
  · rintro ⟨⟨op, fmt⟩, hmem, rfl, hp⟩
    obtain ⟨i, hrow⟩ := (mem_opcodeFormats_iff _ fmt).mp hmem
    exact ⟨fmt, i, hrow, hp⟩
  · rintro ⟨fmt, i, hrow, hp⟩
    exact ⟨_, (mem_opcodeFormats_iff _ fmt).mpr ⟨i, hrow⟩, rfl, hp⟩

/-- A word matches a row of R65 exactly when it matches its row of the decoder's map (R62). -/
theorem exists_matchesRow_iff (w : CmdWord) :
    (∃ row ∈ opcodeFormats, matchesRow w row) ↔
      ∃ fmt i, opcodeRow (Fields.ofWord w) = some (fmt, i) ∧ matchesFormat w fmt = true := by
  rw [← exists_row_iff w (matchesFormat w · = true)]
  simp only [matchesRow_iff, eq_comm (a := (Fields.ofWord w).op)]

/-- Settles O3: each answer of the decoder with the rows of R65 in place of the decoder's map. -/
theorem decodeAcceptsExactlyTheCommandWords : Obligations.DecodeAcceptsExactlyTheCommandWords := by
  intro w
  refine ⟨?unassigned, ?unused, ?same, ?accepted⟩
  case unassigned => exact (decode_eq_unassignedOpcode_iff w).trans (opcodeRow_eq_none_iff _)
  case unused =>
    rw [decode_eq_unusedFieldNotZero_iff, ← exists_row_iff w (matchesFormat w · = false)]
    refine exists_congr fun row => and_congr_right fun _ => and_congr_right fun hop => ?_
    rw [matchesRow_iff, ← hop]
    simp
  case same =>
    rw [decode_eq_sameDestination_iff, exists_matchesRow_iff]
    constructor
    · rintro ⟨fmt, i, hrow, hmatch, hwf⟩
      exact ⟨⟨fmt, i, hrow, hmatch⟩, (wf_eq_false_iff_sameDestinations hrow hmatch).mp hwf⟩
    · rintro ⟨⟨fmt, i, hrow, hmatch⟩, hsame⟩
      exact ⟨fmt, i, hrow, hmatch, (wf_eq_false_iff_sameDestinations hrow hmatch).mpr hsame⟩
  case accepted =>
    simp only [decode_eq_ok_iff, exists_matchesRow_iff]
    constructor
    · rintro ⟨i, fmt, hrow, hmatch, hwf⟩
      refine ⟨⟨fmt, i, hrow, hmatch⟩, ?_⟩
      rwa [← wf_eq_false_iff_sameDestinations hrow hmatch, Bool.not_eq_false]
    · rintro ⟨⟨fmt, i, hrow, hmatch⟩, hsame⟩
      rw [← wf_eq_false_iff_sameDestinations hrow hmatch, Bool.not_eq_false] at hsame
      exact ⟨i, fmt, hrow, hmatch, hsame⟩

/-- Settles O4: the words of R71 and the illegal words run through the decoder, the 256 opcodes through the map. -/
theorem decodesTheWordsOfR71 : Obligations.DecodesTheWordsOfR71 := by
  refine ⟨?_, ?_, ?_, ?_, ?_, ?_, ?_, ?_, ?_, ?_⟩ <;> decide

/-! ### The step of a word that is no command -/

/-- A running unit raises ILLEGAL_COMMAND with the word on a word that is no command (R66 to R69). -/
theorem hostIssue_of_no_command {s : State} {w : CmdWord} (hrun : s.running) (hno : ∀ i, decode w ≠ .ok i) :
    hostIssue w s = .next (s.latchFault w .illegalCommand) := by
  rw [State.running] at hrun
  cases hdecode : decode w with
  | ok i => exact absurd hdecode (hno i)
  | error e => simp [hostIssue, hrun, hdecode]

/-- Settles O6: the step performs the HostIssue, which latches the fault and changes nothing else. -/
theorem stepFaultsOnIllegalWord : Obligations.StepFaultsOnIllegalWord := by
  intro s w rest hinbox hrun hno
  refine ⟨(s.taken rest).latchFault w .illegalCommand, ?_, faultedWith_latchFault (s.taken rest) w .illegalCommand⟩
  calc step s = hostIssue w (s.taken rest) := step_of_inbox_cons hinbox
    _ = .next ((s.taken rest).latchFault w .illegalCommand) := hostIssue_of_no_command hrun hno

end Sys2Proof
end

section
/-! The move and system commands (40_host_and_move.md): NOP, SLI, VMOV, VGETL, VSETL and VGETS (R81 to R86). -/

namespace Sys2Proof.Machine

open Sys2Proof

/-! ### Commands that write one register -/

/-- A command that is done with one scalar register written: it completes, and the register reads back the word. -/
theorem exec_setS {i : Instr} {s : State} {sd : SReg} {w : Word} (h : s.running) (hi : i.wf = true)
    (he : exec i s = runCommand i s (.done (s.setS sd w))) :
    ∃ t, exec i s = .next t ∧ completedWriting [] [sd] s t ∧ t.getS sd = w :=
  ⟨_, exec_done h hi he, completedWriting_setS s sd w, State.getS_setS_same s sd w⟩

/-- A command that is done with one value register written: it completes, and the register reads back the value. -/
theorem exec_setV {i : Instr} {s : State} {vd : VReg} {x : Value} (h : s.running) (hi : i.wf = true)
    (he : exec i s = runCommand i s (.done (s.setV vd x))) :
    ∃ t, exec i s = .next t ∧ completedWriting [vd] [] s t ∧ t.getV vd = x :=
  ⟨_, exec_done h hi he, completedWriting_setV s vd x, State.getV_setV_same s vd x⟩

/-- The number of a scalar register is that of the word it reads back. -/
theorem State.word_of_getS {s : State} {i : SReg} {w : Word} (h : s.getS i = w) : s.word i = w.toNat :=
  congrArg BitVec.toNat h

/-- The magnitude of a value register is that of the value it reads back. -/
theorem State.mag_of_getV {s : State} {i : VReg} {x : Value} (h : s.getV i = x) : s.mag i = x.mag :=
  congrArg Value.mag h

/-- The truth word is the number 0 or 1 of its condition (R12). -/
@[simp] theorem truth_toNat (b : Bool) : (truth b).toNat = b.toNat := by cases b <;> rfl

/-! ### The limbs of a value register -/

/-- Every value register has `N` limbs (R22). -/
theorem State.length_mag {s : State} (h : s.wf = true) (r : VReg) : (s.mag r).length = s.cfg.N :=
  ((magWf_iff s.cfg (s.mag r)).mp (State.magWf_mag h r)).1

/-- Every limb of a value register is below BASE (R22). -/
theorem State.limb_lt {s : State} (h : s.wf = true) {r : VReg} {l : Word} (hl : l ∈ s.mag r) : l.toNat < BASE :=
  ((magWf_iff s.cfg (s.mag r)).mp (State.magWf_mag h r)).2 l hl

/-- A limb index below `N` has a limb in every value register, and a read with a default answers it. -/
theorem State.mag_getElem? {s : State} (h : s.wf = true) (r : VReg) {j : Nat} (hj : j < s.cfg.N) :
    (s.mag r)[j]? = some ((s.mag r).getD j 0#64) := by
  have hlen : j < (s.mag r).length := by rwa [State.length_mag h r]
  rw [List.getElem?_eq_getElem hlen, List.getD_eq_getElem _ _ hlen]

/-! ### VGETL and VSETL by their checks -/

section
variable {s : State} {idx : Imm}

/-- VGETL within the register reads the limb (R84). -/
theorem exec_vgetl_of_lt (h : idx.toNat < s.cfg.N) (sd : SReg) (va : VReg) :
    exec (.vgetl sd va idx) s =
      runCommand (.vgetl sd va idx) s (.done (s.setS sd ((s.mag va).getD idx.toNat 0#64))) :=
  congrArg (runCommand _ s) (if_neg (Nat.not_le.mpr h))

/-- VGETL beyond the register (R84). -/
theorem exec_vgetl_of_ge (h : s.cfg.N ≤ idx.toNat) (sd : SReg) (va : VReg) :
    exec (.vgetl sd va idx) s = runCommand (.vgetl sd va idx) s (.fault .badIndex) :=
  congrArg (runCommand _ s) (if_pos h)

/-- VSETL beyond the register, whatever the word (R85, R239). -/
theorem exec_vsetl_of_ge (h : s.cfg.N ≤ idx.toNat) (vd : VReg) (sb : SReg) :
    exec (.vsetl vd idx sb) s = runCommand (.vsetl vd idx sb) s (.fault .badIndex) :=
  congrArg (runCommand _ s) (if_pos h)

/-- VSETL within the register tests the word next (R85, R239). -/
theorem exec_vsetl_of_lt (h : idx.toNat < s.cfg.N) (vd : VReg) (sb : SReg) :
    exec (.vsetl vd idx sb) s = runCommand (.vsetl vd idx sb) s
      (if BASE ≤ s.word sb then .fault .limbRange
       else .done (s.setV vd ⟨(s.getV vd).sign, (s.mag vd).set idx.toNat (s.getS sb)⟩)) :=
  congrArg (runCommand _ s) (if_neg (Nat.not_le.mpr h))

/-- VSETL of a limb within the register writes it (R85). -/
theorem exec_vsetl_of_limb (h : idx.toNat < s.cfg.N) (vd : VReg) {sb : SReg} (hlimb : s.word sb < BASE) :
    exec (.vsetl vd idx sb) s = runCommand (.vsetl vd idx sb) s
      (.done (s.setV vd ⟨(s.getV vd).sign, (s.mag vd).set idx.toNat (s.getS sb)⟩)) :=
  (exec_vsetl_of_lt h vd sb).trans (congrArg (runCommand _ s) (if_neg (Nat.not_le.mpr hlimb)))

/-- VSETL of a word that is no limb (R85). -/
theorem exec_vsetl_of_no_limb (h : idx.toNat < s.cfg.N) (vd : VReg) {sb : SReg} (hlimb : BASE ≤ s.word sb) :
    exec (.vsetl vd idx sb) s = runCommand (.vsetl vd idx sb) s (.fault .limbRange) :=
  (exec_vsetl_of_lt h vd sb).trans (congrArg (runCommand _ s) (if_pos hlimb))

end

/-! ### The words with NOP's opcode -/

/-- NOP uses no field but the opcode, so its own word alone has its opcode and zero in every unused field (R66, R81). -/
theorem eq_encode_nop_of_matchesFormat {w : CmdWord} (hop : (Fields.ofWord w).op = 0#8)
    (hmatch : matchesFormat w .f0 = true) : w = encode .nop := by
  have hused : (Fields.ofWord w).used .f0 = Fields.ofWord w :=
    Fields.used_of_unusedZero ((matchesFormat_iff w .f0).mp hmatch)
  have hnop : (Fields.ofWord w).used .f0 = Instr.nop.fields := by rw [Fields.used, hop]; rfl
  rw [encode, ← hnop, hused, Fields.toWord_ofWord]

/-- Every other word with NOP's opcode has a nonzero unused field (R66, R69, R81). -/
theorem decode_of_nop_opcode {w : CmdWord} (hop : (Fields.ofWord w).op = 0#8) (hw : w ≠ encode .nop) :
    decode w = .error .unusedFieldNotZero := by
  obtain ⟨i, hrow⟩ := opcodeRow_of_op (i := .nop) hop
  refine (decode_eq_unusedFieldNotZero_iff w).mpr ⟨.f0, i, hrow, eq_false_of_ne_true fun hmatch => ?_⟩
  exact hw (eq_encode_nop_of_matchesFormat hop hmatch)

/-! ### The obligations -/

/-- Settles O21: the index check decides, and within the register the limb invariant bounds the limb read. -/
theorem vgetlReadsOneLimb : Obligations.VgetlReadsOneLimb := by
  intro sd va idx s hwf hrun
  refine ⟨encodedAs_fields (.vgetl sd va idx), fun hidx => ?reads, fun hidx => ?badIndex⟩
  case reads =>
    obtain ⟨t, hexec, hframe, hread⟩ := exec_setS hrun rfl (exec_vgetl_of_lt hidx sd va)
    have hlimb : (s.mag va)[idx.toNat]? = some (t.getS sd) := by rw [hread, State.mag_getElem? hwf va hidx]
    exact ⟨t, hexec, hframe, hlimb, State.limb_lt hwf (List.mem_of_getElem? hlimb)⟩
  case badIndex => exact raisesFault_of hrun rfl (exec_vgetl_of_ge hidx sd va)

/-- Settles O22: the index check, then the limb check; past both, one limb of the magnitude is replaced. -/
theorem vsetlWritesOneLimb : Obligations.VsetlWritesOneLimb := by
  intro vd idx sb s hwf hrun
  refine ⟨encodedAs_fields (.vsetl vd idx sb), fun hidx hlimb => ?writes, fun hidx => ?badIndex,
    fun hidx hlimb => ?limbRange⟩
  case writes =>
    obtain ⟨t, hexec, hframe, hread⟩ := exec_setV hrun rfl (exec_vsetl_of_limb hidx vd hlimb)
    have hmag : t.mag vd = (s.mag vd).set idx.toNat (s.getS sb) := State.mag_of_getV hread
    have hlen : idx.toNat < (s.mag vd).length := by rwa [State.length_mag hwf vd]
    refine ⟨t, hexec, hframe, ?_, fun j hj => ?_, by rw [hread]⟩
    · rw [hmag, List.getElem?_set_self hlen]
    · rw [hmag, List.getElem?_set_ne hj.symm]
  case badIndex => exact raisesFault_of hrun rfl (exec_vsetl_of_ge hidx vd sb)
  case limbRange => exact raisesFault_of hrun rfl (exec_vsetl_of_no_limb hidx vd hlimb)

/-- Settles O19: NOP's completion is the state it started in; the 12-bit immediate keeps its number in 64 bits. -/
theorem nopAndSliComplete : Obligations.NopAndSliComplete := by
  intro sd imm s hrun
  refine ⟨encodedAs_fields .nop, encodedAs_fields (.sli sd imm), ?nop, fun w hop hw => ?words, ?sli⟩
  case nop => exact ⟨_, exec_done (s' := s) hrun rfl rfl, completedWriting_none s⟩
  case words => exact decode_of_nop_opcode hop hw
  case sli =>
    obtain ⟨t, hexec, hframe, hread⟩ := exec_setS (i := .sli sd imm) (w := imm.setWidth 64) hrun rfl rfl
    refine ⟨t, hexec, hframe, ?_⟩
    rw [State.word_of_getS hread, BitVec.toNat_setWidth_of_le (by decide)]

/-- Settles O20: each command writes one register with what it reads of `va`. -/
theorem vmovCopiesAndVgetsReadsTheFlag : Obligations.VmovCopiesAndVgetsReadsTheFlag := by
  intro vd va sd s hrun
  refine ⟨encodedAs_fields (.vmov vd va), encodedAs_fields (.vgets sd va), ?vmov, ?vgets⟩
  case vmov => exact exec_setV hrun rfl rfl
  case vgets =>
    obtain ⟨t, hexec, hframe, hread⟩ :=
      exec_setS (i := .vgets sd va) (w := truth (s.getV va).sign) hrun rfl rfl
    refine ⟨t, hexec, hframe, ?_⟩
    rw [State.word_of_getS hread, truth_toNat]

end Sys2Proof.Machine
end

section
/-! The limb primitives (41_limb_primitives.md): REBAL, SPLITH, MULW, DIGCNT, POW10, SHLW, SHRW and DIV2BY1 (R91 to
R100), and the datapaths of MULW (R94) and of DIV2BY1 (R101). -/

namespace Sys2Proof.Machine

open Sys2Proof

/-! ### Checks, and commands that write numbers to scalar registers -/

section
variable {i : Instr} {s : State} {p : Prop} [Decidable p] {cause : Cause} {c : Completion}

/-- A check that fails decides the completion (R90 (b)). -/
theorem exec_of_check (hp : p) (he : exec i s = runCommand i s (if p then .fault cause else c)) :
    exec i s = runCommand i s (.fault cause) :=
  he.trans (congrArg (runCommand i s) (if_pos hp))

/-- A check that passes leaves the completion to the rest of the command (R90 (b)). -/
theorem exec_of_not_check (hp : ¬ p) (he : exec i s = runCommand i s (if p then .fault cause else c)) :
    exec i s = runCommand i s c :=
  he.trans (congrArg (runCommand i s) (if_neg hp))

end

/-- A command that is done with a number in one scalar register: it completes, and the register holds the number. -/
theorem exec_putS {i : Instr} {s : State} {sd : SReg} {n : Nat} (h : s.running) (hi : i.wf = true) (hn : n < 2 ^ 64)
    (he : exec i s = runCommand i s (.done (s.putS sd n))) :
    ∃ t, exec i s = .next t ∧ completedWriting [] [sd] s t ∧ t.word sd = n := by
  obtain ⟨t, hexec, hframe, hread⟩ := exec_setS h hi he
  refine ⟨t, hexec, hframe, ?_⟩
  rw [State.word_of_getS hread, BitVec.toNat_ofNat, Nat.mod_eq_of_lt hn]

/-- A command that is done with two numbers in two different scalar registers: it completes, and each register holds its
number. -/
theorem exec_putS2 {i : Instr} {s : State} {sd sx : SReg} {r : Nat × Nat} (h : s.running) (hne : sd ≠ sx)
    (hi : i.wf = true) (hd : r.1 < 2 ^ 64) (hx : r.2 < 2 ^ 64)
    (he : exec i s = runCommand i s (.done (s.putS2 sd sx r))) :
    ∃ t, exec i s = .next t ∧ completedWriting [] [sd, sx] s t ∧ t.word sd = r.1 ∧ t.word sx = r.2 := by
  rw [State.putS2_eq] at he
  refine ⟨_, exec_done h hi he, completedWriting_setS_setS s sd sx _ _, ?_, ?_⟩
  · rw [State.word_setCC, State.word_setS_ne _ _ hne, State.word_setS_same s sd hd]
  · rw [State.word_setCC, State.word_setS_same _ sx hx]

/-! ### The results of the primitives -/

theorem lt_word_of_lt_BASE {n : Nat} (h : n < BASE) : n < 2 ^ 64 := h.trans BASE_lt_word

theorem mod_BASE_lt_word (n : Nat) : n % BASE < 2 ^ 64 := lt_word_of_lt_BASE (Nat.mod_lt n BASE_pos)

theorem HB_pos : 0 < HB := by decide

/-- The high half of a limb has nine digits (R92). -/
theorem div_HB_lt {w : Nat} (h : w < BASE) : w / HB < HB := Nat.div_lt_of_lt_mul (h.trans_eq HB_sq.symm)

/-- The low half of a limb has nine digits (R92). -/
theorem mod_HB_lt (w : Nat) : w % HB < HB := Nat.mod_lt w HB_pos

/-- The overflow of a product of limbs is at most `BASE − 2` (R93). -/
theorem mul_div_BASE_lt {a b : Nat} (ha : a < BASE) (hb : b < BASE) : a * b / BASE < BASE - 1 := by
  refine Nat.div_lt_of_lt_mul ?_
  calc a * b ≤ (BASE - 1) * b := Nat.mul_le_mul_right b (Nat.le_sub_one_of_lt ha)
    _ < (BASE - 1) * BASE := Nat.mul_lt_mul_of_pos_left hb (by decide)
    _ = BASE * (BASE - 1) := Nat.mul_comm _ _

/-- The digit count of a nonzero word: 1 to 20 digits, between two powers of ten (R95). -/
theorem leastDigits_of_word {w : Nat} (h : w ≠ 0) (hw : w < 2 ^ 64) :
    1 ≤ leastDigits 19 1 w ∧ leastDigits 19 1 w ≤ 20 ∧ w < 10 ^ leastDigits 19 1 w ∧
      10 ^ (leastDigits 19 1 w - 1) ≤ w := by
  obtain ⟨hone, htwenty, hlt, hle⟩ :=
    leastDigits_spec 19 1 w (hw.trans (by decide)) (fun h => .inr (Nat.one_le_iff_ne_zero.mpr h))
  exact ⟨hone, htwenty, hlt, (hle h).resolve_left (Nat.one_le_iff_ne_zero.mp hone)⟩

/-- A nonzero limb has at most 18 digits (R95). -/
theorem leastDigits_le_LD {w : Nat} (h : w ≠ 0) (hw : w < BASE) : leastDigits 19 1 w ≤ LD := by
  obtain ⟨-, -, -, hle⟩ := leastDigits_of_word h (lt_word_of_lt_BASE hw)
  have hlt : leastDigits 19 1 w - 1 < LD :=
    (Nat.pow_lt_pow_iff_right (by decide)).mp ((hle.trans_lt hw).trans_eq BASE_eq)
  exact Nat.le_of_pred_lt hlt

/-- `BASE` split at digit `k` (R98). -/
theorem BASE_split {k : Nat} (hk : k ≤ LD) : 10 ^ (LD - k) * 10 ^ k = BASE :=
  (Nat.pow_sub_mul_pow 10 hk).trans BASE_eq.symm

/-- The shift to the left is the product by `10^k`, cut at the limb (R98). -/
theorem shiftLeftInLimb_eq (w : Nat) {k : Nat} (hk : k ≤ LD) :
    shiftLeftInLimb w k = (w * 10 ^ k % BASE, w * 10 ^ k / BASE) := by
  rw [shiftLeftInLimb, ← BASE_split hk, Nat.mul_mod_mul_right, Nat.mul_div_mul_right _ _ (Nat.pow_pos (by decide))]

/-- The `k` digits that leave a limb at the top (R98). -/
theorem shiftLeftInLimb_overflow_lt {w k : Nat} (hw : w < BASE) (hk : k ≤ LD) : (shiftLeftInLimb w k).2 < 10 ^ k :=
  Nat.div_lt_of_lt_mul (hw.trans_eq (BASE_split hk).symm)

/-- The digits that stay when `k` of them leave a limb at the bottom (R99). -/
theorem shiftRightInLimb_kept_lt {w k : Nat} (hw : w < BASE) (hk : k ≤ LD) :
    (shiftRightInLimb w k).1 < 10 ^ (LD - k) :=
  Nat.div_lt_of_lt_mul (hw.trans_eq ((BASE_split hk).symm.trans (Nat.mul_comm _ _)))

theorem ten_pow_le_BASE {k : Nat} (hk : k ≤ LD) : 10 ^ k ≤ BASE :=
  (Nat.pow_le_pow_right (by decide) hk).trans_eq BASE_eq.symm

/-- The quotient of a 2-limb value by a larger limb than its high one is a limb (R100). -/
theorem divTwoByOne_quotient_lt {hi lo d : Nat} (hlo : lo < BASE) (hhi : hi < d) : (divTwoByOne hi lo d).1 < BASE := by
  refine Nat.div_lt_of_lt_mul ?_
  calc hi * BASE + lo < hi * BASE + BASE := Nat.add_lt_add_left hlo _
    _ = (hi + 1) * BASE := (Nat.succ_mul hi BASE).symm
    _ ≤ d * BASE := Nat.mul_le_mul_right BASE hhi

/-! ### The commands -/

/-- Settles O23: the check is on the high word; the identity is that of the quotient and remainder by BASE. -/
theorem rebalRestoresTheLimb : Obligations.RebalRestoresTheLimb := by
  intro sd sx sa sb s hrun hne
  have hwf : (Instr.rebal sd sx sa sb).wf = true := bne_iff_ne.mpr hne
  refine ⟨encodedAs_fields (.rebal sd sx sa sb), fun hfits => ?writes, fun hover => ?wordOverflow⟩
  case writes =>
    obtain ⟨t, hexec, hframe, hd, hx⟩ := exec_putS2 hrun hne hwf (mod_BASE_lt_word _) hfits
      (exec_of_not_check (Nat.not_le.mpr hfits) rfl)
    refine ⟨t, hexec, hframe, hd, hx, ?_⟩
    calc s.word sa + s.word sb * BASE
        = s.word sa % BASE + BASE * (s.word sa / BASE) + s.word sb * BASE := by rw [Nat.mod_add_div]
      _ = s.word sa % BASE + (s.word sb + s.word sa / BASE) * BASE := by ring
      _ = t.word sd + t.word sx * BASE := by rw [hd, hx]; rfl
  case wordOverflow => exact raisesFault_of hrun hwf (exec_of_check hover rfl)

/-- Settles O24: a limb is below `HB²`, so both halves are below HB. -/
theorem splithSplitsALimb : Obligations.SplithSplitsALimb := by
  intro sd sx sa s hrun hne
  have hwf : (Instr.splith sd sx sa).wf = true := bne_iff_ne.mpr hne
  refine ⟨encodedAs_fields (.splith sd sx sa), fun hlimb => ?writes, fun hlimb => ?limbRange⟩
  case writes =>
    have hhigh := div_HB_lt hlimb
    have hlow := mod_HB_lt (s.word sa)
    obtain ⟨t, hexec, hframe, hd, hx⟩ := exec_putS2 hrun hne hwf (hhigh.trans (by decide)) (hlow.trans (by decide))
      (exec_of_not_check (Nat.not_le.mpr hlimb) rfl)
    refine ⟨t, hexec, hframe, hd, hx, ?_, hd.trans_lt hhigh, hx.trans_lt hlow⟩
    rw [hd, hx]
    exact (Nat.div_add_mod' (s.word sa) HB).symm
  case limbRange => exact raisesFault_of hrun hwf (exec_of_check hlimb rfl)

/-- Settles O25: the pair is the quotient and remainder of the product by BASE. -/
theorem mulwGivesTheFullProduct : Obligations.MulwGivesTheFullProduct := by
  intro sd sx sa sb s hrun hne
  have hwf : (Instr.mulw sd sx sa sb).wf = true := bne_iff_ne.mpr hne
  refine ⟨encodedAs_fields (.mulw sd sx sa sb), fun ha hb => ?writes, fun hlimb => ?limbRange⟩
  case writes =>
    have hover := mul_div_BASE_lt ha hb
    obtain ⟨t, hexec, hframe, hd, hx⟩ := exec_putS2 hrun hne hwf (mod_BASE_lt_word _)
      (hover.trans (by decide))
      (exec_of_not_check (not_or.mpr ⟨Nat.not_le.mpr ha, Nat.not_le.mpr hb⟩) rfl)
    refine ⟨t, hexec, hframe, hd, hx, ?_, hx.trans_le (Nat.le_sub_one_of_lt hover)⟩
    rw [hd, hx]
    exact (Nat.div_add_mod' (s.word sa * s.word sb) BASE).symm
  case limbRange => exact raisesFault_of hrun hwf (exec_of_check hlimb rfl)

/-- Settles O26: the search for the digit count of a nonzero word ends at the least number of digits. -/
theorem digcntCountsDecimalDigits : Obligations.DigcntCountsDecimalDigits := by
  intro sd sa s hrun
  refine ⟨encodedAs_fields (.digcnt sd sa), fun hzero => ?zero, fun hnonzero => ?nonzero⟩
  case zero =>
    have hcount : digitCount s.cfg (s.word sa) = s.cfg.DC0 := if_pos hzero
    have hbound : s.cfg.DC0 < 2 ^ 64 := (Config.DC0_le_one s.cfg).trans_lt (by decide)
    exact exec_putS hrun rfl hbound (by rw [← hcount]; rfl)
  case nonzero =>
    have hcount : digitCount s.cfg (s.word sa) = leastDigits 19 1 (s.word sa) := if_neg hnonzero
    obtain ⟨hone, htwenty, hlt, hle⟩ := leastDigits_of_word hnonzero (State.word_lt s sa)
    obtain ⟨t, hexec, hframe, hd⟩ := exec_putS (i := .digcnt sd sa) (sd := sd) hrun rfl
      (htwenty.trans_lt (by decide)) (by rw [← hcount]; rfl)
    rw [← hd] at hone htwenty hlt hle
    exact ⟨t, hexec, hframe, hone, htwenty, hlt, hle⟩

/-- Settles O27: every entry of the table is at most BASE. -/
theorem pow10ReadsTheTable : Obligations.Pow10ReadsTheTable := by
  intro sd sa s hrun
  refine ⟨encodedAs_fields (.pow10 sd sa), fun hk => ?reads, fun hk => ?badShiftArg⟩
  case reads =>
    exact exec_putS hrun rfl ((ten_pow_le_BASE hk).trans_lt BASE_lt_word) (exec_of_not_check (Nat.not_lt.mpr hk) rfl)
  case badShiftArg => exact raisesFault_of hrun rfl (exec_of_check hk rfl)

/-- Settles O28: `BASE = 10^(18−k)·10^k`, so cutting `w·10^k` at the limb is cutting `w` at its digit `18 − k`. -/
theorem shlwAndShrwShiftWithinALimb : Obligations.ShlwAndShrwShiftWithinALimb := by
  intro sd sx sa sb s hrun hne
  have hshlw : (Instr.shlw sd sx sa sb).wf = true := bne_iff_ne.mpr hne
  have hshrw : (Instr.shrw sd sx sa sb).wf = true := bne_iff_ne.mpr hne
  refine ⟨encodedAs_fields (.shlw sd sx sa sb), encodedAs_fields (.shrw sd sx sa sb),
    fun hw hk => ⟨?left, ?right⟩, fun hw => ?limbRange, fun hw hk => ?badShiftArg⟩
  case left =>
    have hover := shiftLeftInLimb_overflow_lt hw hk
    have hkept : (shiftLeftInLimb (s.word sa) (s.word sb)).1 < 2 ^ 64 := by
      rw [shiftLeftInLimb_eq _ hk]; exact mod_BASE_lt_word _
    obtain ⟨t, hexec, hframe, hd, hx⟩ := exec_putS2 hrun hne hshlw hkept
      (hover.trans ((ten_pow_le_BASE hk).trans_lt BASE_lt_word))
      (exec_of_not_check (Nat.not_lt.mpr hk) (exec_of_not_check (Nat.not_le.mpr hw) rfl))
    have hproduct := shiftLeftInLimb_eq (s.word sa) hk
    exact ⟨t, hexec, hframe, hd.trans (congrArg Prod.fst hproduct), hx.trans (congrArg Prod.snd hproduct), hd, hx,
      hx.trans_lt hover⟩
  case right =>
    have hkept := shiftRightInLimb_kept_lt hw hk
    have hlost : s.word sa % 10 ^ s.word sb < 10 ^ s.word sb := Nat.mod_lt _ (Nat.pow_pos (by decide))
    obtain ⟨t, hexec, hframe, hd, hx⟩ := exec_putS2 hrun hne hshrw
      (hkept.trans ((ten_pow_le_BASE (Nat.sub_le _ _)).trans_lt BASE_lt_word))
      (hlost.trans ((ten_pow_le_BASE hk).trans_lt BASE_lt_word))
      (exec_of_not_check (Nat.not_lt.mpr hk) (exec_of_not_check (Nat.not_le.mpr hw) rfl))
    refine ⟨t, hexec, hframe, hd, hx, ?_, hd.trans_lt hkept, hx.trans_lt hlost⟩
    rw [hd, hx]
    exact (Nat.div_add_mod' (s.word sa) (10 ^ s.word sb)).symm
  case limbRange =>
    exact ⟨raisesFault_of hrun hshlw (exec_of_check hw rfl), raisesFault_of hrun hshrw (exec_of_check hw rfl)⟩
  case badShiftArg =>
    exact ⟨raisesFault_of hrun hshlw (exec_of_check hk (exec_of_not_check (Nat.not_le.mpr hw) rfl)),
      raisesFault_of hrun hshrw (exec_of_check hk (exec_of_not_check (Nat.not_le.mpr hw) rfl))⟩

/-- Settles O29: the three checks in the rule's order; past them the pair is the quotient and remainder by the
divisor. -/
theorem div2by1DividesTwoLimbsByOne : Obligations.Div2by1DividesTwoLimbsByOne := by
  intro sd sx sa sb sc s hrun hne
  have hwf : (Instr.div2by1 sd sx sa sb sc).wf = true := bne_iff_ne.mpr hne
  have hlimbs : s.word sb < BASE → s.word sc < BASE → ¬ (BASE ≤ s.word sb ∨ BASE ≤ s.word sc) :=
    fun hlo hd => not_or.mpr ⟨Nat.not_le.mpr hlo, Nat.not_le.mpr hd⟩
  refine ⟨encodedAs_fields (.div2by1 sd sx sa sb sc), fun hlo hd hhi => ?writes, fun hlimb => ?limbRange,
    fun hlo hd hhi => ?divisionByZero⟩
  case writes =>
    have hpos : 0 < s.word sc := Nat.zero_lt_of_lt hhi
    have hquotient := divTwoByOne_quotient_lt hlo hhi
    have hremainder : (divTwoByOne (s.word sa) (s.word sb) (s.word sc)).2 < s.word sc := Nat.mod_lt _ hpos
    obtain ⟨t, hexec, hframe, hq, hr⟩ := exec_putS2 hrun hne hwf (lt_word_of_lt_BASE hquotient)
      (lt_word_of_lt_BASE (hremainder.trans hd))
      (exec_of_not_check (Nat.not_le.mpr hhi) (exec_of_not_check hpos.ne' (exec_of_not_check (hlimbs hlo hd) rfl)))
    refine ⟨t, hexec, hframe, ?_, hr.trans_lt hremainder, hq.trans_lt hquotient⟩
    rw [hq, hr]
    exact (Nat.div_add_mod' (s.word sa * BASE + s.word sb) (s.word sc)).symm
  case limbRange => exact raisesFault_of hrun hwf (exec_of_check hlimb rfl)
  case divisionByZero =>
    refine raisesFault_of hrun hwf ?_
    by_cases hzero : s.word sc = 0
    · exact exec_of_check hzero (exec_of_not_check (hlimbs hlo hd) rfl)
    · exact exec_of_check hhi (exec_of_not_check hzero (exec_of_not_check (hlimbs hlo hd) rfl))

/-! ### The half-product datapath of MULW -/

/-- The product of two halves is below BASE (R94). -/
theorem mul_lt_BASE_of_lt_HB {x y : Nat} (hx : x < HB) (hy : y < HB) : x * y < BASE :=
  (Nat.mul_lt_mul'' hx hy).trans_eq HB_sq

/-- The half-products are the product of the limbs (R94). -/
theorem mul_eq_halfProducts (a b : Nat) :
    a * b = BASE * ((halfProducts a b).phh + (halfProducts a b).mh) + (halfProducts a b).low0 := by
  have ha : a = a / HB * HB + a % HB := (Nat.div_add_mod' a HB).symm
  have hb : b = b / HB * HB + b % HB := (Nat.div_add_mod' b HB).symm
  have hmid : (halfProducts a b).mid = (halfProducts a b).mh * HB + (halfProducts a b).ml :=
    (Nat.div_add_mod' _ HB).symm
  calc a * b = (a / HB * HB + a % HB) * (b / HB * HB + b % HB) := by rw [← ha, ← hb]
    _ = HB * HB * (a / HB * (b / HB)) + (a / HB * (b % HB) + a % HB * (b / HB)) * HB + a % HB * (b % HB) := by ring
    _ = HB * HB * (halfProducts a b).phh + (halfProducts a b).mid * HB + (halfProducts a b).pll := rfl
    _ = HB * HB * ((halfProducts a b).phh + (halfProducts a b).mh) +
          ((halfProducts a b).pll + (halfProducts a b).ml * HB) := by rw [hmid]; ring
    _ = BASE * ((halfProducts a b).phh + (halfProducts a b).mh) + (halfProducts a b).low0 := by rw [HB_sq]; rfl

/-- The datapath of R94 gives the pair of R93, whatever the operands. -/
theorem multiplyWordDatapath_eq (a b : Nat) : multiplyWordDatapath a b = multiplyWord a b := by
  rw [multiplyWord, mul_eq_halfProducts, Nat.mul_add_mod, Nat.mul_add_div BASE_pos, multiplyWordDatapath]
  simp [rebalance]

/-- Settles O53: the datapath gives the pair, and each half is below HB. -/
theorem halfProductDatapathMultiplies : Obligations.HalfProductDatapathMultiplies := by
  intro a b ha hb
  have hah := div_HB_lt ha
  have hbh := div_HB_lt hb
  have hal := mod_HB_lt a
  have hbl := mod_HB_lt b
  have hphl : (halfProducts a b).phl < BASE := mul_lt_BASE_of_lt_HB hah hbl
  have hplh : (halfProducts a b).plh < BASE := mul_lt_BASE_of_lt_HB hal hbh
  have hpll : (halfProducts a b).pll < BASE := mul_lt_BASE_of_lt_HB hal hbl
  have hmid : (halfProducts a b).mid < 2 * BASE := by
    calc (halfProducts a b).phl + (halfProducts a b).plh < BASE + BASE := Nat.add_lt_add hphl hplh
      _ = 2 * BASE := (Nat.two_mul BASE).symm
  have hmh : (halfProducts a b).mh < 2 * HB :=
    Nat.div_lt_of_lt_mul (hmid.trans_eq (by decide))
  have hml : (halfProducts a b).ml < HB := mod_HB_lt _
  have hlow0 : (halfProducts a b).low0 < 2 * BASE := by
    calc (halfProducts a b).pll + (halfProducts a b).ml * HB < BASE + HB * HB :=
          Nat.add_lt_add hpll (Nat.mul_lt_mul_of_pos_right hml HB_pos)
      _ = 2 * BASE := by decide
  exact ⟨multiplyWordDatapath_eq a b, mul_lt_BASE_of_lt_HB hah hbh, hphl, hplh, hpll, hmid, hmh, hml, hlow0,
    by decide⟩

/-! ### The estimate-and-correct datapath of DIV2BY1 -/

section
variable {dh dl h l : Nat}

/-- A half-step's numerator is below `HB` divisors (R101). -/
theorem half_step_lt {dn : Nat} (hh : h < dn) (hl : l < HB) : h * HB + l < dn * HB := by
  calc h * HB + l < h * HB + HB := Nat.add_lt_add_left hl _
    _ = (h + 1) * HB := (Nat.succ_mul h HB).symm
    _ ≤ dn * HB := Nat.mul_le_mul_right HB hh

/-- The loop test of R101 is exact: it holds when the trial exceeds the half-quotient. -/
theorem correctHalf_test_iff {q rh : Nat} (hl : l < HB) (hh : h < dh * HB + dl)
    (hrh : q * dh + rh = h) :
    (HB ≤ q ∨ rh * HB + l < q * dl) ↔ (h * HB + l) / (dh * HB + dl) < q := by
  have hpos : 0 < dh * HB + dl := Nat.zero_lt_of_lt hh
  have hsmall : (h * HB + l) / (dh * HB + dl) < HB := Nat.div_lt_of_lt_mul (half_step_lt hh hl)
  have hexact : rh * HB + l < q * dl ↔ (h * HB + l) / (dh * HB + dl) < q := by
    rw [Nat.div_lt_iff_lt_mul hpos, ← hrh]
    have hnum : (q * dh + rh) * HB + l = q * dh * HB + (rh * HB + l) := by ring
    have hden : q * (dh * HB + dl) = q * dh * HB + q * dl := by ring
    rw [hnum, hden, Nat.add_lt_add_iff_left]
  rw [hexact, or_iff_right_of_imp hsmall.trans_le]

/-- Once the partial remainder reaches HB the trial no longer exceeds the half-quotient (R101). -/
theorem le_half_quotient {q rh : Nat} (hdl : dl < HB) (hh : h < dh * HB + dl) (hrh : q * dh + rh = h)
    (hexit : HB ≤ rh) : q ≤ (h * HB + l) / (dh * HB + dl) := by
  have hq : q < HB := by
    by_contra hge
    have hmul : HB * dh ≤ q * dh := Nat.mul_le_mul_right dh (Nat.not_lt.mp hge)
    rw [Nat.mul_comm dh HB] at hh
    omega
  rw [Nat.le_div_iff_mul_le (Nat.zero_lt_of_lt hh)]
  calc q * (dh * HB + dl) = q * dh * HB + q * dl := by ring
    _ ≤ q * dh * HB + HB * HB := Nat.add_le_add_left (Nat.mul_le_mul hq.le hdl.le) _
    _ ≤ q * dh * HB + rh * HB := Nat.add_le_add_left (Nat.mul_le_mul_right HB hexit) _
    _ = h * HB := by rw [← hrh]; ring
    _ ≤ h * HB + l := Nat.le_add_right _ _

/-- The correction loop ends at the half-quotient when it starts at most `fuel` above it (R101). -/
theorem correctHalf_eq (hdl : dl < HB) (hl : l < HB) (hh : h < dh * HB + dl) :
    ∀ fuel q rh : Nat, q * dh + rh = h → (h * HB + l) / (dh * HB + dl) ≤ q →
      q ≤ (h * HB + l) / (dh * HB + dl) + fuel →
      correctHalf dh dl l fuel q rh = (h * HB + l) / (dh * HB + dl) := by
  have hexact := fun q rh => correctHalf_test_iff (q := q) (rh := rh) hl hh
  have hleave := fun q rh => le_half_quotient (q := q) (rh := rh) (l := l) hdl hh
  generalize (h * HB + l) / (dh * HB + dl) = quotient at hexact hleave ⊢
  intro fuel
  induction fuel with
  | zero =>
    intro q rh _ hle hge
    rw [Nat.add_zero] at hge
    exact Nat.le_antisymm hge hle
  | succ fuel ih =>
    intro q rh hrh hle hge
    rw [correctHalf]
    by_cases htest : quotient < q
    · have hpred : quotient ≤ q - 1 := Nat.le_sub_one_of_lt htest
      have hnext : (q - 1) * dh + (rh + dh) = h := by
        rw [← hrh, Nat.add_comm rh, ← Nat.add_assoc, ← Nat.add_one_mul,
          Nat.sub_add_cancel (Nat.zero_lt_of_lt htest)]
      rw [if_pos ((hexact q rh hrh).mpr htest)]
      by_cases hexit : HB ≤ rh + dh
      · rw [if_pos hexit]
        exact Nat.le_antisymm (hleave _ _ hnext hexit) hpred
      · rw [if_neg hexit]
        exact ih (q - 1) (rh + dh) hnext hpred (Nat.sub_le_of_le_add hge)
    · rw [if_neg (mt (hexact q rh hrh).mp htest)]
      exact Nat.le_antisymm (Nat.not_lt.mp htest) hle

/-- The trial is the half-quotient or more, as it leaves out the low half of the divisor (R101). -/
theorem half_quotient_le_trial (hl : l < HB) (hdh : 0 < dh) : (h * HB + l) / (dh * HB + dl) ≤ h / dh := by
  calc (h * HB + l) / (dh * HB + dl) ≤ (h * HB + l) / (dh * HB) :=
        Nat.div_le_div_left (Nat.le_add_right _ _) (Nat.mul_pos hdh HB_pos)
    _ = (h * HB + l) / HB / dh := by rw [Nat.mul_comm dh HB, Nat.div_div_eq_div_mul]
    _ = h / dh := by rw [Nat.mul_comm h HB, Nat.mul_add_div HB_pos, Nat.div_eq_of_lt hl, Nat.add_zero]

/-- The trial exceeds the half-quotient by at most 10 when the low half of the divisor is at most 10 times its high
half (R101). -/
theorem trial_le_half_quotient_add (hdl : dl ≤ 10 * dh) (hh : h < dh * HB + dl) :
    h / dh ≤ (h * HB + l) / (dh * HB + dl) + 10 := by
  have hpos : 0 < dh * HB + dl := Nat.zero_lt_of_lt hh
  have htrial : h / dh * dh ≤ h := Nat.div_mul_le_self h dh
  have hexcess : h / dh * dl ≤ 10 * (dh * HB + dl) := by
    calc h / dh * dl ≤ h / dh * (10 * dh) := Nat.mul_le_mul_left _ hdl
      _ = 10 * (h / dh * dh) := by ring
      _ ≤ 10 * (dh * HB + dl) := Nat.mul_le_mul_left 10 (htrial.trans hh.le)
  rw [← Nat.add_mul_div_right _ 10 hpos, Nat.le_div_iff_mul_le hpos]
  calc h / dh * (dh * HB + dl) = h / dh * dh * HB + h / dh * dl := by ring
    _ ≤ h * HB + 10 * (dh * HB + dl) := Nat.add_le_add (Nat.mul_le_mul_right HB htrial) hexcess
    _ ≤ h * HB + l + 10 * (dh * HB + dl) := Nat.add_le_add_right (Nat.le_add_right _ _) _

end

/-- One half of the quotient by a normalised divisor is exact, and so is the partial remainder (R101). -/
theorem divideHalf_eq {dn h l : Nat} (hdn : 10 ^ 17 ≤ dn) (hh : h < dn) (hl : l < HB) :
    divideHalf dn h l = ((h * HB + l) / dn, (h * HB + l) % dn) := by
  have hsplit : dn / HB * HB + dn % HB = dn := Nat.div_add_mod' dn HB
  have hdl : dn % HB < HB := mod_HB_lt dn
  have hdh : 10 ^ 8 ≤ dn / HB := (Nat.le_div_iff_mul_le HB_pos).mpr hdn
  have hratio : dn % HB ≤ 10 * (dn / HB) :=
    calc dn % HB ≤ HB := hdl.le
      _ = 10 * 10 ^ 8 := by decide
      _ ≤ 10 * (dn / HB) := Nat.mul_le_mul_left 10 hdh
  have hh' : h < dn / HB * HB + dn % HB := hh.trans_eq hsplit.symm
  have htrial : h / (dn / HB) * (dn / HB) + (h - h / (dn / HB) * (dn / HB)) = h :=
    Nat.add_sub_of_le (Nat.div_mul_le_self _ _)
  have hquotient : correctHalf (dn / HB) (dn % HB) l 11 (h / (dn / HB)) (h - h / (dn / HB) * (dn / HB)) =
      (h * HB + l) / dn := by
    rw [correctHalf_eq hdl hl hh' 11 _ _ htrial (half_quotient_le_trial hl (Nat.zero_lt_of_lt hdh))
      ((trial_le_half_quotient_add hratio hh').trans (Nat.le_succ _)), hsplit]
  have hremainder : h * HB + l - (h * HB + l) / dn * dn = (h * HB + l) % dn := by
    rw [Nat.mod_eq_sub_div_mul]
  rw [divideHalf, splitHalf, hquotient, hremainder]

/-- Long division in two half steps: the remainder of the first is the high part of the second (R101). -/
theorem divTwoByOne_by_halves (h l : Nat) {dn : Nat} (hdn : 0 < dn) :
    divTwoByOne h l dn =
      ((h * HB + l / HB) / dn * HB + ((h * HB + l / HB) % dn * HB + l % HB) / dn,
        ((h * HB + l / HB) % dn * HB + l % HB) % dn) := by
  have hvalue : h * BASE + l = dn * ((h * HB + l / HB) / dn * HB) + ((h * HB + l / HB) % dn * HB + l % HB) := by
    calc h * BASE + l = (h * HB + l / HB) * HB + l % HB := by
          rw [← HB_sq, Nat.add_mul, Nat.mul_assoc, Nat.add_assoc, Nat.div_add_mod']
      _ = (dn * ((h * HB + l / HB) / dn) + (h * HB + l / HB) % dn) * HB + l % HB := by rw [Nat.div_add_mod]
      _ = _ := by ring
  rw [divTwoByOne, hvalue, Nat.mul_add_div hdn, Nat.mul_add_mod]

/-- Normalising the divisor and the 2-limb value keeps the quotient and scales the remainder (R101). -/
theorem divTwoByOne_normalised {hi lo d hn ln m : Nat} (hm : 0 < m) (h : hn * BASE + ln = (hi * BASE + lo) * m) :
    divTwoByOne hn ln (d * m) = ((divTwoByOne hi lo d).1, (divTwoByOne hi lo d).2 * m) := by
  rw [divTwoByOne, h, Nat.mul_div_mul_right _ _ hm, Nat.mul_mod_mul_right, divTwoByOne]

/-- The decimal shift to the full digit width makes the divisor at least `10^17` (R101). -/
theorem normalised_divisor_ge {d : Nat} (hpos : d ≠ 0) (hd : d < BASE) :
    10 ^ 17 ≤ d * 10 ^ (LD - leastDigits 19 1 d) := by
  obtain ⟨hone, -, -, hle⟩ := leastDigits_of_word hpos (lt_word_of_lt_BASE hd)
  have hdigits := leastDigits_le_LD hpos hd
  calc 10 ^ 17 = 10 ^ (leastDigits 19 1 d - 1) * 10 ^ (LD - leastDigits 19 1 d) := by
        rw [← Nat.pow_add, ← Nat.sub_add_comm hone, Nat.add_sub_cancel' hdigits]; rfl
    _ ≤ d * 10 ^ (LD - leastDigits 19 1 d) := Nat.mul_le_mul_right _ hle

section
variable {hi lo d k : Nat}

/-- The shifted high part stays below the shifted divisor (R101). -/
theorem normalised_high_lt (hlo : lo < BASE) (hhi : hi < d) (hk : k ≤ LD) :
    hi * 10 ^ k + (shiftLeftInLimb lo k).2 < d * 10 ^ k := by
  calc hi * 10 ^ k + (shiftLeftInLimb lo k).2 < hi * 10 ^ k + 10 ^ k :=
        Nat.add_lt_add_left (shiftLeftInLimb_overflow_lt hlo hk) _
    _ = (hi + 1) * 10 ^ k := (Nat.succ_mul hi (10 ^ k)).symm
    _ ≤ d * 10 ^ k := Nat.mul_le_mul_right _ hhi

/-- The shifted 2-limb value is the value times the power of ten (R101). -/
theorem normalised_value (hi lo : Nat) (hk : k ≤ LD) :
    (hi * 10 ^ k + (shiftLeftInLimb lo k).2) * BASE + (shiftLeftInLimb lo k).1 = (hi * BASE + lo) * 10 ^ k := by
  rw [shiftLeftInLimb_eq lo hk]
  calc (hi * 10 ^ k + lo * 10 ^ k / BASE) * BASE + lo * 10 ^ k % BASE
      = hi * 10 ^ k * BASE + (lo * 10 ^ k / BASE * BASE + lo * 10 ^ k % BASE) := by ring
    _ = hi * 10 ^ k * BASE + lo * 10 ^ k := by rw [Nat.div_add_mod']
    _ = (hi * BASE + lo) * 10 ^ k := by ring

end

/-- The two half steps of R101 divide by a normalised divisor. -/
theorem divideHalf_divideHalf {dn h l : Nat} (hdn : 10 ^ 17 ≤ dn) (hh : h < dn) (hl : l < BASE) :
    ((divideHalf dn h (l / HB)).1 * HB + (divideHalf dn (divideHalf dn h (l / HB)).2 (l % HB)).1,
      (divideHalf dn (divideHalf dn h (l / HB)).2 (l % HB)).2) = divTwoByOne h l dn := by
  have hpos : 0 < dn := Nat.zero_lt_of_lt hdn
  rw [divideHalf_eq hdn hh (div_HB_lt hl), divideHalf_eq hdn (Nat.mod_lt _ hpos) (mod_HB_lt l),
    divTwoByOne_by_halves h l hpos]

/-- Settles O54: the two half steps divide the normalised value by the normalised divisor, and the normalisation keeps
the quotient and scales the remainder. -/
theorem estimateAndCorrectDatapathDivides : Obligations.EstimateAndCorrectDatapathDivides := by
  intro hi lo d hlo hd hhi
  have hpos : d ≠ 0 := Nat.ne_zero_of_lt hhi
  have hk : LD - leastDigits 19 1 d ≤ LD := Nat.sub_le _ _
  generalize hshift : LD - leastDigits 19 1 d = k at hk
  have hdn : 10 ^ 17 ≤ d * 10 ^ k := hshift ▸ normalised_divisor_ge hpos hd
  have hln : (shiftLeftInLimb lo k).1 < BASE := by
    rw [shiftLeftInLimb_eq lo hk]; exact Nat.mod_lt _ BASE_pos
  have hscale : 0 < 10 ^ k := Nat.pow_pos (by decide)
  have hhalves := divideHalf_divideHalf hdn (normalised_high_lt hlo hhi hk) hln
  rw [divTwoByOne_normalised hscale (normalised_value hi lo hk)] at hhalves
  obtain ⟨hquotient, hremainder⟩ := Prod.ext_iff.mp hhalves
  rw [divTwoByOneDatapath, hshift]
  refine Prod.ext hquotient ?_
  calc _ = (divTwoByOne hi lo d).2 * 10 ^ k / 10 ^ k := congrArg (· / 10 ^ k) hremainder
    _ = (divTwoByOne hi lo d).2 := Nat.mul_div_cancel _ hscale

end Sys2Proof.Machine
end

section
/-! The Natural codec and comparisons (42_natural_codec_compare.md): the sign flags (R110), NPARSE (R111), NFORMAT
(R112), and the comparisons NEQ, NGT, NLT, NGE and NLE (R113 to R118). -/

namespace Sys2Proof.Machine

open Sys2Proof

/-! ### States that differ in sign flags alone

They agree in all that a Natural command reads, the build, the magnitudes, the scalars and the text (R110 (a)), and the
same update of both leaves them so. -/

namespace sameButSignFlags

section
variable {s s' : State}

theorem cfg_eq (h : sameButSignFlags s s') : s'.cfg = s.cfg := by
  obtain ⟨-, -, hcfg, -⟩ := h
  exact hcfg

theorem mag_eq (h : sameButSignFlags s s') : s'.mag = s.mag := by
  obtain ⟨hmag, -⟩ := h
  exact funext hmag

theorem magVal_eq (h : sameButSignFlags s s') : s'.magVal = s.magVal :=
  funext fun r => congrArg val (congrFun h.mag_eq r)

theorem word_eq (h : sameButSignFlags s s') : s'.word = s.word := by
  obtain ⟨-, hs, -⟩ := h
  exact funext fun r => congrArg (fun file => (RegFile.get file r).toNat) hs

theorem text_eq (h : sameButSignFlags s s') : s'.text = s.text := by
  obtain ⟨-, -, -, htext, -⟩ := h
  exact htext

theorem status_eq (h : sameButSignFlags s s') : s'.status = s.status := by
  obtain ⟨-, -, -, -, hstatus, -⟩ := h
  exact hstatus

theorem setS (h : sameButSignFlags s s') (i : SReg) (w : Word) : sameButSignFlags (s.setS i w) (s'.setS i w) := by
  obtain ⟨hmag, hs, hrest⟩ := h
  exact ⟨hmag, congrArg (RegFile.set · i w) hs, hrest⟩

theorem setV (h : sameButSignFlags s s') (i : VReg) (x : Value) : sameButSignFlags (s.setV i x) (s'.setV i x) := by
  obtain ⟨hmag, hrest⟩ := h
  refine ⟨fun r => ?_, hrest⟩
  by_cases hr : r = i
  · rw [State.mag, State.mag, hr, State.getV_setV_same, State.getV_setV_same]
  · rw [State.mag, State.mag, State.getV_setV_ne s' x hr, State.getV_setV_ne s x hr]
    exact hmag r

theorem setText (h : sameButSignFlags s s') (t : List Byte) : sameButSignFlags (s.setText t) (s'.setText t) := by
  obtain ⟨hmag, hs, hcfg, -, hrest⟩ := h
  exact ⟨hmag, hs, hcfg, rfl, hrest⟩

theorem setCC (h : sameButSignFlags s s') (cc : CompletionCode) : sameButSignFlags (s.setCC cc) (s'.setCC cc) := by
  obtain ⟨hmag, hs, hcfg, htext, hstatus, hrest⟩ := h
  exact ⟨hmag, hs, hcfg, htext, congrArg (fun st => { st with cc := cc }) hstatus, hrest⟩

theorem latchFault (h : sameButSignFlags s s') (cmd : CmdWord) (c : Cause) :
    sameButSignFlags (s.latchFault cmd c) (s'.latchFault cmd c) := by
  obtain ⟨hmag, hs, hcfg, htext, -, hrest⟩ := h
  exact ⟨hmag, hs, hcfg, htext, rfl, hrest⟩

end

end sameButSignFlags

/-! ### Natural commands and the sign flags -/

/-- The completion of one Natural command with value destinations `vs`, started in two states that differ in sign flags
alone: both end alike, done states again differ in flags alone (R110 (a)), and each destination has flag 0
(R110 (b)). -/
def Completion.ignoresFlags (vs : List VReg) : Completion → Completion → Prop
  | .done t, .done t' => sameButSignFlags t t' ∧ ∀ r ∈ vs, (t.getV r).sign = false
  | .invalidFormat, .invalidFormat => True
  | .fault c, .fault c' => c' = c
  | _, _ => False

namespace Completion.ignoresFlags

section
variable {s s' : State} {vs : List VReg}

/-- One scalar register is written, with one word. -/
theorem setS (h : sameButSignFlags s s') (sd : SReg) {w w' : Word} (hw : w' = w) :
    ignoresFlags [] (.done (s.setS sd w)) (.done (s'.setS sd w')) := by
  subst hw
  exact ⟨h.setS sd w', by simp⟩

/-- The text is written. -/
theorem setText (h : sameButSignFlags s s') {t t' : List Byte} (ht : t' = t) :
    ignoresFlags [] (.done (s.setText t)) (.done (s'.setText t')) := by
  subst ht
  exact ⟨h.setText t', by simp⟩

/-- One value register is written, with one magnitude and flag 0. -/
theorem setV (h : sameButSignFlags s s') (vd : VReg) {m m' : List Word} (hm : m' = m) :
    ignoresFlags [vd] (.done (s.setV vd ⟨false, m⟩)) (.done (s'.setV vd ⟨false, m'⟩)) := by
  subst hm
  refine ⟨h.setV vd _, fun r hr => ?_⟩
  rw [List.mem_singleton.mp hr, State.getV_setV_same]

/-- A value register and a scalar register are written. -/
theorem setV_setS (h : sameButSignFlags s s') (vd : VReg) (sx : SReg) {m m' : List Word} {w w' : Word} (hm : m' = m)
    (hw : w' = w) :
    ignoresFlags [vd] (.done ((s.setV vd ⟨false, m⟩).setS sx w)) (.done ((s'.setV vd ⟨false, m'⟩).setS sx w')) := by
  subst hw
  obtain ⟨hsame, hflag⟩ := setV h vd hm
  exact ⟨hsame.setS sx w', hflag⟩

/-- Two value registers are written; the flag is 0 even where both are one register. -/
theorem setV_setV (h : sameButSignFlags s s') (vd vx : VReg) {m m' n n' : List Word} (hm : m' = m) (hn : n' = n) :
    ignoresFlags [vd, vx] (.done ((s.setV vd ⟨false, m⟩).setV vx ⟨false, n⟩))
      (.done ((s'.setV vd ⟨false, m'⟩).setV vx ⟨false, n'⟩)) := by
  subst hn
  obtain ⟨hsame, hflag⟩ := setV h vd hm
  refine ⟨hsame.setV vx _, fun r hr => ?_⟩
  by_cases hx : r = vx
  · rw [hx, State.getV_setV_same]
  · rw [State.getV_setV_ne _ _ hx]
    exact hflag r (List.mem_singleton.mpr ((List.mem_pair.mp hr).resolve_right hx))

/-- A check that raises a fault before the rest of the command. -/
theorem check {p p' : Prop} [Decidable p] [Decidable p'] {cause : Cause} {c c' : Completion} (hp : p' ↔ p)
    (hc : ignoresFlags vs c c') :
    ignoresFlags vs (if p then .fault cause else c) (if p' then .fault cause else c') := by
  by_cases h : p
  · rw [if_pos h, if_pos (hp.mpr h)]; rfl
  · rw [if_neg h, if_neg (mt hp.mp h)]; exact hc

/-- An arithmetic result that is written to destinations, or the cause it reports. -/
theorem writing {α : Type} {r r' : Except Cause α} {write write' : α → State} (hr : r' = r)
    (hwrite : ∀ x, ignoresFlags vs (.done (write x)) (.done (write' x))) :
    ignoresFlags vs (.writing r write) (.writing r' write') := by
  subst hr
  cases r' with
  | ok x => exact hwrite x
  | error e => exact rfl

/-- Two completions that end alike are recorded alike (R234 to R236). -/
theorem finish {c c' : Completion} (hc : ignoresFlags vs c c') (h : sameButSignFlags s s') (cmd : CmdWord) :
    sameButSignFlags (c.finish s cmd) (c'.finish s' cmd) := by
  cases c with
  | done t =>
    cases c' with
    | done t' =>
      obtain ⟨hsame, -⟩ := hc
      exact hsame.setCC .ok
    | invalidFormat | fault _ => exact hc.elim
  | invalidFormat =>
    cases c' with
    | invalidFormat => exact h.setCC .invalidFormat
    | done _ | fault _ => exact hc.elim
  | fault cause =>
    cases c' with
    | fault cause' =>
      have hcause : cause' = cause := hc
      rw [hcause]
      exact h.latchFault cmd cause
    | done _ | invalidFormat => exact hc.elim

end

end Completion.ignoresFlags

/-- A Natural command ends alike from two states that differ in sign flags alone, and it writes flag 0. The commands are
grouped by what they write and by the checks before the write. -/
theorem exec_ignoresFlags {s s' : State} (h : sameButSignFlags s s') {i : Instr} (hi : isNaturalCommand i = true) :
    ∃ c c' : Completion, exec i s = runCommand i s c ∧ exec i s' = runCommand i s' c' ∧
      c.ignoresFlags (valueDestinations i) c' := by
  cases i with
  | neq sd va vb | ngt sd va vb | nlt sd va vb | nge sd va vb | nle sd va vb =>
    exact ⟨_, _, rfl, rfl, .setS h sd (by rw [h.mag_eq])⟩
  | nformat va => exact ⟨_, _, rfl, rfl, .setText h (by rw [h.mag_eq])⟩
  | nparse vd =>
    refine ⟨_, _, rfl, rfl, ?_⟩
    rw [h.cfg_eq, h.text_eq]
    cases parseNatural s.cfg s.text with
    | none => exact trivial
    | some m => exact .setV h vd rfl
  | ncompl vd va => exact ⟨_, _, rfl, rfl, .setV h vd (by rw [h.mag_eq])⟩
  | nadd vd va vb | nsub vd va vb =>
    exact ⟨_, _, rfl, rfl, .writing (by rw [h.cfg_eq, h.mag_eq]) (fun _ => .setV h vd rfl)⟩
  | ndiv vd vx va vb =>
    exact ⟨_, _, rfl, rfl, .writing (by rw [h.cfg_eq, h.mag_eq]) (fun _ => .setV_setV h vd vx rfl rfl)⟩
  | nmul vd vx va vb =>
    exact ⟨_, _, rfl, rfl, .setV_setV h vd vx (by rw [h.cfg_eq, h.mag_eq]) (by rw [h.cfg_eq, h.mag_eq])⟩
  | nshll vd vx va sb | nshrl vd vx va sb | nshld vd vx va sb | nshrd vd vx va sb =>
    exact ⟨_, _, rfl, rfl, .check (by rw [h.cfg_eq, h.word_eq])
      (.setV_setV h vd vx (by simp only [h.cfg_eq, h.word_eq, h.magVal_eq])
        (by simp only [State.putV_eq, State.setV_cfg, h.cfg_eq, h.word_eq, h.magVal_eq]))⟩
  | nmull vd sx va sb =>
    exact ⟨_, _, rfl, rfl, .check (by rw [h.word_eq])
      (.setV_setS h vd sx (by rw [h.cfg_eq, h.word_eq, h.magVal_eq]) (by rw [h.cfg_eq, h.word_eq, h.magVal_eq]))⟩
  | ndivl vd sx va sb =>
    exact ⟨_, _, rfl, rfl, .check (by rw [h.word_eq]) (.check (by rw [h.word_eq])
      (.setV_setS h vd sx (by rw [h.cfg_eq, h.word_eq, h.magVal_eq]) (by rw [h.word_eq, h.magVal_eq])))⟩
  | _ => cases hi

/-- The shared ending of a command keeps the agreement: both units refuse, reject the term, or finish alike. -/
theorem runCommand_ignoresFlags {s s' t t' : State} {i : Instr} {vs : List VReg} {c c' : Completion}
    (h : sameButSignFlags s s') (hc : c.ignoresFlags vs c') (ht : runCommand i s c = .next t)
    (ht' : runCommand i s' c' = .next t') : sameButSignFlags t t' := by
  injection ht with ht
  injection ht' with ht'
  subst ht ht'
  rw [h.status_eq]
  split
  · exact h.setCC .refused
  · split
    · exact hc.finish h (encode i)
    · exact h.latchFault (encode i) .illegalCommand

/-- A Natural command that ends OK has written flag 0 to its value destinations (R110 (b)). -/
theorem sign_of_natural_ok {i : Instr} {s t : State} (hi : isNaturalCommand i = true) (ht : exec i s = .next t)
    (hok : t.status.cc = .ok) {r : VReg} (hr : r ∈ valueDestinations i) : (t.getV r).sign = false := by
  have hself : sameButSignFlags s s := ⟨fun _ => rfl, rfl, rfl, rfl, rfl, rfl, rfl⟩
  obtain ⟨c, c', hexec, -, hc⟩ := exec_ignoresFlags hself hi
  rcases runCommand_cases (hexec.symm.trans ht) with
    ⟨-, rfl⟩ | ⟨-, -, rfl⟩ | ⟨-, -, ⟨t₀, rfl, rfl⟩ | ⟨-, rfl⟩ | ⟨cause, -, rfl⟩⟩
  · cases hok
  · cases hok
  · cases c' with
    | done t' => exact hc.2 r hr
    | invalidFormat | fault _ => exact hc.elim
  · cases hok
  · cases hok

/-- A command that does not end OK leaves every value register as it was; one that does leaves all but its destinations
(R13). -/
theorem exec_getV {i : Instr} {s t : State} (ht : exec i s = .next t) :
    (∀ r, t.getV r = s.getV r) ∨ (t.status.cc = .ok ∧ ∀ r, r ∉ valueDestinations i → t.getV r = s.getV r) := by
  obtain ⟨c, hexec, hc⟩ := exec_completion s i
  rcases runCommand_cases (hexec.symm.trans ht) with
    ⟨-, rfl⟩ | ⟨-, -, rfl⟩ | ⟨-, -, ⟨s', rfl, rfl⟩ | ⟨-, rfl⟩ | ⟨cause, -, rfl⟩⟩
  · exact .inl fun _ => rfl
  · exact .inl fun _ => rfl
  · obtain ⟨-, -, -, -, hframe, -⟩ := hc
    exact .inr ⟨rfl, hframe⟩
  · exact .inl fun _ => rfl
  · exact .inl fun _ => rfl

/-- Settles O18: the two runs end in states that differ in sign flags alone, and a register that changes is a
destination, which has flag 0. -/
theorem naturalCommandsIgnoreSignFlags : Obligations.NaturalCommandsIgnoreSignFlags := by
  intro i s s' t t' hi h ht ht'
  obtain ⟨c, c', hexec, hexec', hc⟩ := exec_ignoresFlags h hi
  obtain ⟨hmag, hs, -, htext, hstatus, -⟩ :=
    runCommand_ignoresFlags h hc (hexec.symm.trans ht) (hexec'.symm.trans ht')
  refine ⟨hmag, hs, htext, hstatus, fun r => ?_, fun hok r => sign_of_natural_ok hi ht hok⟩
  rcases exec_getV ht with hsame | ⟨hok, hframe⟩
  · exact .inl (hsame r)
  · by_cases hr : r ∈ valueDestinations i
    · exact .inr (sign_of_natural_ok hi ht hok hr)
    · exact .inl (hframe r hr)

/-! ### Digit strings, digit by digit -/

/-- A digit string spells the sum of its digits, each times the power of ten of its place (R43). -/
theorem digitsValue_eq_sum (t : List Byte) :
    digitsValue t = ∑ j ∈ Finset.range t.length, digitValue (t.getD j 0#8) * 10 ^ (t.length - 1 - j) := by
  induction t with
  | nil => rfl
  | cons b t ih =>
    rw [digitsValue, List.length_cons, Finset.sum_range_succ', ih, Nat.add_comm]
    congr 1
    refine Finset.sum_congr rfl fun j hj => ?_
    rw [List.getD_cons_succ, show t.length + 1 - 1 - (j + 1) = t.length - 1 - j by omega]

/-- Character `j` of the `n` digits of a number is its digit of place `n − 1 − j` (R112). -/
theorem digitString_getElem? {n j : Nat} (hj : j < n) (v : Nat) :
    (digitString n v)[j]? = some (digitChar (v / 10 ^ (n - 1 - j) % 10)) := by
  induction n generalizing j with
  | zero => omega
  | succ n ih =>
    cases j with
    | zero => rfl
    | succ j =>
      rw [digitString, List.getElem?_cons_succ, ih (by omega), show n + 1 - 1 - (j + 1) = n - 1 - j by omega]

/-- Chunk `i` of the text of a magnitude is the digit string of limb `i` (R112). -/
theorem digits_getElem? {m : List Word} {i j : Nat} (hi : i < m.length) (hj : j < LD) :
    (digits m)[LD * i + j]? = (digitString LD (m.getD i 0#64).toNat)[j]? := by
  induction m generalizing i with
  | nil => simp at hi
  | cons l ls ih =>
    rw [digits_cons]
    cases i with
    | zero => rw [Nat.mul_zero, Nat.zero_add, List.getElem?_append_left (by simpa using hj)]; rfl
    | succ i =>
      rw [List.getElem?_append_right (by rw [digitString_length, Nat.mul_succ]; omega), digitString_length,
        show LD * (i + 1) + j - LD = LD * i + j by rw [Nat.mul_succ]; omega, ih (Nat.lt_of_succ_lt_succ hi)]
      rfl

/-- Limb `i` of a parsed text is the number of chunk `i` (R43, R111). -/
theorem parseLimbs_getD {n i : Nat} (hi : i < n) {t : List Byte} (ht : t.all isDigit = true) :
    ((parseLimbs n t).getD i 0#64).toNat = digitsValue ((t.drop (LD * i)).take LD) := by
  induction n generalizing i t with
  | zero => omega
  | succ n ih =>
    cases i with
    | zero => exact toNat_ofNat_of_lt_BASE (chunk_lt ht)
    | succ i =>
      rw [parseLimbs, List.getD_cons_succ, ih (Nat.lt_of_succ_lt_succ hi) (all_drop ht LD), List.drop_drop,
        Nat.mul_succ, Nat.add_comm]

/-- A whole chunk of a text spells the sum of its 18 digits (R43, R111). -/
theorem digitsValue_chunk {t : List Byte} {i : Nat} (h : LD * i + LD ≤ t.length) :
    digitsValue ((t.drop (LD * i)).take LD) =
      ∑ j ∈ Finset.range 18, digitValue (t.getD (18 * i + j) 0#8) * 10 ^ (17 - j) := by
  have hlen : ((t.drop (LD * i)).take LD).length = 18 := by
    rw [List.length_take, List.length_drop, Nat.min_eq_left (by omega)]; rfl
  rw [digitsValue_eq_sum, hlen]
  refine Finset.sum_congr rfl fun j hj => ?_
  have hchar : ((t.drop (LD * i)).take LD)[j]? = t[18 * i + j]? := by
    rw [List.getElem?_take_of_lt (show j < LD from Finset.mem_range.mp hj), List.getElem?_drop]; rfl
  rw [List.getD_eq_getElem?_getD, List.getD_eq_getElem?_getD, hchar]

/-- The digits of the limbs parsed from ND digits are those digits (R112). -/
theorem digits_parseLimbs {n : Nat} {t : List Byte} (ht : t.all isDigit = true) (hlen : t.length = n * LD) :
    digits (parseLimbs n t) = t := by
  refine digits_eq_of_value_eq (by rw [digits_length, parseLimbs_length, hlen]) (digits_all _) ht ?_
  rw [digitsValue_digits (fun _ hl => parseLimbs_limb_lt ht hl), val_parseLimbs ht hlen]

/-! ### NPARSE and NFORMAT -/

/-- NPARSE of exactly ND digits writes the parsed limbs (R111). -/
theorem exec_nparse_of_digits {s : State} (hlen : s.tlen = s.cfg.ND) (hdigits : s.text.all isDigit = true)
    (vd : VReg) :
    exec (.nparse vd) s = runCommand (.nparse vd) s (.done (s.setV vd ⟨false, parseLimbs s.cfg.N s.text⟩)) := by
  have hparse : parseNatural s.cfg s.text = some (parseLimbs s.cfg.N s.text) := if_pos ⟨hlen, hdigits⟩
  rw [exec, execNparse, hparse]

/-- NPARSE of any other text (R111). -/
theorem exec_nparse_of_no_digits {s : State} (h : ¬ (s.tlen = s.cfg.ND ∧ s.text.all isDigit = true)) (vd : VReg) :
    exec (.nparse vd) s = runCommand (.nparse vd) s .invalidFormat := by
  have hparse : parseNatural s.cfg s.text = none := if_neg h
  rw [exec, execNparse, hparse]

/-- A chunk of a text of ND digits lies within it. -/
theorem chunk_le_ND {c : Config} {i : Nat} (hi : i < c.N) : LD * i + LD ≤ c.ND := by
  rw [Config.ND, ← Nat.mul_succ, Nat.mul_comm]
  exact Nat.mul_le_mul_right LD hi

/-- Settles O30: ND digits are `N` whole chunks, and each limb is the sum of its chunk's digits. -/
theorem nparseReadsFixedLengthDigits : Obligations.NparseReadsFixedLengthDigits := by
  intro vd s hrun
  refine ⟨encodedAs_fields (.nparse vd), fun hlen hdigits => ?parses, fun hbad => ?invalidFormat⟩
  case parses =>
    obtain ⟨t, hexec, hframe, hread⟩ := exec_setV hrun rfl (exec_nparse_of_digits hlen hdigits vd)
    refine ⟨t, hexec, hframe, by rw [hread], ?_, fun i hi => ?_⟩
    · rw [State.mag_of_getV hread]
      exact magWf_parseLimbs hdigits
    · rw [hread, Value.limb, parseLimbs_getD hi hdigits]
      exact digitsValue_chunk ((chunk_le_ND hi).trans_eq hlen.symm)
  case invalidFormat => exact completesInvalidFormat_of hrun rfl (exec_nparse_of_no_digits hbad vd)

/-- NFORMAT is done with the digits of the magnitude in the text (R112). -/
theorem exec_nformat {s : State} (hrun : s.running) (va : VReg) :
    exec (.nformat va) s = .next ((s.setText (digits (s.mag va))).setCC .ok) :=
  exec_done hrun rfl rfl

/-- The text of a magnitude has ND characters (R112). -/
theorem length_digits_mag {s : State} (h : s.wf = true) (va : VReg) : (digits (s.mag va)).length = s.cfg.ND := by
  rw [digits_length, State.length_mag h va, Config.ND]

/-- Settles O31: NFORMAT writes the digit string of each limb, which NPARSE cuts into the same limbs; and the limbs of a
text of digits have that text. -/
theorem nformatWritesAllDigits : Obligations.NformatWritesAllDigits := by
  intro va s hwf hrun
  refine ⟨encodedAs_fields (.nformat va), ?writes, fun vd => ?parsesBack, fun hlen hdigits => ?formatsBack⟩
  case writes =>
    refine ⟨_, exec_nformat hrun va, completedWritingText_setText s _, length_digits_mag hwf va, fun i j hi hj => ?_⟩
    exact (digits_getElem? (hi.trans_eq (State.length_mag hwf va).symm) hj).trans (digitString_getElem? hj _)
  case parsesBack =>
    have hparse := exec_nparse_of_digits (s := (s.setText (digits (s.mag va))).setCC .ok) (length_digits_mag hwf va)
      (digits_all _) vd
    have hrun' : ((s.setText (digits (s.mag va))).setCC .ok).running := hrun
    obtain ⟨u, hexec, -, hread⟩ := exec_setV hrun' rfl hparse
    refine ⟨_, u, exec_nformat hrun va, hexec, (State.mag_of_getV hread).trans ?_⟩
    calc parseLimbs s.cfg.N (digits (s.mag va))
        = parseLimbs (s.mag va).length (digits (s.mag va)) := by rw [State.length_mag hwf va]
      _ = s.mag va := parseLimbs_digits fun _ hl => State.limb_lt hwf hl
  case formatsBack =>
    obtain ⟨t, hexec, ⟨-, -, -, -, hstatus, -⟩, hread⟩ := exec_setV hrun rfl (exec_nparse_of_digits hlen hdigits va)
    have hrun' : t.running := (congrArg Status.frozen hstatus).trans hrun
    refine ⟨t, _, hexec, exec_nformat hrun' va, ?_⟩
    calc digits (t.mag va) = digits (parseLimbs s.cfg.N s.text) := by rw [State.mag_of_getV hread]
      _ = s.text := digits_parseLimbs hdigits hlen

/-! ### The comparisons -/

/-- A command that is done with a truth word in one scalar register: it completes, and the register holds 1 or 0 as the
condition does or does not hold (R12, R110 (d)). -/
theorem exec_truth {i : Instr} {s : State} {sd : SReg} {b : Bool} {p : Prop} [Decidable p] (h : s.running)
    (hi : i.wf = true) (hb : b = true ↔ p) (he : exec i s = runCommand i s (.done (s.setS sd (truth b)))) :
    ∃ t, exec i s = .next t ∧ completedWriting [] [sd] s t ∧ t.word sd = if p then 1 else 0 := by
  obtain ⟨t, hexec, hframe, hread⟩ := exec_setS h hi he
  refine ⟨t, hexec, hframe, ?_⟩
  rw [State.word_of_getS hread, truth_toNat, Bool.toNat, Bool.cond_eq_ite]
  exact if_congr hb rfl rfl

/-- Settles O32: the limb-by-limb comparison is that of the numbers, and each command tests its outcome. -/
theorem naturalComparisonsCompareMagnitudes : Obligations.NaturalComparisonsCompareMagnitudes := by
  intro sd va vb s hwf hrun
  have hcmp : ncmp (s.mag va) (s.mag vb) = compare (s.magVal va) (s.magVal vb) :=
    ncmp_of_wf (State.magWf_mag hwf va) (State.magWf_mag hwf vb)
  refine ⟨⟨encodedAs_fields (.neq sd va vb), exec_truth hrun rfl ?eq rfl⟩,
    ⟨encodedAs_fields (.ngt sd va vb), exec_truth hrun rfl ?gt rfl⟩,
    ⟨encodedAs_fields (.nlt sd va vb), exec_truth hrun rfl ?lt rfl⟩,
    ⟨encodedAs_fields (.nge sd va vb), exec_truth hrun rfl ?ge rfl⟩,
    ⟨encodedAs_fields (.nle sd va vb), exec_truth hrun rfl ?le rfl⟩⟩
  case eq => rw [hcmp, beq_iff_eq, compare_eq_iff_eq]
  case gt => rw [hcmp, beq_iff_eq, compare_gt_iff_gt]
  case lt => rw [hcmp, beq_iff_eq, compare_lt_iff_lt]
  case ge => rw [hcmp, bne_iff_ne, ne_eq, compare_lt_iff_lt, not_lt]
  case le => rw [hcmp, bne_iff_ne, ne_eq, compare_gt_iff_gt, not_lt]

end Sys2Proof.Machine
end

section
/-! Natural addition, complement and subtraction (43_natural_add_sub.md): NADD (R125), NCOMPL (R127), NSUB (R128), and
the datapaths of R126 and R129. -/

namespace Sys2Proof.Machine

open Sys2Proof

/-! ### Commands whose completion is a result or a fault -/

section
variable {α : Type} {i : Instr} {s : State} {vd : VReg} {r : Except Cause α} {value : α → Value}

/-- A command that writes a result to one value register, when there is a result (R236). -/
theorem exec_writing_ok {x : α} (h : s.running) (hi : i.wf = true)
    (he : exec i s = runCommand i s (.writing r fun y => s.setV vd (value y))) (hr : r = .ok x) :
    ∃ t, exec i s = .next t ∧ completedWriting [vd] [] s t ∧ t.getV vd = value x :=
  exec_setV h hi (by rw [he, hr, Completion.writing_ok])

/-- A command that writes a result, when there is a fault cause in its place (R236). -/
theorem raisesFault_of_writing {c : Cause} {write : α → State} (h : s.running) (hi : i.wf = true)
    (he : exec i s = runCommand i s (.writing r write)) (hr : r = .error c) : raisesFault i c s :=
  raisesFault_of h hi (by rw [he, hr, Completion.writing_error])

end

/-- A command that writes a Natural result: the register holds the number (R110 (b)). -/
theorem exec_writing_nat {i : Instr} {s : State} {vd : VReg} {r : Except Cause (List Word)} {v : Nat} (h : s.running)
    (hi : i.wf = true)
    (he : exec i s = runCommand i s (.writing r fun m => s.setV vd { sign := false, mag := m }))
    (hr : r = .ok (nat s.cfg.N v)) (hv : v < s.cfg.CAP) :
    ∃ t, exec i s = .next t ∧ completedWriting [vd] [] s t ∧ holds s.cfg false v (t.getV vd) := by
  obtain ⟨t, hexec, hframe, hread⟩ := exec_writing_ok h hi he hr
  exact ⟨t, hexec, hframe, hread ▸ holds_nat false hv⟩

theorem exec_nadd (vd va vb : VReg) (s : State) :
    exec (.nadd vd va vb) s = runCommand (.nadd vd va vb) s
      (.writing (addMag s.cfg (s.mag va) (s.mag vb)) fun m => s.setV vd { sign := false, mag := m }) := rfl

theorem exec_nsub (vd va vb : VReg) (s : State) :
    exec (.nsub vd va vb) s = runCommand (.nsub vd va vb) s
      (.writing (subMag s.cfg (s.mag va) (s.mag vb)) fun m => s.setV vd { sign := false, mag := m }) := rfl

theorem exec_ncompl (vd va : VReg) (s : State) :
    exec (.ncompl vd va) s = runCommand (.ncompl vd va) s
      (.done (s.setV vd { sign := false, mag := complementMag (s.mag va) })) := rfl

/-- Settles O33: below CAP the sum is the result, from CAP on the completion is the fault. -/
theorem naddAddsOrOverflows : Obligations.NaddAddsOrOverflows := by
  intro vd va vb s hrun
  refine ⟨encodedAs_fields (.nadd vd va vb), fun hfits => ?adds, fun hcap => ?overflows⟩
  case adds => exact exec_writing_nat hrun rfl (exec_nadd vd va vb s) (addMag_of_lt hfits) hfits
  case overflows => exact raisesFault_of_writing hrun rfl (exec_nadd vd va vb s) (addMag_of_ge hcap)

/-- Settles O35: the difference is at most the first operand, which is below CAP. -/
theorem nsubSubtractsOrUnderflows : Obligations.NsubSubtractsOrUnderflows := by
  intro vd va vb s hwf hrun
  refine ⟨encodedAs_fields (.nsub vd va vb), fun hle => ?subtracts, fun hlt => ?underflows⟩
  case subtracts =>
    have hfits : s.magVal va - s.magVal vb < s.cfg.CAP := (Nat.sub_le _ _).trans_lt (State.magVal_lt hwf va)
    exact exec_writing_nat hrun rfl (exec_nsub vd va vb s) (subMag_of_le hle) hfits
  case underflows => exact raisesFault_of_writing hrun rfl (exec_nsub vd va vb s) (subMag_of_lt hlt)

/-! ### The nines' complement -/

/-- Limb `i` of the complement is the complement of limb `i` (R127). -/
theorem complementMag_getD {a : List Word} {i : Nat} (hi : i < a.length) :
    ((complementMag a).getD i 0#64).toNat = BASE - 1 - (a.getD i 0#64).toNat := by
  have hi' : i < (complementMag a).length := hi.trans_eq (complementMag_length a).symm
  rw [List.getD_eq_getElem _ _ hi, List.getD_eq_getElem _ _ hi', ← complement_limb]
  exact congrArg BitVec.toNat (List.getElem_map _)

/-- The complement of a magnitude within the limb invariant has the number `CAP − 1 − val(a)` (R127). -/
theorem val_complementMag_of_wf {c : Config} {a : List Word} (h : magWf c a = true) :
    val (complementMag a) = c.CAP - 1 - val a := by
  obtain ⟨hlen, hlimbs⟩ := (magWf_iff c a).mp h
  have hsum : val (complementMag a) + val a + 1 = c.CAP := by rw [val_complementMag hlimbs, hlen, Config.CAP]
  omega

/-- The complement of the limbs of a number below CAP is the limbs of `CAP − 1 − v` (R127). -/
theorem complementMag_nat {c : Config} {v : Nat} (hv : v < c.CAP) :
    complementMag (nat c.N v) = nat c.N (c.CAP - 1 - v) := by
  have hwf := magWf_nat c v
  rw [← nat_val_of_wf (magWf_complementMag hwf), val_complementMag_of_wf hwf, val_nat hv]

/-- Settles O34: the completion writes the complement, and both clauses are facts about it. -/
theorem ncomplComplementsEveryLimb : Obligations.NcomplComplementsEveryLimb := by
  intro vd va s hwf hrun
  have hmag := State.magWf_mag hwf va
  obtain ⟨t, hexec, hframe, hread⟩ := exec_setV hrun rfl (exec_ncompl vd va s)
  refine ⟨encodedAs_fields (.ncompl vd va), t, hexec, hframe, ?holds, fun i hi => ?limbs⟩
  case holds => rw [hread]; exact ⟨rfl, magWf_complementMag hmag, val_complementMag_of_wf hmag⟩
  case limbs => rw [hread]; exact complementMag_getD (hi.trans_eq (State.length_mag hwf va).symm)

/-! ### The datapaths of R126 and R129 -/

/-- `nat` keeps the low `n` limbs of its number. -/
theorem nat_mod (n v : Nat) : nat n (v % BASE ^ n) = nat n v := by
  have h := nat_val (m := nat n v) fun _ => nat_limb_lt
  rwa [nat_length, val_nat_mod] at h

/-- The ripple at one limb: the limb and carry of the sum of two limbs and the carry in (R126). -/
theorem addLimbs_cons (x y : Word) (xs ys : List Word) :
    addLimbs (x :: xs) (y :: ys) =
      (BitVec.ofNat 64 ((x.toNat + y.toNat + (addLimbs xs ys).2) % BASE) :: (addLimbs xs ys).1,
        (x.toNat + y.toNat + (addLimbs xs ys).2) / BASE) := by
  rw [addLimbs, rebalance, Nat.zero_add]

/-- The ripple gives the low limbs of the sum, and the part of the sum above them as its carry; the operands need not
be within the limb invariant (R126). -/
theorem addLimbs_eq {a b : List Word} (hlen : a.length = b.length) :
    addLimbs a b = (nat a.length (val a + val b), (val a + val b) / BASE ^ a.length) := by
  induction a generalizing b with
  | nil =>
    obtain rfl : b = [] := List.length_eq_zero_iff.mp hlen.symm
    rfl
  | cons x xs ih =>
    cases b with
    | nil => simp at hlen
    | cons y ys =>
      have hlen' : xs.length = ys.length := Nat.succ.inj hlen
      have hsum : val (x :: xs) + val (y :: ys) = BASE ^ xs.length * (x.toNat + y.toNat) + (val xs + val ys) := by
        rw [val_cons, val_cons, ← hlen']; ring
      have hlow : nat xs.length (val (x :: xs) + val (y :: ys)) = nat xs.length (val xs + val ys) := by
        rw [← nat_mod, hsum, Nat.mul_add_mod, nat_mod]
      have hhigh : (val (x :: xs) + val (y :: ys)) / BASE ^ xs.length =
          x.toNat + y.toNat + (val xs + val ys) / BASE ^ xs.length := by
        rw [hsum, Nat.mul_add_div (BASE_pow_pos _)]
      rw [addLimbs_cons, ih hlen', List.length_cons, nat, hlow, Nat.pow_succ, ← Nat.div_div_eq_div_mul, hhigh]

/-- The ripple on two magnitudes of one build. -/
theorem addLimbs_of_wf {c : Config} {a b : List Word} (ha : magWf c a = true) (hb : magWf c b = true) :
    addLimbs a b = (nat c.N (val a + val b), (val a + val b) / c.CAP) := by
  obtain ⟨hla, -⟩ := (magWf_iff c a).mp ha
  obtain ⟨hlb, -⟩ := (magWf_iff c b).mp hb
  rw [addLimbs_eq (hla.trans hlb.symm), hla, Config.CAP]

/-- The carry out of limb 0 is not zero exactly when the sum leaves the capacity (R125, R126). -/
theorem div_CAP_ne_zero_iff (c : Config) (v : Nat) : v / c.CAP ≠ 0 ↔ c.CAP ≤ v := by
  rw [Nat.div_ne_zero_iff, and_iff_right (CAP_pos c).ne']

/-- The ripple adder computes Natural `add` (R125, R126). -/
theorem addDatapath_eq_addMag {c : Config} {a b : List Word} (ha : magWf c a = true) (hb : magWf c b = true) :
    addDatapath a b = addMag c a b := by
  rw [addDatapath, addLimbs_of_wf ha hb, addMag]
  exact if_congr (div_CAP_ne_zero_iff c _) rfl rfl

/-- Complement, add, complement computes Natural `subtract`: the carry escapes when `(CAP − 1 − a) + b` reaches CAP,
which is `a < b`; else the complement of that sum is `a − b` (R128, R129). -/
theorem subDatapath_eq_subMag {c : Config} {a b : List Word} (ha : magWf c a = true) (hb : magWf c b = true) :
    subDatapath a b = subMag c a b := by
  have hcap : val a < c.CAP := val_lt_CAP ha
  have hadd : addLimbs (complementMag a) b =
      (nat c.N (c.CAP - 1 - val a + val b), (c.CAP - 1 - val a + val b) / c.CAP) := by
    rw [addLimbs_of_wf (magWf_complementMag ha) hb, val_complementMag_of_wf ha]
  rw [subDatapath, hadd]
  by_cases hlt : val a < val b
  · have hcarry := (div_CAP_ne_zero_iff c (c.CAP - 1 - val a + val b)).mpr (by omega)
    rw [subMag_of_lt hlt]
    exact if_pos hcarry
  · have hfits : c.CAP - 1 - val a + val b < c.CAP := by omega
    have hdiff : c.CAP - 1 - (c.CAP - 1 - val a + val b) = val a - val b := by omega
    have hcarry := mt (div_CAP_ne_zero_iff c _).mp hfits.not_ge
    rw [subMag_of_le (Nat.not_lt.mp hlt), ← hdiff, ← complementMag_nat hfits]
    exact if_neg hcarry

/-- Settles O55: each datapath is its contract, as a function of the operands. -/
theorem adderAndComplementPipelineMeetTheirContracts : Obligations.AdderAndComplementPipelineMeetTheirContracts :=
  fun _ _ _ ha hb => ⟨addDatapath_eq_addMag ha hb, subDatapath_eq_subMag ha hb⟩

end Sys2Proof.Machine
end

section
/-! The Natural shifts (44_natural_shift.md): NSHLL and NSHRL by limbs (R136, R137), NSHLD and NSHRD by digits (R138,
R139), and the datapaths of the digit shifts (R140). -/

namespace Sys2Proof.Machine

open Sys2Proof

/-! ### Whole limbs of `nat`

`nat n v` is the low `n` limbs of `v` whatever `v` is, so cutting and padding the list of limbs is dividing and
multiplying the number by a power of BASE. -/

/-- The limbs of a number are the limbs above position `n` and the `n` limbs below it. -/
theorem nat_add (m n v : Nat) : nat (m + n) v = nat m (v / BASE ^ n) ++ nat n v := by
  induction m with
  | zero => rw [Nat.zero_add, nat, List.nil_append]
  | succ m ih =>
    have hlimb : v / BASE ^ (m + n) = v / BASE ^ n / BASE ^ m := by
      rw [Nat.div_div_eq_div_mul, ← Nat.pow_add, Nat.add_comm n m]
    rw [Nat.succ_add, nat, nat, ih, hlimb, List.cons_append]

theorem nat_zero_right (n : Nat) : nat n 0 = List.replicate n 0#64 := by
  induction n with
  | zero => rfl
  | succ n ih => rw [nat, ih, Nat.zero_div, List.replicate_succ]; rfl

/-- Zero limbs at the bottom multiply the number by a power of BASE. -/
theorem nat_append_zeros (n k v : Nat) : nat n v ++ List.replicate k 0#64 = nat (n + k) (v * BASE ^ k) := by
  rw [nat_add, Nat.mul_div_cancel _ (BASE_pow_pos k), ← nat_mod k, Nat.mul_mod_left, nat_zero_right]

/-- Zero limbs at the top leave the number as it is. -/
theorem zeros_append_nat {n v : Nat} (m : Nat) (h : v < BASE ^ n) :
    List.replicate m 0#64 ++ nat n v = nat (m + n) v := by
  rw [nat_add, Nat.div_eq_of_lt h, nat_zero_right]

section
variable {n k : Nat}

/-- The limbs from position `k` on are the number's low `n − k` limbs. -/
theorem drop_nat (h : k ≤ n) (v : Nat) : (nat n v).drop k = nat (n - k) v := by
  conv_lhs => rw [← Nat.add_sub_cancel' h, nat_add]
  exact List.drop_left' (nat_length k _)

/-- The limbs before position `k` are the number without its low `n − k` limbs. -/
theorem take_nat (h : k ≤ n) (v : Nat) : (nat n v).take k = nat k (v / BASE ^ (n - k)) := by
  conv_lhs => rw [← Nat.add_sub_cancel' h, nat_add]
  exact List.take_left' (nat_length k _)

end

/-! ### Whole limbs of a magnitude -/

section
variable {c : Config} {a : List Word} {k : Nat}

/-- The low `N − k` limbs of a magnitude. -/
theorem drop_of_wf (ha : magWf c a = true) (hk : k ≤ c.N) : a.drop k = nat (c.N - k) (val a) := by
  rw [← drop_nat hk, nat_val_of_wf ha]

/-- The high `k` limbs of a magnitude. -/
theorem take_of_wf (ha : magWf c a = true) (hk : k ≤ c.N) : a.take k = nat k (val a / BASE ^ (c.N - k)) := by
  rw [← take_nat hk, nat_val_of_wf ha]

theorem CAP_split (h : k ≤ c.N) : BASE ^ (c.N - k) * BASE ^ k = c.CAP := Nat.pow_sub_mul_pow BASE h

/-- The limbs kept by a left shift: the low `N − k` of them, above `k` zero limbs (R136). -/
theorem nat_mul_limbs_mod (ha : magWf c a = true) (hk : k ≤ c.N) :
    nat c.N (val a * BASE ^ k % c.CAP) = a.drop k ++ List.replicate k 0#64 := by
  rw [Config.CAP, nat_mod, drop_of_wf ha hk, nat_append_zeros, Nat.sub_add_cancel hk]

/-- The limbs kept by a right shift: the high `N − k` of them, below `k` zero limbs (R137). -/
theorem nat_div_limbs (ha : magWf c a = true) (hk : k ≤ c.N) :
    nat c.N (val a / BASE ^ k) = List.replicate k 0#64 ++ a.take (c.N - k) := by
  have hfits : val a / BASE ^ k < BASE ^ (c.N - k) :=
    Nat.div_lt_of_lt_mul ((val_lt_CAP ha).trans_eq ((CAP_split hk).symm.trans (Nat.mul_comm _ _)))
  rw [take_of_wf ha (Nat.sub_le c.N k), Nat.sub_sub_self hk, zeros_append_nat k hfits, Nat.add_sub_cancel' hk]

/-- The overflow of a left shift: the top `k` limbs, moved to the bottom (R136). -/
theorem nat_mul_limbs_div (ha : magWf c a = true) (hk : k ≤ c.N) :
    nat c.N (val a * BASE ^ k / c.CAP) = List.replicate (c.N - k) 0#64 ++ a.take k := by
  rw [← CAP_split hk, Nat.mul_div_mul_right _ _ (BASE_pow_pos k), nat_div_limbs ha (Nat.sub_le _ _),
    Nat.sub_sub_self hk]

/-- The loss of a right shift: the low `k` limbs, where they stand (R137). -/
theorem nat_mod_limbs (ha : magWf c a = true) (hk : k ≤ c.N) :
    nat c.N (val a % BASE ^ k) = List.replicate (c.N - k) 0#64 ++ a.drop (c.N - k) := by
  rw [drop_of_wf ha (Nat.sub_le c.N k), Nat.sub_sub_self hk, ← nat_mod k,
    zeros_append_nat _ (Nat.mod_lt _ (BASE_pow_pos k)), Nat.sub_add_cancel hk]

end

/-! ### The limbs of a shifted register -/

/-- A register that holds a number holds its limbs. -/
theorem holds.mag_eq {c : Config} {b : Bool} {v : Nat} {x : Value} (h : holds c b v x) : x.mag = nat c.N v := by
  obtain ⟨-, hwf, hval⟩ := h
  rw [← hval, nat_val_of_wf hwf]

section
variable {x y : Value} {i k m : Nat}

/-- A limb of a value whose limbs are cut at the top and filled with zero limbs at the bottom. -/
theorem limb_of_drop_zeros (hx : x.mag = y.mag.drop k ++ List.replicate k 0#64) (hi : i < y.mag.length) :
    x.limb i = if i + k ≤ y.mag.length - 1 then y.limb (i + k) else 0 := by
  have hlen : (y.mag.drop k).length = y.mag.length - k := List.length_drop
  rw [Value.limb, hx]
  split
  · rw [List.getD_append _ _ _ _ (by omega), List.getD_eq_getElem?_getD, List.getElem?_drop, Nat.add_comm k i,
      ← List.getD_eq_getElem?_getD, ← Value.limb]
  · rw [List.getD_append_right _ _ _ _ (by omega), List.getD_replicate _ (by omega)]; rfl

/-- A limb of a value whose `m` top limbs are zero. -/
theorem limb_of_zeros_append {l : List Word} (hx : x.mag = List.replicate m 0#64 ++ l) (i : Nat) :
    x.limb i = if m ≤ i then (l.getD (i - m) 0#64).toNat else 0 := by
  have hlen : (List.replicate m 0#64).length = m := List.length_replicate
  rw [Value.limb, hx]
  split
  · rw [List.getD_append_right _ _ _ _ (by omega), hlen]
  · rw [List.getD_append _ _ _ _ (by omega), List.getD_replicate _ (by omega)]; rfl

/-- A limb of a value whose limbs are the first `k` of another's, moved down by `m` places. -/
theorem limb_of_zeros_take (hx : x.mag = List.replicate m 0#64 ++ y.mag.take k) (hi : i < m + k) :
    x.limb i = if m ≤ i then y.limb (i - m) else 0 := by
  rw [limb_of_zeros_append hx]
  refine ite_congr rfl (fun hle => ?_) fun _ => rfl
  rw [List.getD_eq_getElem?_getD, List.getElem?_take_of_lt (by omega), ← List.getD_eq_getElem?_getD, ← Value.limb]

/-- A limb of a value whose limbs are another's but for zeros in the `m` top places. -/
theorem limb_of_zeros_drop (hx : x.mag = List.replicate m 0#64 ++ y.mag.drop m) (i : Nat) :
    x.limb i = if m ≤ i then y.limb i else 0 := by
  rw [limb_of_zeros_append hx]
  refine ite_congr rfl (fun hle => ?_) fun _ => rfl
  rw [List.getD_eq_getElem?_getD, List.getElem?_drop, Nat.add_sub_cancel' hle, ← List.getD_eq_getElem?_getD,
    ← Value.limb]

end

/-! ### The commands -/

/-- A command that is done with two Natural numbers in two different value registers: it completes, and each register
holds its number. -/
theorem exec_putV_putV {i : Instr} {s : State} {vd vx : VReg} {v w : Nat} (h : s.running) (hi : i.wf = true)
    (hne : vd ≠ vx) (hv : v < s.cfg.CAP) (hw : w < s.cfg.CAP)
    (he : exec i s = runCommand i s (.done ((s.putV vd v).putV vx w))) :
    ∃ t, exec i s = .next t ∧ completedWriting [vd, vx] [] s t ∧ holds s.cfg false v (t.getV vd) ∧
      holds s.cfg false w (t.getV vx) := by
  simp only [State.putV_eq, State.setV_cfg] at he
  refine ⟨_, exec_done h hi he, completedWriting_setV_setV s vd vx _ _, ?_, ?_⟩
  · rw [State.getV_setCC, State.getV_setV_ne _ _ hne, State.getV_setV_same]
    exact holds_natural hv
  · rw [State.getV_setCC, State.getV_setV_same]
    exact holds_natural hw

section
variable {i : Instr} {s : State} {vd vx va : VReg} {p : Nat}

/-- A left shift by a factor of at most CAP completes, and drops nothing (R135). -/
theorem exec_shiftLeftMag (hwf : s.wf = true) (h : s.running) (hi : i.wf = true) (hne : vd ≠ vx)
    (hp : p ≤ s.cfg.CAP) (he : exec i s = runCommand i s (.done (shiftLeftMag vd vx va p s))) :
    ∃ t, exec i s = .next t ∧ completedWriting [vd, vx] [] s t ∧
      holds s.cfg false (s.magVal va * p % s.cfg.CAP) (t.getV vd) ∧
      holds s.cfg false (s.magVal va * p / s.cfg.CAP) (t.getV vx) ∧
      s.magVal va * p = t.magVal vx * s.cfg.CAP + t.magVal vd := by
  have hover : s.magVal va * p / s.cfg.CAP < s.cfg.CAP := by
    refine Nat.div_lt_of_lt_mul ?_
    calc s.magVal va * p ≤ s.magVal va * s.cfg.CAP := Nat.mul_le_mul_left _ hp
      _ < s.cfg.CAP * s.cfg.CAP := Nat.mul_lt_mul_of_pos_right (State.magVal_lt hwf va) (CAP_pos s.cfg)
  obtain ⟨t, hexec, hframe, hd, hx⟩ := exec_putV_putV h hi hne (Nat.mod_lt _ (CAP_pos s.cfg)) hover he
  refine ⟨t, hexec, hframe, hd, hx, ?_⟩
  obtain ⟨-, -, hkept⟩ := hd
  obtain ⟨-, -, hlost⟩ := hx
  calc s.magVal va * p = _ := (Nat.div_add_mod' (s.magVal va * p) s.cfg.CAP).symm
    _ = t.magVal vx * s.cfg.CAP + t.magVal vd := by rw [← hkept, ← hlost]; rfl

/-- A right shift completes, and drops nothing (R135). -/
theorem exec_shiftRightMag (hwf : s.wf = true) (h : s.running) (hi : i.wf = true) (hne : vd ≠ vx)
    (he : exec i s = runCommand i s (.done (shiftRightMag vd vx va p s))) :
    ∃ t, exec i s = .next t ∧ completedWriting [vd, vx] [] s t ∧
      holds s.cfg false (s.magVal va / p) (t.getV vd) ∧ holds s.cfg false (s.magVal va % p) (t.getV vx) ∧
      s.magVal va = t.magVal vd * p + t.magVal vx := by
  have hval := State.magVal_lt hwf va
  obtain ⟨t, hexec, hframe, hd, hx⟩ :=
    exec_putV_putV h hi hne ((Nat.div_le_self _ p).trans_lt hval) ((Nat.mod_le _ p).trans_lt hval) he
  refine ⟨t, hexec, hframe, hd, hx, ?_⟩
  obtain ⟨-, -, hkept⟩ := hd
  obtain ⟨-, -, hlost⟩ := hx
  calc s.magVal va = _ := (Nat.div_add_mod' (s.magVal va) p).symm
    _ = t.magVal vd * p + t.magVal vx := by rw [← hkept, ← hlost]; rfl

end

/-- Settles O36: the results are the number's quotient and remainder, and their limbs are limbs of the operand. -/
theorem limbShiftsDropNothing : Obligations.LimbShiftsDropNothing := by
  intro vd vx va sb s hwf hrun hne
  have hshll : (Instr.nshll vd vx va sb).wf = true := bne_iff_ne.mpr hne
  have hshrl : (Instr.nshrl vd vx va sb).wf = true := bne_iff_ne.mpr hne
  have hmag : magWf s.cfg (s.getV va).mag = true := State.magWf_mag hwf va
  have hlen : (s.getV va).mag.length = s.cfg.N := State.length_mag hwf va
  refine ⟨encodedAs_fields (.nshll vd vx va sb), encodedAs_fields (.nshrl vd vx va sb),
    fun hk => ⟨?left, ?right⟩, fun hk => ?badShiftArg⟩
  case left =>
    obtain ⟨t, hexec, hframe, hd, hx, hidentity⟩ := exec_shiftLeftMag hwf hrun hshll hne
      (Nat.pow_le_pow_right BASE_pos hk) (exec_of_not_check (Nat.not_lt.mpr hk) rfl)
    refine ⟨t, hexec, hframe, hd, hx, hidentity, fun i hi => ?_, fun i hi => ?_⟩
    · rw [limb_of_drop_zeros (hd.mag_eq.trans (nat_mul_limbs_mod hmag hk)) (hi.trans_eq hlen.symm), hlen]
    · exact limb_of_zeros_take (hx.mag_eq.trans (nat_mul_limbs_div hmag hk)) (by omega)
  case right =>
    obtain ⟨t, hexec, hframe, hd, hx, hidentity⟩ := exec_shiftRightMag hwf hrun hshrl hne
      (exec_of_not_check (Nat.not_lt.mpr hk) rfl)
    refine ⟨t, hexec, hframe, hd, hx, hidentity, fun i hi => ?_, fun i _ => ?_⟩
    · exact limb_of_zeros_take (hd.mag_eq.trans (nat_div_limbs hmag hk)) (by omega)
    · exact limb_of_zeros_drop (hx.mag_eq.trans (nat_mod_limbs hmag hk)) i
  case badShiftArg =>
    exact ⟨raisesFault_of hrun hshll (exec_of_check hk rfl), raisesFault_of hrun hshrl (exec_of_check hk rfl)⟩

/-- Settles O37: a count of at most ND is a factor of at most CAP, so the digits shifted out fit a Natural. -/
theorem digitShiftsDropNothing : Obligations.DigitShiftsDropNothing := by
  intro vd vx va sb s hwf hrun hne
  have hshld : (Instr.nshld vd vx va sb).wf = true := bne_iff_ne.mpr hne
  have hshrd : (Instr.nshrd vd vx va sb).wf = true := bne_iff_ne.mpr hne
  refine ⟨encodedAs_fields (.nshld vd vx va sb), encodedAs_fields (.nshrd vd vx va sb),
    fun hk => ⟨?left, ?right⟩, fun hk => ?badShiftArg⟩
  case left =>
    have hfactor : 10 ^ s.word sb ≤ s.cfg.CAP := (Nat.pow_le_pow_right (by decide) hk).trans_eq (CAP_eq s.cfg).symm
    exact exec_shiftLeftMag hwf hrun hshld hne hfactor (exec_of_not_check (Nat.not_lt.mpr hk) rfl)
  case right => exact exec_shiftRightMag hwf hrun hshrd hne (exec_of_not_check (Nat.not_lt.mpr hk) rfl)
  case badShiftArg =>
    exact ⟨raisesFault_of hrun hshld (exec_of_check hk rfl), raisesFault_of hrun hshrd (exec_of_check hk rfl)⟩

/-! ### The digit shift datapaths of R140 -/

/-- A number with `x` units at limb position `n`: its limb there takes what the part below carries into it. -/
theorem nat_succ_mul_add (n x y : Nat) :
    nat (n + 1) (x * BASE ^ n + y) = BitVec.ofNat 64 ((x + y / BASE ^ n) % BASE) :: nat n y := by
  have hlow : nat n (x * BASE ^ n + y) = nat n y := by
    rw [← nat_mod, Nat.mul_comm, Nat.mul_add_mod, nat_mod]
  rw [nat, hlow, Nat.mul_comm, Nat.mul_add_div (BASE_pow_pos n)]

/-- What such a number holds above limb position `n`. -/
theorem div_BASE_pow_succ_mul_add (n x y : Nat) :
    (x * BASE ^ n + y) / BASE ^ (n + 1) = (x + y / BASE ^ n) / BASE := by
  rw [Nat.pow_succ, ← Nat.div_div_eq_div_mul, Nat.mul_comm, Nat.mul_add_div (BASE_pow_pos n)]

section
variable {r : Nat}

/-- A limb shifted to the left takes the digits from the limb below into its vacant places, and its own digits leave
as they would without them (R140). -/
theorem shiftLeftInLimb_add {w d : Nat} (hr : r ≤ LD) (hd : d < 10 ^ r) :
    (shiftLeftInLimb w r).1 + d = (w * 10 ^ r + d) % BASE ∧ (shiftLeftInLimb w r).2 = (w * 10 ^ r + d) / BASE := by
  have hhigh : (w * 10 ^ r + d) / 10 ^ r = w := by
    rw [Nat.mul_comm, Nat.mul_add_div (Nat.pow_pos (by decide)), Nat.div_eq_of_lt hd, Nat.add_zero]
  have hlow : (w * 10 ^ r + d) % 10 ^ r = d := by
    rw [Nat.mul_comm, Nat.mul_add_mod, Nat.mod_eq_of_lt hd]
  rw [← BASE_split hr, Nat.mul_comm (10 ^ (LD - r)), Nat.mod_mul, ← Nat.div_div_eq_div_mul, hhigh, hlow,
    shiftLeftInLimb]
  exact ⟨by ring, rfl⟩

/-- The within-limb shift to the left is the product by `10^r`: its low limbs, and what stands above them (R140). -/
theorem shiftLeftLimbs_eq (hr : r ≤ LD) {a : List Word} (ha : ∀ l ∈ a, l.toNat < BASE) :
    shiftLeftLimbs r a = (nat a.length (val a * 10 ^ r), val a * 10 ^ r / BASE ^ a.length) := by
  induction a with
  | nil => simp [shiftLeftLimbs, nat]
  | cons w ws ih =>
    have hws : ∀ l ∈ ws, l.toNat < BASE := fun l hl => ha l (List.mem_cons_of_mem w hl)
    have hcarry : val ws * 10 ^ r / BASE ^ ws.length < 10 ^ r :=
      Nat.div_lt_of_lt_mul (Nat.mul_lt_mul_of_pos_right (val_lt_of_limbs hws) (Nat.pow_pos (by decide)))
    obtain ⟨hkept, hout⟩ := shiftLeftInLimb_add (w := w.toNat) hr hcarry
    have hproduct : val (w :: ws) * 10 ^ r = w.toNat * 10 ^ r * BASE ^ ws.length + val ws * 10 ^ r := by
      rw [val_cons]; ring
    rw [shiftLeftLimbs, ih hws, hkept, hout, List.length_cons, hproduct, nat_succ_mul_add, div_BASE_pow_succ_mul_add]

/-- A limb shifted to the right below the digits `d` of the limb above it: the quotient and remainder of both by
`10^r` (R140). -/
theorem shiftRightInLimb_add {w d : Nat} (hr : r ≤ LD) :
    (shiftRightInLimb w r).1 + d * 10 ^ (LD - r) = (d * BASE + w) / 10 ^ r ∧
      (shiftRightInLimb w r).2 = (d * BASE + w) % 10 ^ r := by
  have hsplit : d * BASE + w = 10 ^ r * (d * 10 ^ (LD - r)) + w := by rw [← BASE_split hr]; ring
  rw [hsplit, Nat.mul_add_div (Nat.pow_pos (by decide)), Nat.mul_add_mod, shiftRightInLimb]
  exact ⟨Nat.add_comm _ _, rfl⟩

/-- A number below `m` units at position `b`, divided by `m`, is below `b`. -/
theorem carried_div_lt {m b x y : Nat} (hx : x < m) (hy : y < b) : (x * b + y) / m < b := by
  refine Nat.div_lt_of_lt_mul ?_
  calc x * b + y < x * b + b := Nat.add_lt_add_left hy _
    _ = (x + 1) * b := (Nat.succ_mul x b).symm
    _ ≤ m * b := Nat.mul_le_mul_right b hx

/-- The within-limb shift to the right is the division by `10^r` of the carried digits and the limbs below them: the
quotient's limbs and the remainder (R140). -/
theorem shiftRightLimbs_eq (hr : r ≤ LD) {a : List Word} (ha : ∀ l ∈ a, l.toNat < BASE) {carry : Nat}
    (hcarry : carry < 10 ^ r) :
    shiftRightLimbs r carry a =
      (nat a.length ((carry * BASE ^ a.length + val a) / 10 ^ r), (carry * BASE ^ a.length + val a) % 10 ^ r) := by
  have hpos : 0 < 10 ^ r := Nat.pow_pos (by decide)
  induction a generalizing carry with
  | nil => simp [shiftRightLimbs, nat, Nat.mod_eq_of_lt hcarry]
  | cons w ws ih =>
    have hw : w.toNat < BASE := ha w List.mem_cons_self
    have hws : ∀ l ∈ ws, l.toNat < BASE := fun l hl => ha l (List.mem_cons_of_mem w hl)
    obtain ⟨hkept, hout⟩ := shiftRightInLimb_add (w := w.toNat) (d := carry) hr
    have hrem : (carry * BASE + w.toNat) % 10 ^ r < 10 ^ r := Nat.mod_lt _ hpos
    have hlimb : (carry * BASE + w.toNat) / 10 ^ r < BASE := carried_div_lt hcarry hw
    have hrest : ((carry * BASE + w.toNat) % 10 ^ r * BASE ^ ws.length + val ws) / 10 ^ r < BASE ^ ws.length :=
      carried_div_lt hrem (val_lt_of_limbs hws)
    have hvalue : carry * BASE ^ (ws.length + 1) + val (w :: ws) =
        10 ^ r * ((carry * BASE + w.toNat) / 10 ^ r * BASE ^ ws.length) +
          ((carry * BASE + w.toNat) % 10 ^ r * BASE ^ ws.length + val ws) := by
      calc carry * BASE ^ (ws.length + 1) + val (w :: ws)
          = (carry * BASE + w.toNat) * BASE ^ ws.length + val ws := by rw [val_cons]; ring
        _ = (10 ^ r * ((carry * BASE + w.toNat) / 10 ^ r) + (carry * BASE + w.toNat) % 10 ^ r) * BASE ^ ws.length +
              val ws := by rw [Nat.div_add_mod]
        _ = _ := by ring
    rw [shiftRightLimbs, hkept, hout, ih hws hrem, List.length_cons, hvalue, Nat.mul_add_div hpos, Nat.mul_add_mod,
      nat_succ_mul_add, Nat.div_eq_of_lt hrest, Nat.add_zero, Nat.mod_eq_of_lt hlimb]

end

section
variable {c : Config} {a : List Word} {k : Nat}

/-- `10^k` by the whole limbs and the digits of `k` (R140). -/
theorem ten_pow_eq_limbs_mul_digits (k : Nat) : 10 ^ k = BASE ^ (k / LD) * 10 ^ (k % LD) := by
  rw [BASE_eq, ← Nat.pow_mul, ← Nat.pow_add, Nat.div_add_mod]

theorem mod_LD_le (k : Nat) : k % LD ≤ LD := (Nat.mod_lt k (by decide)).le

/-- A count of at most ND has at most `N` whole limbs (R140). -/
theorem whole_limbs_le (hk : k ≤ c.ND) : k / LD ≤ c.N := Nat.div_le_of_le_mul (hk.trans_eq (Nat.mul_comm _ _))

/-- The left shift's datapath: the digits and then the whole limbs of the `2N`-limb number make the product by `10^k`
(R138, R140). -/
theorem shiftLeftDatapath_eq (ha : magWf c a = true) (hk : k ≤ c.ND) :
    shiftLeftDatapath c a k = (nat c.N (val a * 10 ^ k % c.CAP), nat c.N (val a * 10 ^ k / c.CAP)) := by
  obtain ⟨hlen, hlimbs⟩ := (magWf_iff c a).mp ha
  have hq : k / LD ≤ c.N + c.N := (whole_limbs_le hk).trans (Nat.le_add_right _ _)
  have hwide : nat c.N (shiftLeftLimbs (k % LD) a).2 ++ (shiftLeftLimbs (k % LD) a).1 =
      nat (c.N + c.N) (val a * 10 ^ (k % LD)) := by
    rw [shiftLeftLimbs_eq (mod_LD_le k) hlimbs, hlen, nat_add]
  have hshifted : (nat (c.N + c.N) (val a * 10 ^ (k % LD))).drop (k / LD) ++ List.replicate (k / LD) 0#64 =
      nat (c.N + c.N) (val a * 10 ^ k) := by
    rw [drop_nat hq, nat_append_zeros, Nat.sub_add_cancel hq, ten_pow_eq_limbs_mul_digits k, Nat.mul_assoc,
      Nat.mul_comm (10 ^ (k % LD))]
  rw [shiftLeftDatapath, hwide, hshifted, drop_nat (Nat.le_add_left _ _), take_nat (Nat.le_add_left _ _),
    Nat.add_sub_cancel, Config.CAP, nat_mod]

/-- The right shift's datapath: the whole limbs and then the digits make the division by `10^k`, and the digits' loss
stands above the limbs' (R139, R140). -/
theorem shiftRightDatapath_eq (ha : magWf c a = true) (hk : k ≤ c.ND) :
    shiftRightDatapath c a k = (nat c.N (val a / 10 ^ k), nat c.N (val a % 10 ^ k)) := by
  have hq := whole_limbs_le hk
  have hkept : List.replicate (k / LD) 0#64 ++ a.take (c.N - k / LD) = nat c.N (val a / BASE ^ (k / LD)) :=
    (nat_div_limbs ha hq).symm
  have hlost : val (a.drop (c.N - k / LD)) = val a % BASE ^ (k / LD) := by
    rw [drop_of_wf ha (Nat.sub_le _ _), Nat.sub_sub_self hq, val_nat_mod]
  have hfits : val a / BASE ^ (k / LD) < BASE ^ c.N := (Nat.div_le_self _ _).trans_lt (val_lt_CAP ha)
  rw [shiftRightDatapath, hkept, hlost,
    shiftRightLimbs_eq (mod_LD_le k) (fun _ => nat_limb_lt) (Nat.pow_pos (by decide)), nat_length,
    Nat.zero_mul, Nat.zero_add, val_nat hfits, Nat.div_div_eq_div_mul, ten_pow_eq_limbs_mul_digits k, Nat.mod_mul,
    Nat.add_comm (val a % _), Nat.mul_comm (BASE ^ (k / LD)) (_ % _)]

end

/-- Settles O56: each datapath is its contract, as a function of the operand and the count. -/
theorem digitShiftDatapathsMeetTheirContracts : Obligations.DigitShiftDatapathsMeetTheirContracts :=
  fun _ _ _ ha hk => ⟨shiftLeftDatapath_eq ha hk, shiftRightDatapath_eq ha hk⟩

end Sys2Proof.Machine
end

section
/-! Natural multiplication (45_natural_multiply.md): NMULL (R145) and NMUL (R147), and the schoolbook datapaths (R146,
R148). -/

namespace Sys2Proof.Machine

open Sys2Proof

/-! ### The commands -/

/-- A command that is done with a Natural number in a value register and a number in a scalar register: it completes,
and each register holds its number. -/
theorem exec_putV_putS {i : Instr} {s : State} {vd : VReg} {sx : SReg} {v n : Nat} (h : s.running) (hi : i.wf = true)
    (hv : v < s.cfg.CAP) (hn : n < 2 ^ 64) (he : exec i s = runCommand i s (.done ((s.putV vd v).putS sx n))) :
    ∃ t, exec i s = .next t ∧ completedWriting [vd] [sx] s t ∧ holds s.cfg false v (t.getV vd) ∧
      t.word sx = n := by
  rw [State.putV_eq, State.putS_eq] at he
  refine ⟨_, exec_done h hi he, completedWriting_setV_setS s vd sx _ _, ?_, ?_⟩
  · rw [State.getV_setCC, State.getV_setS, State.getV_setV_same]
    exact holds_natural hv
  · rw [State.word_setCC, State.word_setS_same _ sx hn]

/-- NMULL of a limb (R145). -/
theorem exec_nmull_of_limb {s : State} {sb : SReg} (h : s.word sb < BASE) (vd : VReg) (sx : SReg) (va : VReg) :
    exec (.nmull vd sx va sb) s = runCommand (.nmull vd sx va sb) s
      (.done ((s.putV vd (s.magVal va * s.word sb % s.cfg.CAP)).putS sx (s.magVal va * s.word sb / s.cfg.CAP))) :=
  exec_of_not_check (Nat.not_le.mpr h) rfl

/-- NMUL splits the product at CAP as a left shift by the factor `val(b)` does (R136, R147). -/
theorem exec_nmul (vd vx va vb : VReg) (s : State) :
    exec (.nmul vd vx va vb) s =
      runCommand (.nmul vd vx va vb) s (.done (shiftLeftMag vd vx va (s.magVal vb) s)) := rfl

/-- Settles O38: each pair is the remainder and quotient of the product by CAP; the quotient is a limb when the second
factor is one, and a Natural when it is one. -/
theorem naturalMultiplyIsExact : Obligations.NaturalMultiplyIsExact := by
  intro vd vx va vb sx sb s hwf hrun
  refine ⟨encodedAs_fields (.nmull vd sx va sb), encodedAs_fields (.nmul vd vx va vb), fun hlimb => ?nmull,
    fun hlimb => ?limbRange, fun hne => ?nmul⟩
  case nmull =>
    have hover : s.magVal va * s.word sb / s.cfg.CAP < BASE :=
      Nat.div_lt_of_lt_mul (Nat.mul_lt_mul'' (State.magVal_lt hwf va) hlimb)
    obtain ⟨t, hexec, hframe, hd, hx⟩ := exec_putV_putS hrun rfl (Nat.mod_lt _ (CAP_pos s.cfg))
      (hover.trans BASE_lt_word) (exec_nmull_of_limb hlimb vd sx va)
    refine ⟨t, hexec, hframe, hd, hx, hx.trans_lt hover, ?_⟩
    obtain ⟨-, -, hlow⟩ := hd
    calc s.magVal va * s.word sb = _ := (Nat.div_add_mod' (s.magVal va * s.word sb) s.cfg.CAP).symm
      _ = t.word sx * s.cfg.CAP + t.magVal vd := by rw [← hlow, ← hx]; rfl
  case limbRange => exact raisesFault_of hrun rfl (exec_of_check hlimb rfl)
  case nmul =>
    exact exec_shiftLeftMag hwf hrun (bne_iff_ne.mpr hne) hne (State.magVal_lt hwf vb).le (exec_nmul vd vx va vb s)

/-! ### The multiplier by one limb of R146 -/

/-- The limb and carry of one `multiplyWord` and `rebalance`: those of the limb's product with the carry in added
(R146). -/
theorem multiplyWord_rebalance (x w carry : Nat) :
    (rebalance ((multiplyWord x w).1 + carry) 0).1 = (x * w + carry) % BASE ∧
      (multiplyWord x w).2 + (rebalance ((multiplyWord x w).1 + carry) 0).2 = (x * w + carry) / BASE := by
  have hsplit : x * w + carry = BASE * (x * w / BASE) + (x * w % BASE + carry) := by
    rw [← Nat.add_assoc, Nat.div_add_mod]
  rw [hsplit, Nat.mul_add_mod, Nat.mul_add_div BASE_pos, multiplyWord, rebalance, Nat.zero_add]
  exact ⟨rfl, rfl⟩

/-- The multiplier by one limb gives the low limbs of the product, and the part of it above them as its carry (R145,
R146). -/
theorem mulLimbDatapath_eq (w : Nat) (a : List Word) :
    mulLimbDatapath w a = (nat a.length (val a * w), val a * w / BASE ^ a.length) := by
  induction a with
  | nil => simp [mulLimbDatapath, nat]
  | cons x xs ih =>
    obtain ⟨hlimb, hcarry⟩ := multiplyWord_rebalance x.toNat w (val xs * w / BASE ^ xs.length)
    have hproduct : val (x :: xs) * w = x.toNat * w * BASE ^ xs.length + val xs * w := by rw [val_cons]; ring
    rw [mulLimbDatapath, ih, hlimb, hcarry, List.length_cons, hproduct, nat_succ_mul_add, div_BASE_pow_succ_mul_add]

/-- The multiplier by one limb on a magnitude of the build. -/
theorem mulLimbDatapath_of_wf {c : Config} {a : List Word} (ha : magWf c a = true) (w : Nat) :
    mulLimbDatapath w a = (nat c.N (val a * w), val a * w / c.CAP) := by
  obtain ⟨hlen, -⟩ := (magWf_iff c a).mp ha
  rw [mulLimbDatapath_eq, hlen, Config.CAP]

/-! ### The accumulation of R148 -/

/-- What a number holds above CAP is not in its low `N` limbs. -/
theorem nat_CAP_mul_add (c : Config) (q r : Nat) : nat c.N (c.CAP * q + r) = nat c.N r := by
  rw [Config.CAP, ← nat_mod, Nat.mul_add_mod, nat_mod]

/-- The numbers of one accumulation step: what the quotients by `m` hold, and what is left of the remainders. -/
theorem add_mul_eq_split (m t x k : Nat) :
    t + x * k = m * (t / m + x / m * k + x % m * k / m) + (t % m + x % m * k % m) := by
  calc t + x * k = (m * (t / m) + t % m) + (m * (x / m) + x % m) * k := by rw [Nat.div_add_mod, Nat.div_add_mod]
    _ = m * (t / m + x / m * k) + t % m + x % m * k := by ring
    _ = m * (t / m + x / m * k) + t % m + (m * (x % m * k / m) + x % m * k % m) := by rw [Nat.div_add_mod]
    _ = _ := by ring

section
variable {c : Config} {a : List Word}

/-- One step of the accumulation: accumulators that hold `t` come to hold `t + val(a)·w·BASE^j` (R148). -/
theorem mulLoop_cons (ha : magWf c a = true) (w : Word) (ws : List Word) (j t : Nat) :
    mulLoop c a (w :: ws) j (nat c.N t) (t / c.CAP) =
      mulLoop c a ws (j + 1) (nat c.N (t + val a * w.toNat * BASE ^ j))
        ((t + val a * w.toNat * BASE ^ j) / c.CAP) := by
  have hsplit := add_mul_eq_split c.CAP t (val a * w.toNat) (BASE ^ j)
  have hval : ∀ v, val (nat c.N v) = v % c.CAP := val_nat_mod c.N
  rw [mulLoop, mulLimbDatapath_of_wf ha, addLimbs_of_wf (magWf_nat c _) (magWf_nat c _), hval, hval, hval, Nat.mod_mod,
    hsplit, nat_CAP_mul_add, Nat.mul_add_div (CAP_pos c)]

/-- The accumulation over the limbs `ws`, the least significant first: it adds the product of `a` and their number at
limb position `j` (R148). -/
theorem mulLoop_eq (ha : magWf c a = true) (ws : List Word) (j t : Nat) :
    mulLoop c a ws j (nat c.N t) (t / c.CAP) =
      (nat c.N (t + val a * val ws.reverse * BASE ^ j), (t + val a * val ws.reverse * BASE ^ j) / c.CAP) := by
  induction ws generalizing j t with
  | nil => simp [mulLoop]
  | cons w ws ih =>
    have hnumber : val (w :: ws).reverse = val ws.reverse * BASE + w.toNat := by
      rw [List.reverse_cons, val_append, val_cons]; simp
    have htotal : t + val a * w.toNat * BASE ^ j + val a * val ws.reverse * BASE ^ (j + 1) =
        t + val a * val (w :: ws).reverse * BASE ^ j := by rw [hnumber]; ring
    rw [mulLoop_cons ha, ih, htotal]

/-- The schoolbook multiplier computes Natural `multiply`, whatever the limbs of its second operand (R147, R148). -/
theorem mulDatapath_eq_mulMag (ha : magWf c a = true) (b : List Word) : mulDatapath c a b = mulMag c a b := by
  have hloop := mulLoop_eq ha b.reverse 0 0
  rw [Nat.zero_div, List.reverse_reverse, Nat.pow_zero, Nat.mul_one, Nat.zero_add] at hloop
  rw [mulDatapath, hloop, mulMag, Config.CAP, nat_mod]

end

/-- Settles O57: each datapath is its contract, as a function of the operands. -/
theorem schoolbookMultiplierMeetsItsContract : Obligations.SchoolbookMultiplierMeetsItsContract := by
  intro c a b w ha _ _
  refine ⟨?_, mulDatapath_eq_mulMag ha b⟩
  rw [mulLimbDatapath_of_wf ha, Config.CAP, nat_mod]

end Sys2Proof.Machine
end

section
/-! Natural division (46_natural_divide.md): NDIVL (R155) and NDIV (R157), the short division (R156), and the fast paths
and the long division by a normalised divisor (R158, R159). -/

namespace Sys2Proof.Machine

open Sys2Proof

/-! ### The commands -/

/-- NDIVL of a nonzero limb (R155). -/
theorem exec_ndivl_of_limb {s : State} {sb : SReg} (h : s.word sb < BASE) (h0 : s.word sb ≠ 0) (vd : VReg) (sx : SReg)
    (va : VReg) :
    exec (.ndivl vd sx va sb) s = runCommand (.ndivl vd sx va sb) s
      (.done ((s.putV vd (s.magVal va / s.word sb)).putS sx (s.magVal va % s.word sb))) :=
  exec_of_not_check h0 (exec_of_not_check (Nat.not_le.mpr h) rfl)

theorem exec_ndiv (vd vx va vb : VReg) (s : State) :
    exec (.ndiv vd vx va vb) s = runCommand (.ndiv vd vx va vb) s
      (.writing (divMag s.cfg (s.mag va) (s.mag vb)) fun p =>
        (s.setV vd { sign := false, mag := p.1 }).setV vx { sign := false, mag := p.2 }) := rfl

/-- NDIV splits the dividend at the divisor as a right shift by the factor `val(b)` does (R137, R157). -/
theorem exec_ndiv_of_ne_zero {s : State} {vb : VReg} (h : s.magVal vb ≠ 0) (vd vx va : VReg) :
    exec (.ndiv vd vx va vb) s =
      runCommand (.ndiv vd vx va vb) s (.done (shiftRightMag vd vx va (s.magVal vb) s)) := by
  rw [exec_ndiv, divMag_of_pos h, Completion.writing_ok]
  rfl

/-- Settles O39: the results are the quotient and remainder of the dividend, the quotient at most the dividend and the
remainder below the divisor. -/
theorem naturalDivideIsEuclidean : Obligations.NaturalDivideIsEuclidean := by
  intro vd vx va vb sx sb s hwf hrun
  refine ⟨encodedAs_fields (.ndivl vd sx va sb), encodedAs_fields (.ndiv vd vx va vb), fun hlimb hne0 => ?ndivl,
    fun hlimb => ?limbRange, fun hzero => ?limbZero, fun hne hne0 => ?ndiv, fun hne hzero => ?zero⟩
  case ndivl =>
    have hquotient : s.magVal va / s.word sb < s.cfg.CAP :=
      (Nat.div_le_self _ _).trans_lt (State.magVal_lt hwf va)
    have hremainder : s.magVal va % s.word sb < s.word sb := Nat.mod_lt _ (Nat.pos_of_ne_zero hne0)
    obtain ⟨t, hexec, hframe, hd, hx⟩ := exec_putV_putS hrun rfl hquotient
      (hremainder.trans (State.word_lt s sb)) (exec_ndivl_of_limb hlimb hne0 vd sx va)
    refine ⟨t, hexec, hframe, hd, hx, ?_, hx.trans_lt hremainder⟩
    obtain ⟨-, -, hval⟩ := hd
    calc s.magVal va = _ := (Nat.div_add_mod' (s.magVal va) (s.word sb)).symm
      _ = t.magVal vd * s.word sb + t.word sx := by rw [← hval, ← hx]; rfl
  case limbRange => exact raisesFault_of hrun rfl (exec_of_check hlimb rfl)
  case limbZero =>
    have hlimb : ¬ BASE ≤ s.word sb := Nat.not_le.mpr (hzero.trans_lt BASE_pos)
    exact raisesFault_of hrun rfl (exec_of_check hzero (exec_of_not_check hlimb rfl))
  case ndiv =>
    have hndiv : (Instr.ndiv vd vx va vb).wf = true := bne_iff_ne.mpr hne
    obtain ⟨t, hexec, hframe, hd, hx, hidentity⟩ :=
      exec_shiftRightMag hwf hrun hndiv hne (exec_ndiv_of_ne_zero hne0 vd vx va)
    have ⟨_, _, hremainder⟩ := hx
    exact ⟨t, hexec, hframe, hd, hx, hidentity, hremainder.trans_lt (Nat.mod_lt _ (Nat.pos_of_ne_zero hne0))⟩
  case zero =>
    exact raisesFault_of_writing hrun (bne_iff_ne.mpr hne) (exec_ndiv vd vx va vb s) (divMag_of_zero hzero)

/-! ### Division limb by limb

Short division (R156) and the outer loop of long division (R159) are one recursion: a limb of the dividend goes below
the remainder so far, and the quotient of the two is a limb. -/

/-- The limbs of the quotient by `d`, and the remainder, of the number that has `rem` above the limbs `a`. -/
def limbDivision (d rem : Nat) (a : List Word) : List Word × Nat :=
  (nat a.length ((rem * BASE ^ a.length + val a) / d), (rem * BASE ^ a.length + val a) % d)

theorem limbDivision_nil {d rem : Nat} (h : rem < d) : limbDivision d rem [] = ([], rem) := by
  simp [limbDivision, nat, Nat.mod_eq_of_lt h]

theorem limbDivision_zero (d : Nat) (a : List Word) : limbDivision d 0 a = (nat a.length (val a / d), val a % d) := by
  rw [limbDivision, Nat.zero_mul, Nat.zero_add]

/-- One limb of a division: its quotient with the remainder above it, and then the rest of the limbs below what
remains (R156, R159). -/
theorem limbDivision_cons {d rem : Nat} {l : Word} {ls : List Word} (hrem : rem < d)
    (ha : ∀ x ∈ l :: ls, x.toNat < BASE) :
    limbDivision d rem (l :: ls) =
      (BitVec.ofNat 64 ((rem * BASE + l.toNat) / d) :: (limbDivision d ((rem * BASE + l.toNat) % d) ls).1,
        (limbDivision d ((rem * BASE + l.toNat) % d) ls).2) := by
  obtain ⟨hl, hls⟩ := List.forall_mem_cons.mp ha
  have hd : 0 < d := Nat.zero_lt_of_lt hrem
  have hlimb : (rem * BASE + l.toNat) / d < BASE := carried_div_lt hrem hl
  have hrest : ((rem * BASE + l.toNat) % d * BASE ^ ls.length + val ls) / d < BASE ^ ls.length :=
    carried_div_lt (Nat.mod_lt _ hd) (val_lt_of_limbs hls)
  have hvalue : rem * BASE ^ (l :: ls).length + val (l :: ls) =
      d * ((rem * BASE + l.toNat) / d * BASE ^ ls.length) +
        ((rem * BASE + l.toNat) % d * BASE ^ ls.length + val ls) := by
    calc rem * BASE ^ (l :: ls).length + val (l :: ls)
        = (rem * BASE + l.toNat) * BASE ^ ls.length + val ls := by rw [val_cons, List.length_cons]; ring
      _ = (d * ((rem * BASE + l.toNat) / d) + (rem * BASE + l.toNat) % d) * BASE ^ ls.length + val ls := by
          rw [Nat.div_add_mod]
      _ = _ := by ring
  rw [limbDivision, hvalue, Nat.mul_add_div hd, Nat.mul_add_mod, List.length_cons, nat_succ_mul_add,
    Nat.div_eq_of_lt hrest, Nat.add_zero, Nat.mod_eq_of_lt hlimb, limbDivision]

/-- Short division divides (R155, R156). -/
theorem divLimbDatapath_eq {d rem : Nat} {a : List Word} (hrem : rem < d) (ha : ∀ l ∈ a, l.toNat < BASE) :
    divLimbDatapath d rem a = limbDivision d rem a := by
  induction a generalizing rem with
  | nil => exact (limbDivision_nil hrem).symm
  | cons l ls ih =>
    have hnext : (divTwoByOne rem l.toNat d).2 < d := Nat.mod_lt _ (Nat.zero_lt_of_lt hrem)
    rw [divLimbDatapath, ih hnext (List.forall_mem_cons.mp ha).2, limbDivision_cons hrem ha, divTwoByOne]

/-! ### One quotient limb of R159 -/

/-- The correction ends at the quotient when it starts at most `fuel` above it (R159). -/
theorem correctLimb_eq {bn rem : Nat} (hbn : 0 < bn) {fuel qh : Nat} (hle : rem / bn ≤ qh)
    (hge : qh ≤ rem / bn + fuel) : correctLimb bn rem fuel qh = rem / bn := by
  induction fuel generalizing qh with
  | zero => exact Nat.le_antisymm hge hle
  | succ fuel ih =>
    rw [correctLimb]
    split
    case isTrue htest =>
      have hlt : rem / bn < qh := (Nat.div_lt_iff_lt_mul hbn).mpr htest
      exact ih (Nat.le_sub_one_of_lt hlt) (Nat.sub_le_of_le_add hge)
    case isFalse htest =>
      have hnot : ¬ rem / bn < qh := mt (Nat.div_lt_iff_lt_mul hbn).mp htest
      exact Nat.le_antisymm (Nat.not_lt.mp hnot) hle

section
variable {n bn rem : Nat}

/-- The estimate of a quotient limb is the quotient of the numbers cut at limb position `n`, or the largest limb when
that is less (R159). -/
theorem quotientLimb_eq_correctLimb (htop : 0 < bn / BASE ^ n) :
    quotientLimb (n + 1) bn rem =
      correctLimb bn rem 11 (min (BASE - 1) (rem / BASE ^ n / (bn / BASE ^ n))) := by
  have hr0 : rem / BASE ^ (n + 1) = rem / BASE ^ n / BASE := by rw [Nat.pow_succ, Nat.div_div_eq_div_mul]
  have hparts : rem / BASE ^ n / BASE * BASE + rem / BASE ^ n % BASE = rem / BASE ^ n := Nat.div_add_mod' _ _
  rw [quotientLimb, Nat.add_sub_cancel, hr0]
  refine congrArg _ ?_
  split
  case isTrue hhigh =>
    refine (min_eq_left ((Nat.le_div_iff_mul_le htop).mpr ?_)).symm
    calc (BASE - 1) * (bn / BASE ^ n) ≤ BASE * (rem / BASE ^ n / BASE) := Nat.mul_le_mul (Nat.sub_le _ _) hhigh
      _ ≤ rem / BASE ^ n := Nat.mul_div_le _ _
  case isFalse hhigh =>
    have hlimb := divTwoByOne_quotient_lt (Nat.mod_lt (rem / BASE ^ n) BASE_pos) (Nat.not_le.mp hhigh)
    rw [divTwoByOne, hparts] at hlimb ⊢
    exact (min_eq_right (Nat.le_sub_one_of_lt hlimb)).symm

/-- The estimate is the quotient or more, as it leaves out the lower limbs of the divisor (R159). -/
theorem quotient_le_estimate (htop : 0 < bn / BASE ^ n) (hrem : rem < bn * BASE) :
    rem / bn ≤ min (BASE - 1) (rem / BASE ^ n / (bn / BASE ^ n)) := by
  refine le_min (Nat.le_sub_one_of_lt (Nat.div_lt_of_lt_mul hrem)) ?_
  rw [Nat.div_div_eq_div_mul]
  exact Nat.div_le_div_left (Nat.mul_div_le bn _) (Nat.mul_pos (BASE_pow_pos n) htop)

/-- The estimate exceeds the quotient by at most 10 when the top limb of the divisor has all its digits (R159). -/
theorem estimate_le_quotient_add (htop : 10 ^ 17 ≤ bn / BASE ^ n) :
    min (BASE - 1) (rem / BASE ^ n / (bn / BASE ^ n)) ≤ rem / bn + 10 := by
  generalize he : min (BASE - 1) (rem / BASE ^ n / (bn / BASE ^ n)) = e
  have hlimb : e ≤ BASE := he ▸ (min_le_left _ _).trans (Nat.sub_le _ _)
  have hcut : e * (bn / BASE ^ n) ≤ rem / BASE ^ n :=
    (Nat.mul_le_mul_right _ (he ▸ min_le_right _ _)).trans (Nat.div_mul_le_self _ _)
  have hfull : BASE ≤ 10 * (bn / BASE ^ n) := Nat.mul_le_mul_left 10 htop
  have hdivisor : bn ≤ (bn / BASE ^ n + 1) * BASE ^ n := (Nat.lt_div_mul_add (BASE_pow_pos n)).le.trans_eq (by ring)
  have hbn : 0 < bn := Nat.pos_of_div_pos (Nat.zero_lt_of_lt htop)
  rw [← Nat.add_mul_div_right _ 10 hbn, Nat.le_div_iff_mul_le hbn]
  calc e * bn ≤ e * ((bn / BASE ^ n + 1) * BASE ^ n) := Nat.mul_le_mul_left e hdivisor
    _ = (e * (bn / BASE ^ n) + e) * BASE ^ n := by ring
    _ ≤ (rem / BASE ^ n + 10 * (bn / BASE ^ n)) * BASE ^ n :=
        Nat.mul_le_mul_right _ (Nat.add_le_add hcut (hlimb.trans hfull))
    _ = rem / BASE ^ n * BASE ^ n + 10 * (bn / BASE ^ n * BASE ^ n) := by ring
    _ ≤ rem + 10 * bn := Nat.add_le_add (Nat.div_mul_le_self _ _) (Nat.mul_le_mul_left 10 (Nat.div_mul_le_self _ _))

/-- A quotient limb by a normalised divisor is exact (R159). -/
theorem quotientLimb_eq (htop : 10 ^ 17 ≤ bn / BASE ^ n) (hrem : rem < bn * BASE) :
    quotientLimb (n + 1) bn rem = rem / bn := by
  have hpos : 0 < bn / BASE ^ n := Nat.zero_lt_of_lt htop
  rw [quotientLimb_eq_correctLimb hpos]
  exact correctLimb_eq (Nat.pos_of_div_pos hpos) (quotient_le_estimate hpos hrem)
    ((estimate_le_quotient_add htop).trans (Nat.le_succ _))

/-- The outer loop of R159 divides by a normalised divisor. -/
theorem divLoop_eq {a : List Word} (htop : 10 ^ 17 ≤ bn / BASE ^ n) (hrem : rem < bn)
    (ha : ∀ l ∈ a, l.toNat < BASE) : divLoop (n + 1) bn rem a = limbDivision bn rem a := by
  induction a generalizing rem with
  | nil => exact (limbDivision_nil hrem).symm
  | cons l ls ih =>
    obtain ⟨hl, hls⟩ := List.forall_mem_cons.mp ha
    have hstep : rem * BASE + l.toNat < bn * BASE := by
      calc rem * BASE + l.toNat < rem * BASE + BASE := Nat.add_lt_add_left hl _
        _ = (rem + 1) * BASE := (Nat.succ_mul rem BASE).symm
        _ ≤ bn * BASE := Nat.mul_le_mul_right BASE hrem
    have hnext : (rem * BASE + l.toNat) % bn < bn := Nat.mod_lt _ (Nat.zero_lt_of_lt hrem)
    rw [divLoop, quotientLimb_eq htop hstep, ← Nat.mod_eq_sub_div_mul, ih hnext hls, limbDivision_cons hrem ha]

end

/-! ### The significant limbs of a divisor -/

theorem val_significant (b : List Word) : val (significant b) = val b := by
  induction b with
  | nil => rfl
  | cons l ls ih =>
    by_cases hl : l = 0#64
    · subst hl
      rw [significant, List.dropWhile_cons_of_pos rfl, ← significant, ih, val_cons]
      simp
    · rw [significant, List.dropWhile_cons_of_neg (by simpa using hl)]

theorem significant_limb_lt {b : List Word} (hb : ∀ l ∈ b, l.toNat < BASE) : ∀ l ∈ significant b, l.toNat < BASE :=
  fun l hl => hb l ((List.dropWhile_sublist _).subset hl)

/-- The first significant limb is not zero. -/
theorem head_ne_zero_of_significant {b ls : List Word} {l : Word} (h : significant b = l :: ls) : l.toNat ≠ 0 := by
  have hhead := List.head?_dropWhile_not (· == 0#64) b
  rw [← significant, h] at hhead
  intro hzero
  have hl : l = 0#64 := BitVec.eq_of_toNat_eq hzero
  simp [hl] at hhead

/-! ### The long division -/

/-- The digit shift of R159 gives the top limb of the divisor all its digits. -/
theorem normalised_top_ge {l : Word} (ls : List Word) (h0 : l.toNat ≠ 0) (hl : l.toNat < BASE) :
    10 ^ 17 ≤ val (l :: ls) * 10 ^ (LD - leastDigits 19 1 l.toNat) / BASE ^ ls.length := by
  rw [Nat.le_div_iff_mul_le (BASE_pow_pos _)]
  calc 10 ^ 17 * BASE ^ ls.length
      ≤ l.toNat * 10 ^ (LD - leastDigits 19 1 l.toNat) * BASE ^ ls.length :=
        Nat.mul_le_mul_right _ (normalised_divisor_ge h0 hl)
    _ = l.toNat * BASE ^ ls.length * 10 ^ (LD - leastDigits 19 1 l.toNat) := Nat.mul_right_comm _ _ _
    _ ≤ val (l :: ls) * 10 ^ (LD - leastDigits 19 1 l.toNat) :=
        Nat.mul_le_mul_right _ ((Nat.le_add_right _ _).trans_eq (val_cons l ls).symm)

section
variable {a b : List Word}

/-- The long division divides: the normalisation keeps the quotient and scales the remainder, and the limb of the
quotient above the dividend's is dropped (R159). -/
theorem longDivide_eq (ha : ∀ l ∈ a, l.toNat < BASE) (hb : ∀ l ∈ b, l.toNat < BASE) (h0 : val b ≠ 0) :
    longDivide a b = limbDivision (val b) 0 a := by
  obtain ⟨l, ls, hsig⟩ : ∃ l ls, significant b = l :: ls := by
    refine List.exists_cons_of_ne_nil fun hnil => h0 ?_
    rw [← val_significant, hnil, val_nil]
  have hl : l.toNat < BASE := significant_limb_lt hb l (hsig ▸ List.mem_cons_self)
  have htop := normalised_top_ge ls (head_ne_zero_of_significant hsig) hl
  rw [← hsig, val_significant] at htop
  have hshift : LD - leastDigits 19 1 l.toNat ≤ LD := Nat.sub_le _ _
  rw [longDivide, hsig, List.headD_cons, List.length_cons]
  generalize LD - leastDigits 19 1 l.toNat = k at htop hshift
  have hscale : 0 < 10 ^ k := Nat.pow_pos (by decide)
  have hfits : val a * 10 ^ k < BASE ^ (a.length + 1) :=
    Nat.mul_lt_mul_of_lt_of_le (val_lt_of_limbs ha) (ten_pow_le_BASE hshift) BASE_pos
  have hloop := divLoop_eq htop (Nat.mul_pos (Nat.pos_of_ne_zero h0) hscale)
    (a := nat (a.length + 1) (val a * 10 ^ k)) fun _ => nat_limb_lt
  rw [limbDivision_zero, nat_length, val_nat hfits, Nat.mul_div_mul_right _ _ hscale, Nat.mul_mod_mul_right] at hloop
  simp only [hloop, limbDivision_zero, Nat.mul_div_cancel _ hscale]
  rfl

/-- Division by one limb or by more divides, whatever the number of limbs of the dividend (R156, R159, R218). -/
theorem divideLimbs_eq (ha : ∀ l ∈ a, l.toNat < BASE) (hb : ∀ l ∈ b, l.toNat < BASE) (h0 : val b ≠ 0) :
    divideLimbs a b = (nat a.length (val a / val b), val a % val b) := by
  rw [divideLimbs, divLimbDatapath_eq (Nat.pos_of_ne_zero h0) ha, longDivide_eq ha hb h0, ite_self, limbDivision_zero]

end

/-- The datapath of NDIV computes Natural `divide`: each fast path gives the pair of its case, and the general path
divides (R157, R158, R159). -/
theorem divDatapath_eq_divMag {c : Config} {a b : List Word} (ha : magWf c a = true) (hb : magWf c b = true) :
    divDatapath c a b = divMag c a b := by
  obtain ⟨hlen, halimbs⟩ := (magWf_iff c a).mp ha
  obtain ⟨-, hblimbs⟩ := (magWf_iff c b).mp hb
  rw [divDatapath, ncmp_of_wf ha hb]
  split
  case isTrue hzero => exact (divMag_of_zero hzero).symm
  case isFalse hne =>
    rw [divMag_of_pos hne]
    split
    case isTrue hlt =>
      have hless : val a < val b := Nat.compare_eq_lt.mp hlt
      rw [Nat.div_eq_of_lt hless, Nat.mod_eq_of_lt hless, nat_val_of_wf ha]
    split
    case isTrue heq =>
      have hsame : val a = val b := Nat.compare_eq_eq.mp heq
      rw [hsame, Nat.div_self (Nat.pos_of_ne_zero hne), Nat.mod_self]
    split
    case isTrue => rfl
    case isFalse => rw [divideLimbs_eq halimbs hblimbs hne, hlen]

/-- Settles O58: each datapath is its contract; the short division starts with the remainder 0. -/
theorem longDivisionMeetsItsContract : Obligations.LongDivisionMeetsItsContract := by
  intro c a b d ha hb hpos _
  obtain ⟨hlen, hlimbs⟩ := (magWf_iff c a).mp ha
  refine ⟨?_, divDatapath_eq_divMag ha hb⟩
  rw [divLimbDatapath_eq hpos hlimbs, limbDivision_zero, hlen]

end Sys2Proof.Machine
end

section
/-! The frozen state and reset (60_exceptions.md, 70_reset_and_hazards.md): what a frozen unit does with a port
operation (R237, R238), which causes a command can raise (R232), and the reset values (R260). -/

namespace Sys2Proof.Machine

open Sys2Proof

/-! ### A port operation on a frozen unit -/

/-- A frozen unit refuses a HostIssue of any word without decoding it (R238). -/
theorem hostIssue_of_frozen {s : State} (h : s.status.frozen = true) (w : CmdWord) :
    hostIssue w s = .next (s.setCC .refused) :=
  if_pos h

/-- Settles O7: the step performs the HostIssue, which a frozen unit refuses. -/
theorem stepRefusesWhileFrozen : Obligations.StepRefusesWhileFrozen := by
  intro s w rest hinbox hfrozen
  refine ⟨(s.taken rest).setCC .refused, ?_, onlyCompletionCode_setCC (s.taken rest) .refused⟩
  calc step s = hostIssue w (s.taken rest) := step_of_inbox_cons hinbox
    _ = .next ((s.taken rest).setCC .refused) := hostIssue_of_frozen (s := s.taken rest) hfrozen w

/-- Everything a port operation but HostReset can do to a frozen unit: answer the host, or refuse a command (R237). -/
theorem performHostOp_of_frozen {op : HostOp} {s t : State} (hfrozen : s.status.frozen = true) (hop : op ≠ .reset)
    (he : performHostOp op s = .next t) : (∃ r, t = { s with reply := r }) ∨ t = s.setCC .refused := by
  cases op with
  | reset => exact absurd rfl hop
  | issue w =>
    rw [performHostOp, hostIssue_of_frozen hfrozen] at he
    cases he
    exact .inr rfl
  | readS _ | readT | readStatus | readConfig =>
    cases he
    exact .inl ⟨_, rfl⟩
  | writeS i w =>
    rw [performHostOp, hostWrite_of_frozen hfrozen] at he
    cases he
    exact .inl ⟨_, rfl⟩
  | writeT str =>
    rw [performHostOp, hostWrite_of_frozen hfrozen] at he
    split at he
    · cases he
    · cases he
      exact .inl ⟨_, rfl⟩

/-! ### Runs of a frozen unit -/

/-- `t` is frozen and holds what `s` holds in V, S, T, CAUSE and FCMD; CC is as in `s`, or REFUSED (R237). -/
def keepsFrozen (s t : State) : Prop :=
  t.v = s.v ∧ t.s = s.s ∧ t.text = s.text ∧ t.cfg = s.cfg ∧ t.status.frozen = true ∧
    t.status.cause = s.status.cause ∧ t.status.fcmd = s.status.fcmd ∧
    (t.status.cc = s.status.cc ∨ t.status.cc = .refused)

theorem keepsFrozen.refl {s : State} (h : s.status.frozen = true) : keepsFrozen s s :=
  ⟨rfl, rfl, rfl, rfl, h, rfl, rfl, .inl rfl⟩

theorem keepsFrozen.trans {s t u : State} (hst : keepsFrozen s t) (htu : keepsFrozen t u) : keepsFrozen s u := by
  obtain ⟨hv, hs, htext, hcfg, -, hcause, hfcmd, hcc⟩ := hst
  obtain ⟨hv', hs', htext', hcfg', hfrozen, hcause', hfcmd', hcc'⟩ := htu
  refine ⟨hv'.trans hv, hs'.trans hs, htext'.trans htext, hcfg'.trans hcfg, hfrozen, hcause'.trans hcause,
    hfcmd'.trans hfcmd, ?_⟩
  rcases hcc' with hsame | hrefused
  · rwa [hsame]
  · exact .inr hrefused

/-- A step of a frozen unit with no HostReset presented: it keeps what the unit holds, and presents no HostReset. -/
theorem step_of_frozen {s t : State} (hfrozen : s.status.frozen = true) (hreset : HostOp.reset ∉ s.inbox)
    (he : step s = .next t) : keepsFrozen s t ∧ HostOp.reset ∉ t.inbox := by
  cases hinbox : s.inbox with
  | nil =>
    rw [step_of_inbox_nil hinbox] at he
    cases he
    exact ⟨.refl hfrozen, hreset⟩
  | cons op rest =>
    rw [hinbox, List.mem_cons, not_or] at hreset
    obtain ⟨hop, hrest⟩ := hreset
    rw [step_of_inbox_cons hinbox] at he
    rcases performHostOp_of_frozen (s := s.taken rest) hfrozen (Ne.symm hop) he with ⟨r, rfl⟩ | rfl
    · exact ⟨.refl hfrozen, hrest⟩
    · exact ⟨⟨rfl, rfl, rfl, rfl, hfrozen, rfl, rfl, .inr rfl⟩, hrest⟩

/-- A run of `k + 1` steps that does not stop is a step and a run of `k` steps. -/
theorem run_succ_next {M : Host.Core} {k : Nat} {s t : M.State} (h : M.run (k + 1) s = .next t) :
    ∃ u, M.step s = .next u ∧ M.run k u = .next t := by
  rw [Host.Core.run] at h
  split at h
  case h_1 u hstep => exact ⟨u, hstep, h⟩
  case h_2 | h_3 => cases h

/-- Settles O13, by induction on the number of steps: each step keeps the frozen state and brings up no HostReset. -/
theorem frozenUnitKeepsEverythingUntilReset : Obligations.FrozenUnitKeepsEverythingUntilReset := by
  intro k
  induction k with
  | zero =>
    intro s t hfrozen _ hrun
    cases hrun
    exact keepsFrozen.refl hfrozen
  | succ k ih =>
    intro s t hfrozen hreset hrun
    obtain ⟨u, hstep, hrest⟩ := run_succ_next hrun
    obtain ⟨hkept, hreset'⟩ := step_of_frozen hfrozen hreset hstep
    have ⟨_, _, _, _, hfrozen', _⟩ := hkept
    exact hkept.trans (ih u t hfrozen' hreset' hrest)

/-! ### The reset values -/

/-- Positive zero is flag 0 and the number 0 (R36). -/
theorem holds_zero (c : Config) : holds c false 0 (Value.zero c) :=
  ⟨rfl, Value.wf_zero c, val_replicate_zero c.N⟩

/-- STATUS after reset is the word 0 (R35). -/
theorem Status.toWord_clear : Status.clear.toWord = 0#64 := by decide

/-- Settles O9: HostReset leaves the reset state of the build, with what the host has presented after it. -/
theorem resetLeavesTheResetValues : Obligations.ResetLeavesTheResetValues := by
  refine ⟨fun s rest hinbox => ?hostReset, fun c => ?resetWith⟩
  case hostReset =>
    refine ⟨(s.taken rest).hostReset, step_of_inbox_cons hinbox, Status.toWord_clear, rfl, rfl, rfl, rfl,
      fun r => ?_, State.resetWith_getS s.cfg⟩
    have hread : (s.taken rest).hostReset.getV r = Value.zero s.cfg := State.resetWith_getV s.cfg r
    rw [hread]
    exact holds_zero s.cfg
  case resetWith =>
    refine ⟨Status.toWord_clear, rfl, fun r => ?_, State.resetWith_getS c⟩
    rw [State.resetWith_getV]
    exact ⟨rfl, rfl⟩

/-! ### The causes a command can raise -/

/-- Integer `add` within the limb invariant reports CAPACITY_OVERFLOW alone: the smaller magnitude is subtracted from
the larger (R171, R172). -/
theorem addInt_error_of_wf {c : Config} {x y : Value} {e : Cause} (hx : Value.wf c x = true)
    (hy : Value.wf c y = true) (h : addInt c x y = .error e) : e = .capacityOverflow := by
  rcases addInt_spec hx hy with ⟨-, herror⟩ | ⟨-, z, hok, -⟩
  · exact (Except.error.inj (herror.symm.trans h)).symm
  · rw [hok] at h
    cases h

/-- What R232 allows the completion of command `i` started in `s` to be: done with STATUS left to the shared ending,
INVALID_FORMAT for a command that parses text, or a fault of the command's row. -/
def Completion.listedFor (i : Instr) (s : State) : Completion → Prop
  | .done s' => s'.status = s.status
  | .invalidFormat => parsesText i = true
  | .fault c => c ∈ causesBeyondDecode i

section
variable {i : Instr} {s : State}

/-- A check that raises a listed fault before the rest of the command. -/
theorem Completion.listedFor.check {p : Prop} [Decidable p] {cause : Cause} {c : Completion}
    (hcause : cause ∈ causesBeyondDecode i) (hc : c.listedFor i s) :
    (if p then .fault cause else c).listedFor i s := by
  split
  · exact hcause
  · exact hc

/-- An arithmetic result that is written to destinations, or a listed cause. -/
theorem Completion.listedFor.writing {α : Type} {r : Except Cause α} {write : α → State}
    (herror : ∀ e, r = .error e → e ∈ causesBeyondDecode i) (hwrite : ∀ x, (write x).status = s.status) :
    (Completion.writing r write).listedFor i s := by
  cases r with
  | ok x => exact hwrite x
  | error e => exact herror e rfl

/-- The sum of two Integers, where the command's row lists CAPACITY_OVERFLOW (R171, R174, R194, R195). -/
theorem Completion.listedFor.writingSum {x y : Value} (hx : Value.wf s.cfg x = true) (hy : Value.wf s.cfg y = true)
    (hlisted : Cause.capacityOverflow ∈ causesBeyondDecode i) (vd : VReg) :
    (Completion.writing (addInt s.cfg x y) fun z => s.setV vd z).listedFor i s :=
  .writing (fun _ he => addInt_error_of_wf hx hy he ▸ hlisted) fun _ => rfl

end

/-- Every command ends through `runCommand` with a completion that R232 lists for it. The commands are grouped by the
checks before the write and by what the arithmetic reports. -/
theorem exec_completion_listedFor {s : State} (h : s.wf = true) :
    ∀ i : Instr, ∃ c : Completion, exec i s = runCommand i s c ∧ c.listedFor i s
  | .nop | .nformat _ | .dformat _ | .sli _ _ | .vgets _ _ | .digcnt _ _ | .diszero _ _
  | .neq _ _ _ | .ngt _ _ _ | .nlt _ _ _ | .nge _ _ _ | .nle _ _ _
  | .ieq _ _ _ | .igt _ _ _ | .ilt _ _ _ | .ige _ _ _ | .ile _ _ _
  | .deq _ _ _ | .dgt _ _ _ | .dlt _ _ _ | .dge _ _ _ | .dle _ _ _
  | .vmov _ _ | .ncompl _ _ | .ineg _ _ | .nmul _ _ _ _ | .imul _ _ _ _ => ⟨.done _, rfl, rfl⟩
  | .vgetl _ _ _ | .pow10 _ _ | .rebal _ _ _ _ | .splith _ _ _ | .mulw _ _ _ _
  | .nshll _ _ _ _ | .nshrl _ _ _ _ | .nshld _ _ _ _ | .nshrd _ _ _ _ | .nmull _ _ _ _ =>
    ⟨_, rfl, .check (.head _) (Eq.refl s.status)⟩
  | .vsetl _ _ _ | .shlw _ _ _ _ | .shrw _ _ _ _ | .ndivl _ _ _ _ =>
    ⟨_, rfl, .check (.head _) (.check (.tail _ (.head _)) (Eq.refl s.status))⟩
  | .div2by1 _ _ _ _ _ =>
    ⟨_, rfl, .check (.head _) (.check (.tail _ (.head _)) (.check (.tail _ (.head _)) (Eq.refl s.status)))⟩
  | .dconst _ _ => by
    refine ⟨_, rfl, ?_⟩
    split
    · exact Eq.refl s.status
    · exact .head _
  | .nadd _ _ _ => ⟨_, rfl, .writing (fun _ he => addMag_error he ▸ .head _) fun _ => rfl⟩
  | .nsub _ _ _ => ⟨_, rfl, .writing (fun _ he => subMag_error he ▸ .head _) fun _ => rfl⟩
  | .ndiv _ _ _ _ => ⟨_, rfl, .writing (fun _ he => divMag_error he ▸ .head _) fun _ => rfl⟩
  | .idiv _ _ _ _ => ⟨_, rfl, .writing (fun _ he => divInt_error he ▸ .head _) fun _ => rfl⟩
  | .dmul _ _ _ => ⟨_, rfl, .writing (fun _ he => mulDec_error he ▸ .head _) fun _ => rfl⟩
  | .ddiv _ _ _ => by
    refine ⟨_, rfl, .writing (fun _ he => ?_) fun _ => rfl⟩
    rcases divDec_error he with rfl | rfl
    · exact .head _
    · exact .tail _ (.head _)
  | .iadd vd va vb | .dadd vd va vb =>
    ⟨_, rfl, .writingSum (State.magWf_mag h va) (State.magWf_mag h vb) (.head _) vd⟩
  | .isub vd va vb | .dsub vd va vb =>
    ⟨_, rfl, .writingSum (y := negate (s.getV vb)) (State.magWf_mag h va) (State.magWf_mag h vb) (.head _) vd⟩
  | .nparse _ | .dparse _ => by
    refine ⟨_, rfl, ?_⟩
    split
    · exact rfl
    · exact Eq.refl s.status

/-- Settles O15: a running unit records the command's listed completion as it is. -/
theorem commandsRaiseOnlyTheirListedCauses : Obligations.CommandsRaiseOnlyTheirListedCauses := by
  intro i s t hwf hrun hi he
  obtain ⟨c, hexec, hc⟩ := exec_completion_listedFor hwf i
  have ht : c.finish s (encode i) = t := by
    rw [hexec, runCommand_running c hrun hi] at he
    exact Host.Outcome.next.inj he
  subst ht
  cases c with
  | done s' =>
    have hstatus : s'.status = s.status := hc
    have hrun' : s'.status.frozen = false := hstatus ▸ hrun
    simp [hrun']
  | invalidFormat =>
    have hrun' : s.status.frozen = false := hrun
    have hparses : parsesText i = true := hc
    simp [hrun', hparses]
  | fault cause =>
    have hlisted : cause ∈ causesBeyondDecode i := hc
    simp [hlisted]

end Sys2Proof.Machine
end

section
/-! The Integer layer (47_integer.md): IADD and ISUB (R171, R172, R174), INEG (R173), IMUL (R175), IDIV (R176) and the
signed comparisons (R177 to R182). -/

namespace Sys2Proof.Machine

open Sys2Proof

/-! ### Signed sums -/

section
variable {i : Instr} {s : State} {vd : VReg} {x y : Value}

/-- A command that writes the sum of two Integers, when the magnitudes to be added fit (R171, R172). -/
theorem exec_writing_sum (hx : Value.wf s.cfg x = true) (hy : Value.wf s.cfg y = true) (h : s.running)
    (hi : i.wf = true) (he : exec i s = runCommand i s (.writing (addInt s.cfg x y) fun z => s.setV vd z))
    (hfits : x.sign = y.sign → val x.mag + val y.mag < s.cfg.CAP) :
    ∃ t, exec i s = .next t ∧ completedWriting [vd] [] s t ∧ magWf s.cfg (t.mag vd) = true ∧
      sval (t.getV vd) = sval x + sval y ∧
      (t.getV vd).sign = if x.sign = y.sign then x.sign else if val x.mag < val y.mag then y.sign else x.sign := by
  rcases addInt_spec hx hy with ⟨⟨hsign, hcap⟩, -⟩ | ⟨-, z, hok, hwf, hsum, hflag⟩
  · exact absurd (hfits hsign) (Nat.not_lt.mpr hcap)
  · obtain ⟨t, hexec, hframe, hread⟩ := exec_writing_ok (value := id) h hi he hok
    rw [id] at hread
    exact ⟨t, hexec, hframe, State.mag_of_getV hread ▸ hwf, hread ▸ hsum, hread ▸ hflag⟩

/-- A command that writes the sum of two Integers, when the magnitudes are added and leave the capacity (R171). -/
theorem raisesFault_of_writing_sum {write : Value → State} (h : s.running) (hi : i.wf = true)
    (he : exec i s = runCommand i s (.writing (addInt s.cfg x y) write)) (hsign : x.sign = y.sign)
    (hcap : s.cfg.CAP ≤ val x.mag + val y.mag) : raisesFault i .capacityOverflow s :=
  raisesFault_of_writing h hi he ((addInt_same hsign).trans (if_pos hcap))

end

theorem exec_iadd (vd va vb : VReg) (s : State) :
    exec (.iadd vd va vb) s = runCommand (.iadd vd va vb) s
      (.writing (addInt s.cfg (s.getV va) (s.getV vb)) fun z => s.setV vd z) := rfl

/-- ISUB adds the negated second operand (R174). -/
theorem exec_isub (vd va vb : VReg) (s : State) :
    exec (.isub vd va vb) s = runCommand (.isub vd va vb) s
      (.writing (addInt s.cfg (s.getV va) (negate (s.getV vb))) fun z => s.setV vd z) := rfl

/-- A flag agrees with the negated flag of another value exactly when the two flags differ (R174). -/
theorem sign_eq_negate_sign_iff (x y : Value) : x.sign = (negate y).sign ↔ x.sign ≠ y.sign := by
  rw [negate_sign, Bool.eq_not]

/-- Settles O40: both commands write a sum of Integers, ISUB that of the first operand and the negated second. -/
theorem iaddAndIsubAddSignedValues : Obligations.IaddAndIsubAddSignedValues := by
  intro vd va vb s hwf hrun a b
  have ha : Value.wf s.cfg a = true := State.magWf_mag hwf va
  have hb : Value.wf s.cfg b = true := State.magWf_mag hwf vb
  have hflip := sign_eq_negate_sign_iff a b
  refine ⟨encodedAs_fields (.iadd vd va vb), encodedAs_fields (.isub vd va vb), fun hfits => ?iadd,
    fun hsign hcap => ?iaddOverflow, fun hfits => ?isub, fun hsign hcap => ?isubOverflow⟩
  case iadd => exact exec_writing_sum ha hb hrun rfl (exec_iadd vd va vb s) hfits
  case iaddOverflow => exact raisesFault_of_writing_sum hrun rfl (exec_iadd vd va vb s) hsign hcap
  case isub =>
    obtain ⟨t, hexec, hframe, hmag, hsum, hflag⟩ := exec_writing_sum (y := negate b) ha hb hrun rfl
      (exec_isub vd va vb s) fun hsign => hfits (hflip.mp hsign)
    refine ⟨t, hexec, hframe, hmag, ?_, ?_⟩
    · rw [hsum, sval_negate, Int.sub_eq_add_neg]
    · rw [hflag]
      exact if_congr hflip rfl rfl
  case isubOverflow =>
    exact raisesFault_of_writing_sum hrun rfl (exec_isub vd va vb s) (hflip.mpr hsign) hcap

/-- Settles O41: the completion writes the negated value. -/
theorem inegTogglesTheFlag : Obligations.InegTogglesTheFlag := by
  intro vd va s hrun
  obtain ⟨t, hexec, hframe, hread⟩ :=
    exec_setV (i := .ineg vd va) (vd := vd) (x := negate (s.getV va)) hrun rfl rfl
  refine ⟨encodedAs_fields (.ineg vd va), t, hexec, hframe, ?_, (State.mag_of_getV hread).trans (negate_mag _), ?_⟩
  · rw [hread, negate_sign]
  · rw [hread, sval_negate]

/-! ### Signed products and quotients -/

/-- The signed value by the stored flag alone: the flag of a zero magnitude makes no difference (R11). -/
theorem sval_eq_ite (x : Value) : sval x = if x.sign then -(val x.mag : Int) else (val x.mag : Int) := by
  rw [sval]
  by_cases hzero : val x.mag = 0 <;> simp [hzero]

/-- The signed value of a register that holds a flag and a number. -/
theorem sval_of_holds {c : Config} {b : Bool} {v : Nat} {x : Value} (h : holds c b v x) :
    sval x = if b then -(v : Int) else (v : Int) := by
  obtain ⟨hsign, -, hval⟩ := h
  rw [sval_eq_ite, hsign, hval]

/-- The signed product has the XOR of the flags and the product of the magnitudes (R175). -/
theorem sval_mul (x y : Value) :
    sval x * sval y = if x.sign ^^ y.sign then -((val x.mag * val y.mag : Nat) : Int)
      else ((val x.mag * val y.mag : Nat) : Int) := by
  rw [sval_eq_ite, sval_eq_ite]
  cases x.sign <;> cases y.sign <;> simp

/-- The signed quotient truncated toward zero has the XOR of the flags and the floor of the magnitudes' ratio; its flag
makes no difference for a zero dividend (R176). -/
theorem sval_tdiv (x y : Value) :
    (sval x).tdiv (sval y) = if (if val x.mag = 0 then false else x.sign ^^ y.sign)
      then -((val x.mag / val y.mag : Nat) : Int) else ((val x.mag / val y.mag : Nat) : Int) := by
  rw [sval_eq_ite, sval_eq_ite]
  by_cases hzero : val x.mag = 0
  · simp [hzero]
  · cases x.sign <;> cases y.sign <;> simp [hzero]

/-- A command that is done with values of two different value registers written: it completes, and each register reads
back its value. -/
theorem exec_setV_setV {i : Instr} {s : State} {vd vx : VReg} {x y : Value} (h : s.running) (hi : i.wf = true)
    (hne : vd ≠ vx) (he : exec i s = runCommand i s (.done ((s.setV vd x).setV vx y))) :
    ∃ t, exec i s = .next t ∧ completedWriting [vd, vx] [] s t ∧ t.getV vd = x ∧ t.getV vx = y := by
  refine ⟨_, exec_done h hi he, completedWriting_setV_setV s vd vx x y, ?_, ?_⟩
  · rw [State.getV_setCC, State.getV_setV_ne _ _ hne, State.getV_setV_same]
  · rw [State.getV_setCC, State.getV_setV_same]

/-- Settles O42: the two registers are the remainder and quotient of the product of the magnitudes by CAP. -/
theorem imulMultipliesSignedValues : Obligations.ImulMultipliesSignedValues := by
  intro vd vx va vb s hwf hrun hne
  have himul : (Instr.imul vd vx va vb).wf = true := bne_iff_ne.mpr hne
  obtain ⟨t, hexec, hframe, hd, hx⟩ := exec_setV_setV
    (x := (mulInt s.cfg (s.getV va) (s.getV vb)).1) (y := (mulInt s.cfg (s.getV va) (s.getV vb)).2)
    hrun himul hne rfl
  have hlow : holds s.cfg ((s.getV va).sign ^^ (s.getV vb).sign) (s.magVal va * s.magVal vb % s.cfg.CAP)
      (t.getV vd) := hd ▸ holds_nat _ (Nat.mod_lt _ (CAP_pos s.cfg))
  have hover : holds s.cfg false (s.magVal va * s.magVal vb / s.cfg.CAP) (t.getV vx) :=
    hx ▸ holds_nat _ (product_div_lt (State.magVal_lt hwf va) (State.magVal_lt hwf vb))
  have ⟨_, _, hlowVal⟩ := hlow
  have ⟨_, _, hoverVal⟩ := hover
  have hidentity : s.magVal va * s.magVal vb = t.magVal vx * s.cfg.CAP + t.magVal vd := by
    calc s.magVal va * s.magVal vb = _ := (Nat.div_add_mod' (s.magVal va * s.magVal vb) s.cfg.CAP).symm
      _ = t.magVal vx * s.cfg.CAP + t.magVal vd := by rw [← hlowVal, ← hoverVal]; rfl
  refine ⟨encodedAs_fields (.imul vd vx va vb), t, hexec, hframe, hlow, hover, hidentity, fun hzero => ?_⟩
  have hproduct : s.magVal va * s.magVal vb = val (t.getV vd).mag := by
    rw [hidentity, hzero, Nat.zero_mul, Nat.zero_add]; rfl
  rw [sval_mul, sval_of_holds hlow, ← hlowVal, ← hproduct]
  rfl

/-- Integer `divide` by a nonzero magnitude (R176). -/
theorem divInt_of_pos {c : Config} {x y : Value} (h : val y.mag ≠ 0) :
    divInt c x y = .ok ({ sign := quotientSign x y, mag := nat c.N (val x.mag / val y.mag) },
      { sign := false, mag := nat c.N (val x.mag % val y.mag) }) := by
  rw [divInt, divMag_of_pos h]
  rfl

theorem divInt_of_zero {c : Config} {x y : Value} (h : val y.mag = 0) : divInt c x y = .error .divisionByZero := by
  rw [divInt, divMag_of_zero h]
  rfl

theorem exec_idiv (vd vx va vb : VReg) (s : State) :
    exec (.idiv vd vx va vb) s = runCommand (.idiv vd vx va vb) s
      (.writing (divInt s.cfg (s.getV va) (s.getV vb)) fun p => (s.setV vd p.1).setV vx p.2) := rfl

/-- Settles O43: the two registers are the quotient and remainder of the magnitudes, and truncation toward zero is the
floor of the magnitudes' ratio. -/
theorem idivDividesSignedValues : Obligations.IdivDividesSignedValues := by
  intro vd vx va vb s hwf hrun hne
  have hidiv : (Instr.idiv vd vx va vb).wf = true := bne_iff_ne.mpr hne
  have hval : s.magVal va < s.cfg.CAP := State.magVal_lt hwf va
  refine ⟨encodedAs_fields (.idiv vd vx va vb), fun hdivisor => ?divides, fun hzero => ?zero⟩
  case divides =>
    obtain ⟨t, hexec, hframe, hd, hx⟩ := exec_setV_setV hrun hidiv hne
      (by rw [exec_idiv, divInt_of_pos hdivisor, Completion.writing_ok])
    have hquotient : holds s.cfg (if s.magVal va = 0 then false else (s.getV va).sign ^^ (s.getV vb).sign)
        (s.magVal va / s.magVal vb) (t.getV vd) := hd ▸ holds_nat _ ((Nat.div_le_self _ _).trans_lt hval)
    have hremainder : holds s.cfg false (s.magVal va % s.magVal vb) (t.getV vx) :=
      hx ▸ holds_nat _ ((Nat.mod_le _ _).trans_lt hval)
    have ⟨_, _, hquotientVal⟩ := hquotient
    have ⟨_, _, hremainderVal⟩ := hremainder
    refine ⟨t, hexec, hframe, hquotient, hremainder, ?_, ?_⟩
    · rw [sval_of_holds hquotient, sval_tdiv]
      rfl
    · calc s.magVal va = _ := (Nat.div_add_mod' (s.magVal va) (s.magVal vb)).symm
        _ = t.magVal vd * s.magVal vb + t.magVal vx := by rw [← hquotientVal, ← hremainderVal]; rfl
  case zero => exact raisesFault_of_writing hrun hidiv (exec_idiv vd vx va vb s) (divInt_of_zero hzero)

/-! ### The signed comparisons -/

/-- Settles O44: the signed comparison is that of the signed values, and each command tests its outcome. -/
theorem integerComparisonsCompareSignedValues : Obligations.IntegerComparisonsCompareSignedValues := by
  intro sd va vb s hwf hrun
  have hcmp : icmp (s.getV va) (s.getV vb) = compare (sval (s.getV va)) (sval (s.getV vb)) :=
    icmp_of_wf (State.magWf_mag hwf va) (State.magWf_mag hwf vb)
  refine ⟨hcmp, ⟨encodedAs_fields (.ieq sd va vb), exec_truth hrun rfl ?eq rfl⟩,
    ⟨encodedAs_fields (.igt sd va vb), exec_truth hrun rfl ?gt rfl⟩,
    ⟨encodedAs_fields (.ilt sd va vb), exec_truth hrun rfl ?lt rfl⟩,
    ⟨encodedAs_fields (.ige sd va vb), exec_truth hrun rfl ?ge rfl⟩,
    ⟨encodedAs_fields (.ile sd va vb), exec_truth hrun rfl ?le rfl⟩⟩
  case eq => rw [hcmp, beq_iff_eq, compare_eq_iff_eq]
  case gt => rw [hcmp, beq_iff_eq, compare_gt_iff_gt]
  case lt => rw [hcmp, beq_iff_eq, compare_lt_iff_lt]
  case ge => rw [hcmp, bne_iff_ne, ne_eq, compare_lt_iff_lt, not_lt]
  case le => rw [hcmp, bne_iff_ne, ne_eq, compare_gt_iff_gt, not_lt]

end Sys2Proof.Machine
end

section
/-! The Decimal codec and the linear Decimal commands (48_decimal_codec_linear.md): DPARSE (R191, R192), DFORMAT (R193),
DADD and DSUB (R194, R195), DISZERO (R196), the comparisons (R197 to R201) and DCONST (R210). -/

namespace Sys2Proof.Machine

open Sys2Proof

/-! ### DPARSE -/

/-- A padded text of the grammar holds the number scaled to F fractional digits (R192). -/
theorem holds_parseDecimal {c : Config} (hc : c.wf = true) {t ip fp : List Byte} {isNeg : Bool}
    (h : isDecimalText c t isNeg ip fp) :
    holds c isNeg (digitsValue ip * 10 ^ c.F + digitsValue fp * 10 ^ (c.F - fp.length))
      { sign := isNeg, mag := parseLimbs c.N (padDecimal c ip fp) } := by
  obtain ⟨-, hK, -⟩ := (Config.wf_iff c).mp hc
  obtain ⟨⟨-, hipLen, hip⟩, ⟨hfpLen, hfp⟩, -⟩ := h
  have hdigits := padDecimal_all (c := c) hip hfp
  refine ⟨rfl, magWf_parseLimbs hdigits, ?_⟩
  rw [val_parseLimbs hdigits (padDecimal_length hK.le hipLen hfpLen), digitsValue_padDecimal hfpLen]

/-- DPARSE of a text of the grammar writes the parsed limbs (R191, R192). -/
theorem exec_dparse_of_text {s : State} {isNeg : Bool} {ip fp : List Byte}
    (h : isDecimalText s.cfg s.text isNeg ip fp) (vd : VReg) :
    exec (.dparse vd) s = runCommand (.dparse vd) s
      (.done (s.setV vd { sign := isNeg, mag := parseLimbs s.cfg.N (padDecimal s.cfg ip fp) })) := by
  rw [exec, execDparse, parseDecimal_of h]

/-- DPARSE of any other text (R191). -/
theorem exec_dparse_of_no_text {s : State} (h : ∀ isNeg ip fp, ¬ isDecimalText s.cfg s.text isNeg ip fp)
    (vd : VReg) : exec (.dparse vd) s = runCommand (.dparse vd) s .invalidFormat := by
  have hparse : parseDecimal s.cfg s.text = none :=
    Option.eq_none_iff_forall_ne_some.mpr fun ⟨isNeg, ip, fp⟩ hsome => h isNeg ip fp (parseDecimal_some hsome)
  rw [exec, execDparse, hparse]

/-- Settles O45: the walk over the text accepts exactly the grammar, and cuts a text as the grammar does. -/
theorem dparseReadsTheDecimalGrammar : Obligations.DparseReadsTheDecimalGrammar := by
  intro vd s hcfg hrun
  refine ⟨encodedAs_fields (.dparse vd), fun isNeg ip fp htext => ?parses, fun hno => ?invalidFormat⟩
  case parses =>
    obtain ⟨t, hexec, hframe, hread⟩ := exec_setV hrun rfl (exec_dparse_of_text htext vd)
    exact ⟨t, hexec, hframe, hread ▸ holds_parseDecimal hcfg htext⟩
  case invalidFormat => exact completesInvalidFormat_of hrun rfl (exec_dparse_of_no_text hno vd)

/-! ### DFORMAT -/

/-- The integer digits of a Decimal's text: at least one, and no other leading zero (R193). -/
def integerDigits (c : Config) (m : List Word) : List Byte :=
  if stripLeading ((digits m).take c.I) = [] then [zeroChar] else stripLeading ((digits m).take c.I)

/-- The fractional digits of a Decimal's text, without trailing zeros (R193). -/
def fractionDigits (c : Config) (m : List Word) : List Byte := stripTrailing ((digits m).drop c.I)

theorem formatDecimal_of_zero (c : Config) {x : Value} (h : val x.mag = 0) : formatDecimal c x = [zeroChar] :=
  if_pos h

/-- The text of a nonzero Decimal by its parts (R193). -/
theorem formatDecimal_of_ne_zero (c : Config) {x : Value} (h : val x.mag ≠ 0) :
    formatDecimal c x = (if x.sign then [minusChar] else []) ++ integerDigits c x.mag ++
      (if fractionDigits c x.mag = [] then [] else pointChar :: fractionDigits c x.mag) :=
  if_neg h

/-- A build has at least one integer limb (R5). -/
theorem one_le_I {c : Config} (hc : c.wf = true) : 1 ≤ c.I := by
  obtain ⟨-, hK, -⟩ := (Config.wf_iff c).mp hc
  exact Nat.mul_pos (Nat.sub_pos_of_lt hK) (by decide)

theorem I_add_F {c : Config} (hc : c.wf = true) : c.I + c.F = c.ND := by
  obtain ⟨-, hK, -⟩ := (Config.wf_iff c).mp hc
  rw [Config.I, Config.F, Config.ND, ← Nat.add_mul, Nat.sub_add_cancel hK.le]

section
variable {c : Config} {m : List Word}

theorem integerDigits_all (c : Config) (m : List Word) : (integerDigits c m).all isDigit = true := by
  unfold integerDigits
  split
  · decide
  · exact stripLeading_all (all_take (digits_all m) c.I)

theorem integerDigits_length (hc : c.wf = true) (m : List Word) :
    1 ≤ (integerDigits c m).length ∧ (integerDigits c m).length ≤ c.I := by
  unfold integerDigits
  split
  case isTrue => exact ⟨le_rfl, one_le_I hc⟩
  case isFalse hne =>
    exact ⟨List.length_pos_of_ne_nil hne, (stripLeading_length_le _).trans (List.length_take_le _ _)⟩

/-- The integer digits are `"0"` alone or do not start with `'0'`. -/
theorem integerDigits_head (c : Config) (m : List Word) :
    integerDigits c m = [zeroChar] ∨ (integerDigits c m).head? ≠ some zeroChar := by
  unfold integerDigits
  split
  · exact .inl rfl
  · exact .inr (stripLeading_head _)

/-- Stripping the leading zeros, and putting `"0"` for no digits, keeps the number. -/
theorem digitsValue_integerDigits (c : Config) (m : List Word) :
    digitsValue (integerDigits c m) = digitsValue ((digits m).take c.I) := by
  rw [← digitsValue_stripLeading ((digits m).take c.I), integerDigits]
  split
  case isTrue hnil => rw [hnil]; rfl
  case isFalse => rfl

/-- The digits after the integer digits are F of them. -/
theorem drop_I_length (hc : c.wf = true) (hm : magWf c m = true) : ((digits m).drop c.I).length = c.F := by
  rw [List.length_drop, digits_length, ((magWf_iff c m).mp hm).1, ← Config.ND, ← I_add_F hc,
    Nat.add_sub_cancel_left]

theorem fractionDigits_all (c : Config) (m : List Word) : (fractionDigits c m).all isDigit = true :=
  stripTrailing_all (all_drop (digits_all m) c.I)

theorem fractionDigits_length (hc : c.wf = true) (hm : magWf c m = true) : (fractionDigits c m).length ≤ c.F :=
  (stripTrailing_length_le _).trans_eq (drop_I_length hc hm)

/-- The two parts of the text spell the magnitude (R193). -/
theorem digitsValue_parts (hc : c.wf = true) (hm : magWf c m = true) :
    digitsValue (integerDigits c m) * 10 ^ c.F +
      digitsValue (fractionDigits c m) * 10 ^ (c.F - (fractionDigits c m).length) = val m := by
  have hlen := drop_I_length hc hm
  have hfraction := digitsValue_stripTrailing ((digits m).drop c.I)
  rw [hlen] at hfraction
  rw [digitsValue_integerDigits, fractionDigits, hfraction, ← digitsValue_digits ((magWf_iff c m).mp hm).2]
  conv_rhs => rw [← List.take_append_drop c.I (digits m), digitsValue_append, hlen]

/-- A sign, digits within the bounds, and a point only before fractional digits make a text of the grammar (R191). -/
theorem isDecimalText_of_parts {ip fp : List Byte} (isNeg : Bool) (hip : ip.all isDigit = true)
    (hipLen : 1 ≤ ip.length ∧ ip.length ≤ c.I) (hfp : fp.all isDigit = true) (hfpLen : fp.length ≤ c.F) :
    isDecimalText c ((if isNeg then [minusChar] else []) ++ ip ++ (if fp = [] then [] else pointChar :: fp))
      isNeg ip fp := by
  obtain ⟨hpos, hle⟩ := hipLen
  refine ⟨⟨hpos, hle, hip⟩, ⟨hfpLen, hfp⟩, ?_⟩
  by_cases hnil : fp = []
  · exact .inl ⟨hnil, by rw [if_pos hnil, List.append_nil]⟩
  · exact .inr (by rw [if_neg hnil])

/-- The text of a nonzero Decimal is a text of the grammar (R191, R193). -/
theorem isDecimalText_formatDecimal {x : Value} (hc : c.wf = true) (hx : Value.wf c x = true) (h : val x.mag ≠ 0) :
    isDecimalText c (formatDecimal c x) x.sign (integerDigits c x.mag) (fractionDigits c x.mag) := by
  rw [formatDecimal_of_ne_zero c h]
  exact isDecimalText_of_parts x.sign (integerDigits_all c x.mag) (integerDigits_length hc x.mag)
    (fractionDigits_all c x.mag) (fractionDigits_length hc hx)

/-- The text of a zero Decimal is a text of the grammar (R191, R193). -/
theorem isDecimalText_zero (hc : c.wf = true) : isDecimalText c [zeroChar] false [zeroChar] [] :=
  isDecimalText_of_parts false (by decide) ⟨le_rfl, one_le_I hc⟩ rfl (Nat.zero_le _)

end

/-- DFORMAT is done with the text of the Decimal (R193). -/
theorem exec_dformat {s : State} (hrun : s.running) (va : VReg) :
    exec (.dformat va) s = .next ((s.setText (formatDecimal s.cfg (s.getV va))).setCC .ok) :=
  exec_done hrun rfl rfl

/-- Settles O46: the text is the sign, the integer digits and the fractional digits, each stripped of its zeros. -/
theorem dformatWritesTheCanonicalText : Obligations.DformatWritesTheCanonicalText := by
  intro va s hwf hrun
  have hcfg : s.cfg.wf = true := ((State.wf_iff s).mp hwf).1
  have hmag : Value.wf s.cfg (s.getV va) = true := State.magWf_mag hwf va
  refine ⟨encodedAs_fields (.dformat va), _, exec_dformat hrun va, completedWritingText_setText s _,
    formatDecimal_length_le hcfg hmag, formatDecimal_of_zero s.cfg, fun hne => ?_⟩
  exact ⟨integerDigits s.cfg (s.mag va), fractionDigits s.cfg (s.mag va),
    isDecimalText_formatDecimal hcfg hmag hne, formatDecimal_of_ne_zero s.cfg hne, digitsValue_parts hcfg hmag,
    integerDigits_head s.cfg (s.mag va), stripTrailing_getLast _⟩

/-! ### DFORMAT, then DPARSE -/

/-- A value within the limb invariant is known by its flag and its number (R22). -/
theorem holds.eq {c : Config} {x y : Value} (hx : Value.wf c x = true) (hy : holds c x.sign (val x.mag) y) :
    y = x := by
  obtain ⟨ys, ym⟩ := y
  obtain ⟨hsign, hwf, hval⟩ := hy
  have hmag : ym = x.mag := mag_eq_of_val_eq hwf hx hval
  have hflag : ys = x.sign := hsign
  rw [hflag, hmag]

/-- DPARSE of a text that spells a value within the limb invariant writes that value (R192). -/
theorem exec_dparse_of_spelled {s : State} {x : Value} {ip fp : List Byte} (hrun : s.running)
    (hcfg : s.cfg.wf = true) (hx : Value.wf s.cfg x = true) (htext : isDecimalText s.cfg s.text x.sign ip fp)
    (hval : digitsValue ip * 10 ^ s.cfg.F + digitsValue fp * 10 ^ (s.cfg.F - fp.length) = val x.mag) (vd : VReg) :
    ∃ u, exec (.dparse vd) s = .next u ∧ u.getV vd = x := by
  obtain ⟨u, hexec, -, hread⟩ := exec_setV hrun rfl (exec_dparse_of_text htext vd)
  have hholds := holds_parseDecimal hcfg htext
  rw [hval] at hholds
  exact ⟨u, hexec, hread.trans (holds.eq hx hholds)⟩

/-- A zero magnitude is the number 0 whatever its flag (R11). -/
theorem sval_of_zero {x : Value} (h : val x.mag = 0) : sval x = 0 := by simp [sval, h]

/-- Settles O47: the text of a nonzero Decimal spells it, and the text of a zero Decimal spells positive zero. -/
theorem formatThenParseGivesTheDecimalBack : Obligations.FormatThenParseGivesTheDecimalBack := by
  intro va vd s hwf hrun
  have hcfg : s.cfg.wf = true := ((State.wf_iff s).mp hwf).1
  have hmag : Value.wf s.cfg (s.getV va) = true := State.magWf_mag hwf va
  have hrun' : ((s.setText (formatDecimal s.cfg (s.getV va))).setCC .ok).running := hrun
  by_cases hzero : s.magVal va = 0
  case neg =>
    obtain ⟨u, hexec, hread⟩ := exec_dparse_of_spelled hrun' hcfg hmag
      (isDecimalText_formatDecimal hcfg hmag hzero) (digitsValue_parts hcfg hmag) vd
    exact ⟨_, u, exec_dformat hrun va, hexec, congrArg sval hread, fun _ => hread, fun h => absurd h hzero⟩
  case pos =>
    have htext : isDecimalText s.cfg (formatDecimal s.cfg (s.getV va)) false [zeroChar] [] := by
      rw [formatDecimal_of_zero s.cfg hzero]
      exact isDecimalText_zero hcfg
    have hval : digitsValue [zeroChar] * 10 ^ s.cfg.F + digitsValue [] * 10 ^ (s.cfg.F - 0) =
        val (Value.zero s.cfg).mag := by
      rw [show digitsValue [zeroChar] = 0 from digitsValue_replicate_zero 1, digitsValue_nil, Nat.zero_mul,
        Nat.zero_mul]
      exact (val_replicate_zero s.cfg.N).symm
    obtain ⟨u, hexec, hread⟩ := exec_dparse_of_spelled hrun' hcfg (Value.wf_zero s.cfg) htext hval vd
    refine ⟨_, u, exec_dformat hrun va, hexec, ?_, fun h => absurd hzero h, fun _ => hread⟩
    rw [hread, sval_of_zero hzero, sval_of_zero (val_replicate_zero s.cfg.N)]

/-! ### The Decimal commands that are Integer commands -/

section
variable {i j : Instr} {s s' : State}

/-- Two commands that are done with one state answer one state. -/
theorem exec_eq_of_done (h : s.running) (hi : i.wf = true) (hj : j.wf = true)
    (hei : exec i s = runCommand i s (.done s')) (hej : exec j s = runCommand j s (.done s')) :
    exec i s = exec j s :=
  (exec_done h hi hei).trans (exec_done h hj hej).symm

/-- What one of two commands that answer one state is known to answer, both answer. -/
theorem exists_common_next {p : State → Prop} (heq : exec i s = exec j s) (hj : ∃ t, exec j s = .next t ∧ p t) :
    ∃ t, exec i s = .next t ∧ exec j s = .next t ∧ p t := by
  obtain ⟨t, hexec, hp⟩ := hj
  exact ⟨t, heq.trans hexec, hexec, hp⟩

/-- Two commands that write one sum of Integers answer one state when the magnitudes to be added fit. -/
theorem exec_eq_of_writing_sum {x y : Value} {write : Value → State} (hx : Value.wf s.cfg x = true)
    (hy : Value.wf s.cfg y = true) (h : s.running) (hi : i.wf = true) (hj : j.wf = true)
    (hei : exec i s = runCommand i s (.writing (addInt s.cfg x y) write))
    (hej : exec j s = runCommand j s (.writing (addInt s.cfg x y) write))
    (hfits : x.sign = y.sign → val x.mag + val y.mag < s.cfg.CAP) : exec i s = exec j s := by
  rcases addInt_spec hx hy with ⟨⟨hsign, hcap⟩, -⟩ | ⟨-, z, hok, -⟩
  · exact absurd (hfits hsign) (Nat.not_lt.mpr hcap)
  · rw [hok] at hei hej
    exact exec_eq_of_done h hi hj hei hej

end

theorem exec_dadd (vd va vb : VReg) (s : State) :
    exec (.dadd vd va vb) s = runCommand (.dadd vd va vb) s
      (.writing (addInt s.cfg (s.getV va) (s.getV vb)) fun z => s.setV vd z) := rfl

/-- DSUB adds the negated second operand, as ISUB does (R174, R195). -/
theorem exec_dsub (vd va vb : VReg) (s : State) :
    exec (.dsub vd va vb) s = runCommand (.dsub vd va vb) s
      (.writing (addInt s.cfg (s.getV va) (negate (s.getV vb))) fun z => s.setV vd z) := rfl

/-- Settles O48: what IADD and ISUB do is known, and each Decimal command has the completion of its Integer command. -/
theorem daddAndDsubAreIaddAndIsub : Obligations.DaddAndDsubAreIaddAndIsub := by
  intro vd va vb s hwf hrun a b
  have ha : Value.wf s.cfg a = true := State.magWf_mag hwf va
  have hb : Value.wf s.cfg b = true := State.magWf_mag hwf vb
  have hflip := sign_eq_negate_sign_iff a b
  obtain ⟨-, -, hiadd, hiaddOverflow, hisub, hisubOverflow⟩ := iaddAndIsubAddSignedValues vd va vb s hwf hrun
  refine ⟨encodedAs_fields (.dadd vd va vb), encodedAs_fields (.dsub vd va vb), fun hfits => ?dadd,
    fun hsign hcap => ⟨?daddOverflow, hiaddOverflow hsign hcap⟩, fun hfits => ?dsub,
    fun hsign hcap => ⟨?dsubOverflow, hisubOverflow hsign hcap⟩⟩
  case dadd =>
    obtain ⟨t, hexec, hframe, -, hsum, -⟩ := hiadd hfits
    exact exists_common_next
      (exec_eq_of_writing_sum ha hb hrun rfl rfl (exec_dadd vd va vb s) (exec_iadd vd va vb s) hfits)
      ⟨t, hexec, hframe, hsum⟩
  case daddOverflow => exact raisesFault_of_writing_sum hrun rfl (exec_dadd vd va vb s) hsign hcap
  case dsub =>
    obtain ⟨t, hexec, hframe, -, hdifference, -⟩ := hisub hfits
    exact exists_common_next
      (exec_eq_of_writing_sum (y := negate b) ha hb hrun rfl rfl (exec_dsub vd va vb s) (exec_isub vd va vb s)
        fun hsign => hfits (hflip.mp hsign))
      ⟨t, hexec, hframe, hdifference⟩
  case dsubOverflow =>
    exact raisesFault_of_writing_sum hrun rfl (exec_dsub vd va vb s) (hflip.mpr hsign) hcap

/-- Settles O52: each Decimal comparison is done with the state its Integer comparison is done with. -/
theorem decimalComparisonsCompareSignedValues : Obligations.DecimalComparisonsCompareSignedValues := by
  intro sd va vb s hwf hrun
  obtain ⟨-, ⟨-, heq⟩, ⟨-, hgt⟩, ⟨-, hlt⟩, ⟨-, hge⟩, -, hle⟩ :=
    integerComparisonsCompareSignedValues sd va vb s hwf hrun
  exact ⟨⟨encodedAs_fields (.deq sd va vb), exists_common_next (exec_eq_of_done hrun rfl rfl rfl rfl) heq⟩,
    ⟨encodedAs_fields (.dgt sd va vb), exists_common_next (exec_eq_of_done hrun rfl rfl rfl rfl) hgt⟩,
    ⟨encodedAs_fields (.dlt sd va vb), exists_common_next (exec_eq_of_done hrun rfl rfl rfl rfl) hlt⟩,
    ⟨encodedAs_fields (.dge sd va vb), exists_common_next (exec_eq_of_done hrun rfl rfl rfl rfl) hge⟩,
    ⟨encodedAs_fields (.dle sd va vb), exists_common_next (exec_eq_of_done hrun rfl rfl rfl rfl) hle⟩⟩

/-! ### DISZERO and DCONST -/

/-- Limb `j` of a number is its BASE-digit of place `n − 1 − j` (R10). -/
theorem nat_getD {n j : Nat} (hj : j < n) (v : Nat) :
    ((nat n v).getD j 0#64).toNat = v / BASE ^ (n - 1 - j) % BASE := by
  induction n generalizing j with
  | zero => omega
  | succ n ih =>
    cases j with
    | zero => exact toNat_ofNat_of_lt_BASE (Nat.mod_lt _ BASE_pos)
    | succ j =>
      rw [nat, List.getD_cons_succ, ih (Nat.lt_of_succ_lt_succ hj), show n + 1 - 1 - (j + 1) = n - 1 - j by omega]

/-- The BASE-digits of a limb `d` at place `p`: `d` there and 0 elsewhere. -/
theorem mul_BASE_pow_digit {d : Nat} (hd : d < BASE) (p q : Nat) :
    d * BASE ^ p / BASE ^ q % BASE = if q = p then d else 0 := by
  rcases lt_trichotomy q p with hlt | rfl | hgt
  · obtain ⟨r, rfl⟩ := Nat.exists_eq_add_of_lt hlt
    have hsplit : d * BASE ^ (q + r + 1) = d * BASE ^ r * BASE * BASE ^ q := by ring
    rw [hsplit, Nat.mul_div_cancel _ (BASE_pow_pos q), Nat.mul_mod_left, if_neg hlt.ne]
  · rw [Nat.mul_div_cancel _ (BASE_pow_pos q), Nat.mod_eq_of_lt hd, if_pos rfl]
  · have hsmall : d * BASE ^ p < BASE ^ q :=
      calc d * BASE ^ p < BASE * BASE ^ p := Nat.mul_lt_mul_of_pos_right hd (BASE_pow_pos p)
        _ = BASE ^ (p + 1) := (Nat.pow_succ').symm
        _ ≤ BASE ^ q := Nat.pow_le_pow_right BASE_pos hgt
    rw [Nat.div_eq_of_lt hsmall, Nat.zero_mod, if_neg hgt.ne']

/-- A Natural of one limb `d` at place `p` holds its number, and `d` in the limb of that place alone. -/
theorem natural_one_limb {c : Config} {d p : Nat} (hd : d < BASE) (hp : p < c.N) :
    val (natural c (d * BASE ^ p)).mag = d * BASE ^ p ∧
      ∀ j, j < c.N → (natural c (d * BASE ^ p)).limb j = if j = c.N - 1 - p then d else 0 := by
  constructor
  · refine val_nat ?_
    calc d * BASE ^ p < BASE * BASE ^ p := Nat.mul_lt_mul_of_pos_right hd (BASE_pow_pos p)
      _ = BASE ^ (p + 1) := (Nat.pow_succ').symm
      _ ≤ BASE ^ c.N := Nat.pow_le_pow_right BASE_pos hp
  · intro j hj
    rw [Value.limb, natural_mag, nat_getD hj, mul_BASE_pow_digit hd]
    exact if_congr (by omega) rfl rfl

/-- DCONST's zero, one and two are the index times the scale (R33). -/
theorem constRom_of_le_two (c : Config) {idx : Nat} (h : idx ≤ 2) : constRom c idx = natural c (idx * c.SC) := by
  interval_cases idx
  · rw [constRom, Nat.zero_mul]
  · rw [constRom, Nat.one_mul]
  · rw [constRom]

/-- One-half is half the scale (R33). -/
theorem two_mul_half {c : Config} (hK : c.K ≠ 0) : 2 * (5 * 10 ^ 17 * BASE ^ (c.K - 1)) = c.SC := by
  rw [← Nat.mul_assoc, show 2 * (5 * 10 ^ 17) = BASE by decide, Config.SC, ← Nat.pow_succ',
    Nat.succ_eq_add_one, Nat.sub_add_cancel (Nat.pos_of_ne_zero hK)]

/-- The constants of R33 by their numbers and their limbs. -/
theorem constRom_spec {c : Config} (hc : c.wf = true) {idx : Nat} (hidx : idx ≤ 3) (hhalf : idx = 3 → c.K ≠ 0) :
    (idx ≤ 2 → val (constRom c idx).mag = idx * c.SC) ∧ (idx = 3 → 2 * val (constRom c idx).mag = c.SC) ∧
      ∀ j, j < c.N → (constRom c idx).limb j =
        if idx = 3 then (if j = c.N - c.K then 500000000000000000 else 0)
        else (if j = c.N - c.K - 1 then idx else 0) := by
  obtain ⟨-, hK, -⟩ := (Config.wf_iff c).mp hc
  rcases Nat.lt_or_ge 2 idx with hgt | hle
  · obtain rfl : idx = 3 := by omega
    have hpos := hhalf rfl
    obtain ⟨hval, hlimbs⟩ := natural_one_limb (c := c) (d := 5 * 10 ^ 17) (p := c.K - 1) (by decide) (by omega)
    refine ⟨fun h => absurd h (by decide), fun _ => ?_, fun j hj => ?_⟩
    · exact (congrArg (2 * ·) hval).trans (two_mul_half hpos)
    · rw [if_pos rfl]
      exact (hlimbs j hj).trans (if_congr (by omega) rfl rfl)
  · obtain ⟨hval, hlimbs⟩ := natural_one_limb (d := idx) (hle.trans_lt (by decide)) hK
    rw [constRom_of_le_two c hle]
    refine ⟨fun _ => hval, fun h => by omega, fun j hj => ?_⟩
    rw [if_neg (by omega)]
    exact (hlimbs j hj).trans (if_congr (by omega) rfl rfl)

theorem constRom_sign (c : Config) (idx : Nat) : (constRom c idx).sign = false := by
  unfold constRom
  split <;> rfl

/-- The constants that exist: zero, one and two, and one-half when there are fractional limbs (R33). -/
theorem constExists_iff (c : Config) (idx : Nat) : constExists c idx = true ↔ idx ≤ 3 ∧ (idx = 3 → c.K ≠ 0) := by
  simp [constExists, imp_iff_not_or]

section
variable {s : State} {idx : Imm}

theorem exec_dconst_of_exists (h : constExists s.cfg idx.toNat = true) (vd : VReg) :
    exec (.dconst vd idx) s = runCommand (.dconst vd idx) s (.done (s.setV vd (constRom s.cfg idx.toNat))) :=
  congrArg (runCommand _ s) (if_pos h)

theorem exec_dconst_of_not_exists (h : ¬ constExists s.cfg idx.toNat = true) (vd : VReg) :
    exec (.dconst vd idx) s = runCommand (.dconst vd idx) s (.fault .badIndex) :=
  congrArg (runCommand _ s) (if_neg h)

end

/-- Settles O51: DISZERO tests the number of the magnitude; DCONST's check decides, and each constant is one limb. -/
theorem diszeroTestsAndDconstLoads : Obligations.DiszeroTestsAndDconstLoads := by
  intro sd vd va idx s hcfg hrun
  refine ⟨⟨encodedAs_fields (.diszero sd va), exec_truth hrun rfl ?iszero rfl⟩, encodedAs_fields (.dconst vd idx),
    fun hidx hhalf => ?loads, fun hbad => ?badIndex⟩
  case iszero => exact beq_iff_eq
  case loads =>
    obtain ⟨t, hexec, hframe, hread⟩ :=
      exec_setV hrun rfl (exec_dconst_of_exists ((constExists_iff s.cfg idx.toNat).mpr ⟨hidx, hhalf⟩) vd)
    obtain ⟨hwhole, honeHalf, hlimbs⟩ := constRom_spec hcfg hidx hhalf
    refine ⟨t, hexec, hframe, ?_⟩
    rw [State.mag_of_getV hread, hread]
    exact ⟨constRom_sign s.cfg idx.toNat, Value.wf_constRom s.cfg idx.toNat, hwhole, honeHalf, hlimbs⟩
  case badIndex =>
    refine raisesFault_of hrun rfl (exec_dconst_of_not_exists (fun hexists => ?_) vd)
    obtain ⟨hidx, hhalf⟩ := (constExists_iff s.cfg idx.toNat).mp hexists
    rcases hbad with hgt | ⟨hthree, hK⟩
    · exact absurd hidx (Nat.not_le.mpr hgt)
    · exact hhalf hthree hK

end Sys2Proof.Machine
end

section
/-! Decimal multiplication and division (49_decimal_mul_div.md): DMUL (R215), DDIV (R217), and their datapaths (R216,
R218). -/

namespace Sys2Proof.Machine

open Sys2Proof

/-! ### The commands -/

/-- A command that writes a Decimal result: the register holds the flag and the number. -/
theorem exec_writing_holds {i : Instr} {s : State} {vd : VReg} {r : Except Cause Value} {b : Bool} {v : Nat}
    (h : s.running) (hi : i.wf = true) (he : exec i s = runCommand i s (.writing r fun x => s.setV vd x))
    (hr : r = .ok { sign := b, mag := nat s.cfg.N v }) (hv : v < s.cfg.CAP) :
    ∃ t, exec i s = .next t ∧ completedWriting [vd] [] s t ∧ holds s.cfg b v (t.getV vd) := by
  obtain ⟨t, hexec, hframe, hread⟩ := exec_writing_ok (value := id) h hi he hr
  exact ⟨t, hexec, hframe, hread ▸ holds_nat b hv⟩

theorem exec_dmul (vd va vb : VReg) (s : State) :
    exec (.dmul vd va vb) s = runCommand (.dmul vd va vb) s
      (.writing (mulDec s.cfg (s.getV va) (s.getV vb)) fun x => s.setV vd x) := rfl

theorem exec_ddiv (vd va vb : VReg) (s : State) :
    exec (.ddiv vd va vb) s = runCommand (.ddiv vd va vb) s
      (.writing (divDec s.cfg (s.getV va) (s.getV vb)) fun x => s.setV vd x) := rfl

/-- Settles O49: the truncated product alone decides between the result and the fault. -/
theorem dmulTruncatesTheExactProduct : Obligations.DmulTruncatesTheExactProduct := by
  intro vd va vb s hrun
  refine ⟨encodedAs_fields (.dmul vd va vb), fun hfits => ?multiplies, fun hcap => ?overflows⟩
  case multiplies => exact exec_writing_holds hrun rfl (exec_dmul vd va vb s) (mulDec_of_lt hfits) hfits
  case overflows => exact raisesFault_of_writing hrun rfl (exec_dmul vd va vb s) (mulDec_of_ge hcap)

/-- Settles O50: the rounded quotient is the nearest whole number, and the checks come in the order of R217. -/
theorem ddivRoundsTheExactQuotientHalfUp : Obligations.DdivRoundsTheExactQuotientHalfUp := by
  intro vd va vb s hrun d b q
  refine ⟨encodedAs_fields (.ddiv vd va vb), fun hdivisor hfits => ?divides, fun hzero => ?zero,
    fun hdivisor hcap => ?overflows⟩
  case divides =>
    obtain ⟨t, hexec, hframe, hread⟩ :=
      exec_writing_holds hrun rfl (exec_ddiv vd va vb s) (divDec_of_lt hdivisor hfits) hfits
    have ⟨_, _, hval⟩ := hread
    have hvd : t.magVal vd = roundedQuotient d b := hval
    refine ⟨t, hexec, hframe, hread, ?_⟩
    rw [hvd]
    exact roundedQuotient_nearest d hdivisor
  case zero => exact raisesFault_of_writing hrun rfl (exec_ddiv vd va vb s) (divDec_of_zero hzero)
  case overflows => exact raisesFault_of_writing hrun rfl (exec_ddiv vd va vb s) (divDec_of_ge hdivisor hcap)

/-! ### The staging of DMUL -/

/-- The truncated product by its two stages: the overflow half moved left by `N − K` limbs, and the low half moved
right by `K` (R216). -/
theorem div_SC_eq_stages {c : Config} (hK : c.K ≤ c.N) (p : Nat) :
    p / c.SC = p % c.CAP / BASE ^ c.K + p / c.CAP * BASE ^ (c.N - c.K) := by
  have hsplit : p = c.SC * (p / c.CAP * BASE ^ (c.N - c.K)) + p % c.CAP := by
    calc p = p / c.CAP * c.CAP + p % c.CAP := (Nat.div_add_mod' p c.CAP).symm
      _ = p / c.CAP * (BASE ^ (c.N - c.K) * BASE ^ c.K) + p % c.CAP := by rw [CAP_split hK]
      _ = c.SC * (p / c.CAP * BASE ^ (c.N - c.K)) + p % c.CAP := by rw [Config.SC]; ring
  conv_lhs => rw [hsplit, Nat.mul_add_div (SC_pos c), Nat.add_comm]
  rfl

/-- DMUL's staging computes Decimal `multiply`: the digits above the capacity are not zero exactly when the overflow
half alone leaves the capacity, and else the two stages add up to the truncated product (R215, R216). -/
theorem mulDecDatapath_eq_mulDec {c : Config} {x y : Value} (hc : c.wf = true) (hx : Value.wf c x = true)
    (hy : Value.wf c y = true) : mulDecDatapath c x y = mulDec c x y := by
  obtain ⟨-, hK, -⟩ := (Config.wf_iff c).mp hc
  have hstages := div_SC_eq_stages hK.le (val x.mag * val y.mag)
  have hover := product_div_lt (val_lt_CAP hx) (val_lt_CAP hy)
  have hlow := Nat.mod_lt (val x.mag * val y.mag) (CAP_pos c)
  generalize hp : val x.mag * val y.mag = p at hstages hover hlow
  have hlo : p % c.CAP / BASE ^ c.K < c.CAP := (Nat.div_le_self _ _).trans_lt hlow
  have hout : p / c.CAP * BASE ^ (c.N - c.K) / c.CAP < c.CAP := by
    refine Nat.div_lt_of_lt_mul (Nat.mul_lt_mul_of_lt_of_le hover ?_ (CAP_pos c))
    exact Nat.pow_le_pow_right BASE_pos (Nat.sub_le _ _)
  rw [mulDecDatapath, mulMag, hp]
  simp only [val_nat hlow, val_nat hover, val_nat hout, div_CAP_ne_zero_iff]
  rcases Nat.lt_or_ge (p / c.CAP * BASE ^ (c.N - c.K)) c.CAP with hfits | hcap
  · rw [if_neg hfits.not_ge, Nat.mod_eq_of_lt hfits, addMag, val_nat hlo, val_nat hfits, ← hstages, mulDec, hp]
    split <;> rfl
  · have hquotient : c.CAP ≤ val x.mag * val y.mag / c.SC := by
      rw [hp, hstages]
      exact hcap.trans (Nat.le_add_left _ _)
    rw [if_pos hcap, mulDec_of_ge hquotient]

/-! ### The wide divider of DDIV -/

/-- The internal dividend: `K` zero limbs below a magnitude scale its number (R218). -/
theorem val_append_zeros (c : Config) (m : List Word) : val (m ++ List.replicate c.K 0#64) = val m * c.SC := by
  rw [val_append, val_replicate_zero, List.length_replicate, Nat.add_zero, Config.SC]

/-- The internal dividend is within the limb invariant (R22, R218). -/
theorem append_zeros_limb_lt {m : List Word} (hm : ∀ l ∈ m, l.toNat < BASE) (k : Nat) :
    ∀ l ∈ m ++ List.replicate k 0#64, l.toNat < BASE := by
  refine List.forall_mem_append.mpr ⟨hm, fun l hl => ?_⟩
  rw [List.eq_of_mem_replicate hl]
  exact BASE_pos

/-- The rounding test on `B − R` is the test of R217 on `2·R` (R218). -/
theorem roundedQuotient_eq_sub_test (d b : Nat) :
    roundedQuotient d b = if b - d % b ≤ d % b then d / b + 1 else d / b := by
  rw [roundedQuotient]
  exact if_congr (by omega) rfl rfl

/-- DDIV's datapath computes Decimal `divide`: its divider divides the scaled dividend (R217, R218). -/
theorem divDecDatapath_eq_divDec {c : Config} {x y : Value} (hx : Value.wf c x = true) (hy : Value.wf c y = true) :
    divDecDatapath c x y = divDec c x y := by
  obtain ⟨-, hxlimbs⟩ := (magWf_iff c x.mag).mp hx
  obtain ⟨-, hylimbs⟩ := (magWf_iff c y.mag).mp hy
  have hlimbs := append_zeros_limb_lt hxlimbs c.K
  have hwide := val_lt_of_limbs hlimbs
  rw [val_append_zeros] at hwide
  have hquotient := val_nat ((Nat.div_le_self _ (val y.mag)).trans_lt hwide)
  rw [divDecDatapath, divDec]
  refine ite_congr rfl (fun _ => rfl) fun hdivisor => ?_
  simp only [divideLimbs_eq hlimbs hylimbs hdivisor, val_append_zeros, hquotient, ← roundedQuotient_eq_sub_test,
    div_CAP_ne_zero_iff]

/-- Settles O59: each datapath is its contract, as a function of the operands. -/
theorem decimalDatapathsMeetTheirContracts : Obligations.DecimalDatapathsMeetTheirContracts :=
  fun _ _ _ hc hx hy => ⟨mulDecDatapath_eq_mulDec hc hx hy, divDecDatapath_eq_divDec hx hy⟩

end Sys2Proof.Machine
end
